-- ==== Sys2Proof/Word.lean ====
section
/-!
DEFINITION. The value types every other file uses: bytes, input identifiers (a buffer handle is a plain Nat, R25), and
the closed sets of names of spec/30_encoding.md (element types, owner tags, kernel ids, pipeline registers).
-/
namespace Sys2Proof

/-- One u8 value: a gray pixel or one colour channel (R7 CH_BITS, R105). -/
abbrev Byte := BitVec 8

/-- A pending input identifier: an opaque value the core hands to Decode unchanged (R38). -/
abbrev Ident := Nat

/-- The element type of a buffer (R15, R96). -/
inductive ElemType where
  | gray
  | rgb
deriving DecidableEq, Repr, Inhabited

/-- The eight owner tags of R97. `free` is never stored in a record. -/
inductive OwnerTag where
  | free
  | raw
  | gray
  | proc
  | ppSrc
  | ppDst
  | cscOut
  | host
deriving DecidableEq, Repr, Inhabited

/-- The five named kernels, in the order of R95. -/
inductive KernelId where
  | blur
  | sharpen
  | gaussian
  | sobelX
  | sobelY
deriving DecidableEq, Repr, Inhabited

/-- The three pipeline registers, in data-flow order (R21, R98). -/
inductive PipeReg where
  | raw
  | gray
  | proc
deriving DecidableEq, Repr, Inhabited

end Sys2Proof
end

