-- ==== Sys2Proof/Syntax.lean ====
section
/-!
DEFINITION. The operation set of R90 as one inductive type, one constructor per row of spec/opcode_table.json. A
constructor carries what the command byte carries (the SUB field of R91): the operands come on the operand ports
of R94, which the state holds.
-/
namespace Sys2Proof

/-- The 19 operations of R90. -/
inductive Instr where
  /-- FB.CREATE (R120); `t` is SUB bit 0 -/
  | fbCreate (t : ElemType)
  /-- FB.GET (R121) -/
  | fbGet
  /-- FB.SET (R122) -/
  | fbSet
  /-- FB.DESTROY (R123) -/
  | fbDestroy
  /-- FB.MOVE (R124); `o` is the destination owner tag in SUB -/
  | fbMove (o : OwnerTag)
  /-- PP.SWAP (R125) -/
  | ppSwap
  /-- CSC.CONVERT (R140) -/
  | cscConvert
  /-- CONV.BLUR (R173) -/
  | convBlur
  /-- CONV.SHARPEN (R174) -/
  | convSharpen
  /-- CONV.GAUSSIAN (R175) -/
  | convGaussian
  /-- CONV.SOBELX (R176) -/
  | convSobelX
  /-- CONV.SOBELY (R177) -/
  | convSobelY
  /-- SOBEL.MAG (R190) -/
  | sobelMag
  /-- ACT.OUTPUT (R202) -/
  | actOutput
  /-- ACT.FILTER (R203) -/
  | actFilter
  /-- ACT.CONVERT (R204) -/
  | actConvert
  /-- ACT.INPUT (R205) -/
  | actInput
  /-- TICK (R206) -/
  | tick
  /-- RUN (R207) -/
  | run
deriving DecidableEq, Repr, Inhabited

end Sys2Proof
end

