-- ==== Sys2Proof/WellFormed.lean ====
section
/-!
DEFINITION. Which instructions have an encoding: all but an FB.MOVE to the owner tag FREE, whose byte 0x50 is
reserved (R97, R106).
-/
namespace Sys2Proof

/-- The one check on an instruction's fields: FREE is no FB.MOVE destination (R97, R106). -/
def Instr.wellFormed : Instr → Bool
  | .fbMove o => o != .free
  | .fbCreate _ => true
  | .fbGet => true
  | .fbSet => true
  | .fbDestroy => true
  | .ppSwap => true
  | .cscConvert => true
  | .convBlur => true
  | .convSharpen => true
  | .convGaussian => true
  | .convSobelX => true
  | .convSobelY => true
  | .sobelMag => true
  | .actOutput => true
  | .actFilter => true
  | .actConvert => true
  | .actInput => true
  | .tick => true
  | .run => true

end Sys2Proof
end

