-- ==== Sys2Proof/Decode.lean ====
section
/-!
DEFINITION. The command byte: fields (R91), decoder (R93, R106), encoder (R93), and the numeric codes of the
sub-field tables (R95 to R99).
-/
namespace Sys2Proof

/-- Why a byte selects no operation (R106): Z is 1, OP is reserved, or SUB is reserved for that OP. -/
inductive Reject where
  | zBitSet
  | reservedOp
  | reservedSub
deriving DecidableEq, Repr

/-- What the decoder answers on a byte: an instruction, or the reason it selects none. -/
inductive Decoded where
  | instr (i : Instr)
  | reserved (why : Reject)
deriving DecidableEq, Repr

/-- Element type code, 1 bit (R96). -/
def elemCode : ElemType → Nat
  | .gray => 0
  | .rgb => 1

/-- Owner tag code, 3 bits (R97). -/
def ownerCode : OwnerTag → Nat
  | .free => 0
  | .raw => 1
  | .gray => 2
  | .proc => 3
  | .ppSrc => 4
  | .ppDst => 5
  | .cscOut => 6
  | .host => 7

/-- Kernel id, 3 bits (R95). -/
def kernelCode : KernelId → Nat
  | .blur => 0
  | .sharpen => 1
  | .gaussian => 2
  | .sobelX => 3
  | .sobelY => 4

/-- Register number, 2 bits (R98). It stands in no command byte. -/
def regNumber : PipeReg → BitVec 2
  | .raw => 0
  | .gray => 1
  | .proc => 2

/-- The register a number names; 3 is reserved (R98). -/
def regOfNumber (n : BitVec 2) : Option PipeReg :=
  match n.toNat with
  | 0 => some .raw
  | 1 => some .gray
  | 2 => some .proc
  | _ => none

/-- Bits 7:4, the major opcode (R91). -/
def opField (b : BitVec 8) : Nat := (b.extractLsb' 4 4).toNat

/-- Bit 3, which must be 0 (R91). -/
def zField (b : BitVec 8) : Bool := b.getLsbD 3

/-- Bits 2:0, the sub-field (R91). -/
def subField (b : BitVec 8) : Nat := (b.extractLsb' 0 3).toNat

/-- OP 0x1: SUB bit 0 is the element type, SUB above 1 is reserved (R93, R106). -/
def decodeCreate (sub : Nat) : Decoded :=
  match sub with
  | 0 => .instr (.fbCreate .gray)
  | 1 => .instr (.fbCreate .rgb)
  | _ => .reserved .reservedSub

/-- OP 0x5: SUB is the destination owner tag, 0 is reserved (R93, R97, R106). -/
def decodeMove (sub : Nat) : Decoded :=
  match sub with
  | 1 => .instr (.fbMove .raw)
  | 2 => .instr (.fbMove .gray)
  | 3 => .instr (.fbMove .proc)
  | 4 => .instr (.fbMove .ppSrc)
  | 5 => .instr (.fbMove .ppDst)
  | 6 => .instr (.fbMove .cscOut)
  | 7 => .instr (.fbMove .host)
  | _ => .reserved .reservedSub

/-- OP 0x8: SUB is the kernel id, 5 to 7 are reserved (R93, R95, R106). -/
def decodeConv (sub : Nat) : Decoded :=
  match sub with
  | 0 => .instr .convBlur
  | 1 => .instr .convSharpen
  | 2 => .instr .convGaussian
  | 3 => .instr .convSobelX
  | 4 => .instr .convSobelY
  | _ => .reserved .reservedSub

/-- OP 0xA: SUB is the action number, 4 to 7 are reserved (R93, R99, R106). -/
def decodeAction (sub : Nat) : Decoded :=
  match sub with
  | 0 => .instr .actOutput
  | 1 => .instr .actFilter
  | 2 => .instr .actConvert
  | 3 => .instr .actInput
  | _ => .reserved .reservedSub

/-- An OP with no sub-field: SUB must be 0 (R91, R106). -/
def decodePlain (i : Instr) (sub : Nat) : Decoded :=
  match sub with
  | 0 => .instr i
  | _ => .reserved .reservedSub

/-- The opcode map of R93, by OP and SUB, for a byte whose Z is 0. -/
def decodeFields (op sub : Nat) : Decoded :=
  match op with
  | 1 => decodeCreate sub
  | 2 => decodePlain .fbGet sub
  | 3 => decodePlain .fbSet sub
  | 4 => decodePlain .fbDestroy sub
  | 5 => decodeMove sub
  | 6 => decodePlain .ppSwap sub
  | 7 => decodePlain .cscConvert sub
  | 8 => decodeConv sub
  | 9 => decodePlain .sobelMag sub
  | 10 => decodeAction sub
  | 11 => decodePlain .tick sub
  | 12 => decodePlain .run sub
  | _ => .reserved .reservedOp

/-- The decoder: total on every byte (R91, R93, R106). -/
def decode (b : BitVec 8) : Decoded :=
  if zField b then .reserved .zBitSet else decodeFields (opField b) (subField b)

/-- The byte with major opcode `op`, Z = 0 and sub-field `sub` (R91). -/
def packCommand (op sub : Nat) : BitVec 8 :=
  BitVec.ofNat 4 op ++ (0#1 ++ BitVec.ofNat 3 sub)

/-- The command byte of an instruction, from the table of R93. -/
def encode : Instr → BitVec 8
  | .fbCreate t => packCommand 0x1 (elemCode t)
  | .fbGet => packCommand 0x2 0
  | .fbSet => packCommand 0x3 0
  | .fbDestroy => packCommand 0x4 0
  | .fbMove o => packCommand 0x5 (ownerCode o)
  | .ppSwap => packCommand 0x6 0
  | .cscConvert => packCommand 0x7 0
  | .convBlur => packCommand 0x8 (kernelCode .blur)
  | .convSharpen => packCommand 0x8 (kernelCode .sharpen)
  | .convGaussian => packCommand 0x8 (kernelCode .gaussian)
  | .convSobelX => packCommand 0x8 (kernelCode .sobelX)
  | .convSobelY => packCommand 0x8 (kernelCode .sobelY)
  | .sobelMag => packCommand 0x9 0
  | .actOutput => packCommand 0xA 0
  | .actFilter => packCommand 0xA 1
  | .actConvert => packCommand 0xA 2
  | .actInput => packCommand 0xA 3
  | .tick => packCommand 0xB 0
  | .run => packCommand 0xC 0

/-- The instruction the decoder reads from a table word: one length, 8 bits (R107). -/
def decodeTableWord (nbits w : Nat) : Option Instr :=
  if nbits = 8 ∧ w < 256 then
    match decode (BitVec.ofNat 8 w) with
    | .instr i => some i
    | .reserved _ => none
  else none

end Sys2Proof
end

