-- ==== Sys2Proof/Config.lean ====
section
/-!
DEFINITION. The implementation parameters of R7 as plain data (those with one value, the Kernel Tables, the
floating-point format), the answer types of the environment's oracles (R258 to R260), and the free values: opaque
constants about which nothing can be proved but that they exist.
-/
namespace Sys2Proof

/-- Three luma coefficients (R7 LUMA_COEF). -/
structure LumaCoef where
  r : Nat
  g : Nat
  b : Nat
deriving DecidableEq, Repr

/-- The parameters of R7 that have one value, under its names. Numbers a meaning computes with are read from here; a
width stands as the fixed type of the fields that have it, and Laws/Parameters.lean proves that the two agree
(log 26). -/
structure Hardware where
  /-- CH_BITS -/
  chBits : Nat
  /-- KSIZE -/
  kSize : Nat
  /-- ACC_BITS -/
  accBits : Nat
  /-- LUMA_ACC_BITS -/
  lumaAccBits : Nat
  /-- LUMA_COEF (fixed) -/
  lumaCoef : LumaCoef
  /-- normalisation shift of LUMA_COEF (fixed) -/
  lumaShift : Nat
  /-- LUMA_COEF (float), numerators over `lumaCoefUnit` -/
  lumaCoefFloat : LumaCoef
  /-- the common denominator of the decimals of LUMA_COEF (float) -/
  lumaCoefUnit : Nat
  /-- MAXW: a premise on Decode, not checked by the core (D8) -/
  maxW : Nat
  /-- MAXH: a premise on Decode, not checked by the core (D8) -/
  maxH : Nat
  /-- ROW_ALIGN: a premise on Decode, not checked by the core (D8) -/
  rowAlign : Nat
  /-- NREG -/
  nReg : Nat
  /-- NKERNEL -/
  nKernel : Nat
  /-- W_BITS -/
  wBits : Nat
  /-- H_BITS -/
  hBits : Nat
  /-- COORD_BITS -/
  coordBits : Nat
  /-- WEIGHT_BITS -/
  weightBits : Nat
  /-- SHIFT_BITS -/
  shiftBits : Nat
  /-- BIAS_BITS -/
  biasBits : Nat
  /-- CURSOR_BITS -/
  cursorBits : Nat
deriving DecidableEq, Repr

/-- Nine values indexed `[ky][kx]`: `pRC` stands in row `ky = R`, column `kx = C` (R160). -/
structure Grid3 (α : Type) where
  p00 : α
  p01 : α
  p02 : α
  p10 : α
  p11 : α
  p12 : α
  p20 : α
  p21 : α
  p22 : α
deriving DecidableEq, Repr

/-- A fixed-mode Kernel Table entry with the field widths of R103. -/
structure Kernel where
  w : Grid3 (BitVec 16)
  shift : BitVec 5
  bias : BitVec 16
deriving DecidableEq, Repr

/-- A value of the parameter FLOAT: the exact number `m * 2^e`, an infinity, or not a number. The sign of zero is not
kept: no rule's result depends on it. DEDUCED (log 14). -/
inductive Flt where
  | finite (m e : Int)
  | posInf
  | negInf
  | nan
deriving DecidableEq, Repr

/-- A float-mode Kernel Table entry (R104, R167). -/
structure FloatKernel where
  w : Grid3 Flt
  scale : Flt
  bias : Flt
deriving DecidableEq, Repr

/-- One entry per named kernel (R40, R160). -/
structure KernelTable (κ : Type) where
  blur : κ
  sharpen : κ
  gaussian : κ
  sobelX : κ
  sobelY : κ
deriving DecidableEq, Repr

/-- The rounding directions of a binary floating-point format (R144 "any IEEE 754 rounding direction"). -/
inductive Rounding where
  | nearestEven
  | nearestAway
  | towardZero
  | towardPositive
  | towardNegative
deriving DecidableEq, Repr

/-- The parameter FLOAT (R7, D12): a binary format with `prec` significand bits, largest exponent `emax`, and one
rounding direction. DESIGN CHOICE (log 22). -/
structure FloatFormat where
  prec : Nat
  emax : Nat
  rounding : Rounding
deriving DecidableEq, Repr

/-- The formats R144 speaks of: a significand of at least 24 bits, and the range of binary32 or wider. -/
def FloatFormat.wf (f : FloatFormat) : Bool := decide (24 ≤ f.prec ∧ 127 ≤ f.emax)

/-- The parameters KTAB, KTAB_FLOAT and FLOAT of R7, which may take other values than the default: fixed for a run
(R273 P5). -/
structure Params where
  ktab : KernelTable Kernel
  ktabFloat : KernelTable FloatKernel
  float : FloatFormat
deriving DecidableEq, Repr

/-- An RGB element: three u8 channels (R15, R105). -/
structure Pixel where
  r : Byte
  g : Byte
  b : Byte
deriving DecidableEq, Repr, Inhabited

/-- The four decode errors of R102 and R245. -/
inductive DecodeError where
  | invalidFormat
  | resolutionExceeded
  | rowAlignmentViolation
  | unsupportedChannelDepth
deriving DecidableEq, Repr, Inhabited

/-- What Decode answers (R258). Width and height are plain numbers, since an answer may break the contract (U11). -/
inductive DecodeAnswer where
  | grid (w h : Nat) (pixels : List Pixel)
  | error (cause : DecodeError)
deriving DecidableEq, Repr, Inhabited

/-- What Encode answers (R259). -/
inductive EncodeAnswer where
  | success
  | ioError
deriving DecidableEq, Repr, Inhabited

/-- Free value: the allocator's answer to the `n`-th oracle call, a request for a `w`×`h` buffer (R260, U12), when
the state lists no answer for it (log 7). -/
opaque Config.allocAnswer : (n : Nat) → (t : ElemType) → (w h : Nat) → Bool

/-- Free value: Decode's answer at the `n`-th oracle call (R258, U14), when the state lists none for it (log 7). -/
opaque Config.decodeAnswer : (n : Nat) → (id : Ident) → DecodeAnswer

/-- Free value: Encode's answer at the `n`-th oracle call, given the `w`×`h` frame of bytes `grid` under `id` (R259, U14),
when the state lists none for it (log 7). -/
opaque Config.encodeAnswer : (n : Nat) → (id : Nat) → (w h : Nat) → (grid : List Byte) → EncodeAnswer

/-- Free value: which of the codes open to it the RC port shows after a TICK or a RUN in which an action raised a
condition; `n` counts the oracle calls made so far. R94 gives every operation a result code and R240 says TICK and RUN
raise none of their own (log 9). -/
opaque Config.nestedChoice : (n : Nat) → Nat

/-- Free value: the byte f2u8 makes of a NaN in CONV.* or SOBEL.MAG. R10 states f2u8 for 0 ≤ a ≤ 255 only; R46 makes
the result a function of the kernels and the operand buffer (log 13). -/
opaque Config.nanPixel : FloatFormat → List FloatKernel → (w h : Nat) → List Host.Cell → (x y : Nat) → Byte

/-- Free value: the byte f2u8 makes of a NaN in luma_float, which only a format outside `FloatFormat.wf` could
produce (R10, R143; log 13). -/
opaque Config.nanLuma : FloatFormat → Pixel → Byte

end Sys2Proof
end

