-- ==== Sys2Proof/Machine/KernelTable.lean ====
section
/-!
DEFINITION. The default Kernel Table (R162 to R166), access by kernel id and by `[ky][kx]` (R40, R160), and the entry
layouts (R103, R104; log 25).
-/
namespace Sys2Proof

/-- Row-major map over the nine positions. -/
def Grid3.map {α β : Type} (f : α → β) (g : Grid3 α) : Grid3 β :=
  ⟨f g.p00, f g.p01, f g.p02, f g.p10, f g.p11, f g.p12, f g.p20, f g.p21, f g.p22⟩

/-- The nine values, `ky` outer and `kx` inner: the order of R103, R171 and R172. -/
def Grid3.toList {α : Type} (g : Grid3 α) : List α :=
  [g.p00, g.p01, g.p02, g.p10, g.p11, g.p12, g.p20, g.p21, g.p22]

/-- Entry `k` of a Kernel Table (R40). -/
def KernelTable.entry {κ : Type} (t : KernelTable κ) : KernelId → κ
  | .blur => t.blur
  | .sharpen => t.sharpen
  | .gaussian => t.gaussian
  | .sobelX => t.sobelX
  | .sobelY => t.sobelY

/-- An entry from integers that fit its fields (R103). -/
def Kernel.ofInts (w : Grid3 Int) (shift : Nat) (bias : Int) : Kernel :=
  { w := w.map (BitVec.ofInt 16), shift := BitVec.ofNat 5 shift, bias := BitVec.ofInt 16 bias }

/-- KTAB[BLUR]: nine weights 58, shift 9, bias 0 (R162). -/
def kernelBlur : Kernel := .ofInts ⟨58, 58, 58, 58, 58, 58, 58, 58, 58⟩ 9 0

/-- KTAB[SHARPEN]: the spec's own default (R163, G2; log 2). -/
def kernelSharpen : Kernel := .ofInts ⟨0, -1, 0, -1, 5, -1, 0, -1, 0⟩ 0 0

/-- KTAB[GAUSSIAN]: the spec's own default (R164, G3). -/
def kernelGaussian : Kernel := .ofInts ⟨1, 2, 1, 2, 4, 2, 1, 2, 1⟩ 4 0

/-- KTAB[SOBELX]: the spec's own default (R165, G4). -/
def kernelSobelX : Kernel := .ofInts ⟨-1, 0, 1, -2, 0, 2, -1, 0, 1⟩ 0 0

/-- KTAB[SOBELY]: the spec's own default (R166, G4). -/
def kernelSobelY : Kernel := .ofInts ⟨-1, -2, -1, 0, 0, 0, 1, 2, 1⟩ 0 0

/-- The default of the parameter KTAB (R7, R161 to R166; log 2). -/
def ktabDefault : KernelTable Kernel :=
  { blur := kernelBlur, sharpen := kernelSharpen, gaussian := kernelGaussian,
    sobelX := kernelSobelX, sobelY := kernelSobelY }

/-- A fixed entry read as a float entry: the same weights and bias, scale 2^-shift. -/
def Kernel.toFloat (k : Kernel) : FloatKernel :=
  { w := k.w.map (fun c => .finite c.toInt 0), scale := .finite 1 (-(k.shift.toNat : Int)),
    bias := .finite k.bias.toInt 0 }

/-- The KTAB_FLOAT of the model's reset. R167 leaves it open and gives no default. DESIGN CHOICE (log 3), the choice
R167 and R192 name for agreement of the two modes. -/
def ktabFloatReset : KernelTable FloatKernel :=
  { blur := kernelBlur.toFloat, sharpen := kernelSharpen.toFloat, gaussian := kernelGaussian.toFloat,
    sobelX := kernelSobelX.toFloat, sobelY := kernelSobelY.toFloat }

/-- The default of the parameter FLOAT: IEEE 754 binary32, round to nearest even (R7, R143; log 4). -/
def binary32 : FloatFormat := { prec := 24, emax := 127, rounding := .nearestEven }

/-- IEEE 754 binary64, round to nearest even: the other format R144 reports on. -/
def binary64 : FloatFormat := { prec := 53, emax := 1023, rounding := .nearestEven }

/-- The parameters at the model's reset. -/
def paramsDefault : Params := { ktab := ktabDefault, ktabFloat := ktabFloatReset, float := binary32 }

/-- The 176-bit entry: bias in bits 175:160, zeros in 159:149, shift in 148:144, weight j in 16j+15:16j (R103). -/
def Kernel.pack (k : Kernel) : BitVec 176 :=
  k.bias ++ 0#11 ++ k.shift ++ k.w.p22 ++ k.w.p21 ++ k.w.p20 ++ k.w.p12 ++ k.w.p11 ++ k.w.p10
    ++ k.w.p02 ++ k.w.p01 ++ k.w.p00

/-- The entry that 176 bits hold (R103); bits 159:149 are ignored. -/
def Kernel.unpack (b : BitVec 176) : Kernel :=
  { w := ⟨b.extractLsb' 0 16, b.extractLsb' 16 16, b.extractLsb' 32 16, b.extractLsb' 48 16, b.extractLsb' 64 16,
          b.extractLsb' 80 16, b.extractLsb' 96 16, b.extractLsb' 112 16, b.extractLsb' 128 16⟩,
    shift := b.extractLsb' 144 5, bias := b.extractLsb' 160 16 }

/-- The eleven slots of a float entry in their order: nine weights, scale, bias (R104). -/
def FloatKernel.slots (k : FloatKernel) : List Flt := k.w.toList ++ [k.scale, k.bias]

/-- The value of a binary32 bit pattern, the slot format of R104 when FLOAT is binary32; the layout is IEEE 754's.
PRESUMED (log 27). -/
def Flt.ofBinary32 (b : BitVec 32) : Flt :=
  let expo := (b.extractLsb' 23 8).toNat
  let frac := (b.extractLsb' 0 23).toNat
  let sign : Int := if b.getLsbD 31 then -1 else 1
  if expo = 255 then (if frac ≠ 0 then .nan else if b.getLsbD 31 then .negInf else .posInf)
  else if expo = 0 then .finite (sign * frac) (-149)
  else .finite (sign * (2 ^ 23 + frac : Nat)) ((expo : Int) - 150)

/-- The float entry that 352 bits hold when FLOAT is binary32. R104 gives the order of the slots and no bit positions:
slot j stands in bits 32j+31:32j, as R103 packs the fixed entry. DESIGN CHOICE (log 25). -/
def FloatKernel.unpack (b : BitVec 352) : FloatKernel :=
  let slot (j : Nat) : Flt := Flt.ofBinary32 (b.extractLsb' (32 * j) 32)
  { w := ⟨slot 0, slot 1, slot 2, slot 3, slot 4, slot 5, slot 6, slot 7, slot 8⟩, scale := slot 9, bias := slot 10 }

/-- A slot value is finite, as R104 demands of every one. -/
def Flt.isFinite : Flt → Bool
  | .finite _ _ => true
  | .posInf => false
  | .negInf => false
  | .nan => false

/-- Every slot of every entry is finite (R104, R167). -/
def KernelTable.allFinite (t : KernelTable FloatKernel) : Bool :=
  [t.blur, t.sharpen, t.gaussian, t.sobelX, t.sobelY].all fun k => k.slots.all Flt.isFinite

end Sys2Proof
end

