-- ==== Sys2Proof/Machine/State.lean ====
section
/-!
DEFINITION. The machine's state as plain data: everything R20 and R47 list, the ports of R94, the parameters of R7,
and the environment's inputs (R263) as lists the step reads. Also the three outcomes' reasons (R17) and the reset
state, which is the launch state of R47 and R270.
-/
namespace Sys2Proof.Machine

/-- The bytes of one buffer (R62, R63): listed cells, rising offsets; an unlisted byte reads 0 (R27). -/
abbrev Store := List Host.Cell

/-- A buffer record (R26): element type, width, height, owner tag, store. -/
structure Buffer where
  elem : ElemType
  width : BitVec 16
  height : BitVec 16
  owner : OwnerTag
  data : Store
deriving DecidableEq, Repr

/-- The frame-buffer store (R25): live handles in rising order, each with its record. -/
abbrev Memory := List (Nat × Buffer)

/-- The phase sequencer's values (R36); 5 to 7 never occur. -/
inductive Phase where
  | idle
  | output
  | filter
  | convert
  | input
deriving DecidableEq, Repr

/-- The operand ports of R94. -/
structure Ports where
  h0 : Nat
  h1 : Nat
  x : BitVec 32
  y : BitVec 32
  v : BitVec 24
  dw : BitVec 16
  dh : BitVec 16
deriving DecidableEq, Repr

/-- What the host does at one boundary (R263): nothing, a command with its operands (R92, R94), a launch (R270), a
read or a write of a control register (R81). The model's own type. -/
inductive HostInput where
  | idle
  | command (cmd : BitVec 8) (ports : Ports)
  | launch (ctrl : BitVec 8) (pending : List Ident)
  | readCR (n : Nat)
  | writeCR (n : Nat) (v : BitVec 32)
deriving DecidableEq, Repr

/-- One oracle call as it was made and answered (R258 to R260). The model's own record. -/
inductive OracleCall where
  | allocOk (t : ElemType) (w h : Nat) (answer : Bool)
  | decode (id : Ident) (answer : DecodeAnswer)
  | encode (id : Nat) (w h : Nat) (grid : List Byte) (answer : EncodeAnswer)
deriving DecidableEq, Repr

/-- The environment (R44): the answers the oracles will give, soonest first, and the calls made so far, oldest first.
Where a list is empty the answer is a free value of `Config`. The model's own record. -/
structure Environment where
  allocs : List Bool
  decodes : List DecodeAnswer
  encodes : List EncodeAnswer
  calls : List OracleCall
deriving DecidableEq, Repr

/-- The state of the machine. -/
structure State where
  /-- pipeline register RAW (R21), EMPTY or a handle -/
  raw : Option Nat
  /-- pipeline register GRAY (R21) -/
  gray : Option Nat
  /-- pipeline register PROC (R21) -/
  proc : Option Nat
  /-- ping-pong slot PP.SRC (R41) -/
  ppSrc : Option Nat
  /-- ping-pong slot PP.DST (R41) -/
  ppDst : Option Nat
  /-- CSC.OUT (R42) -/
  cscOut : Option Nat
  /-- the frame-buffer store (R25) -/
  mem : Memory
  /-- NEXT_HANDLE (R49) -/
  nextHandle : Nat
  /-- CR0 (R31) -/
  ctrl : BitVec 8
  /-- CR1 (R32) -/
  status : BitVec 8
  /-- CR2 (R33) -/
  inCursor : BitVec 32
  /-- CR3 (R34) -/
  outCursor : BitVec 32
  /-- CR4 (R35) -/
  total : BitVec 32
  /-- CR5 (R36) -/
  phase : Phase
  /-- CR6 (R37) -/
  tick : BitVec 32
  /-- PENDING (R38), launch configuration -/
  pending : List Ident
  /-- a run is active (R92) -/
  running : Bool
  /-- KTAB, KTAB_FLOAT and FLOAT (R7), configuration -/
  params : Params
  /-- the operand ports (R94) -/
  ports : Ports
  /-- result port RH (R94) -/
  rh : Nat
  /-- result port RV (R94) -/
  rv : BitVec 24
  /-- result port RC (R94) -/
  rc : BitVec 3
  /-- what the last control-register read gave (R81) -/
  crData : BitVec 32
  /-- the host's inputs to come, soonest first (model's own) -/
  host : List HostInput
  /-- the oracles (model's own) -/
  env : Environment
deriving DecidableEq, Repr

/-- The one fault (R17, R244). -/
inductive Fault where
  /-- AllocationError: the allocator answered no to FB.CREATE, ACT.FILTER, ACT.CONVERT or ACT.INPUT (R243). The
  machine stops for good. `aborted` is the state at the failing request with STATUS.FATAL and RC = 1 set; the spec
  lets nothing be concluded from it but FATAL and the frames already encoded (R244; log 10). Safe: it is no next state. -/
  | allocationError (aborted : State)
deriving DecidableEq, Repr

/-- Why an operation gets no step: it is outside the domain the spec gives a meaning to (R13, R17, U1 to U11). -/
inductive Refusal where
  /-- `exec`: the instruction has no meaning in the model yet. Safe. -/
  | notModelled (mnemonic : String)
  /-- the command port: a reserved command byte (R106, U1). Safe. -/
  | reservedCommand (cmd : BitVec 8)
  /-- FB.CREATE with W = 0 or H = 0 (R120, U2). Safe. -/
  | zeroDimension
  /-- any operation given a handle that is not live (R123, R127, U3). Safe. -/
  | deadHandle (h : Nat)
  /-- a command-port operation on a buffer the host does not own (R127, U6). Safe. -/
  | notHostOwned (h : Nat)
  /-- FB.MOVE, FB.CREATE or ACT.INPUT onto an occupied register or slot (R124, R128, U4). Safe. -/
  | holderOccupied (o : OwnerTag)
  /-- FB.MOVE to the owner tag FREE (R124, U4). Safe. -/
  | freeDestination
  /-- FB.MOVE, CSC.CONVERT, CONV.* or SOBEL.MAG on a buffer of the wrong element type (R124, R147, R168). Safe. -/
  | wrongElementType (h : Nat)
  /-- PP.SWAP, or a pass of the chain, with an EMPTY slot (R125, U5). Safe. -/
  | emptySlot
  /-- CONV.* or SOBEL.MAG with input and output the same buffer (R168, U8). Safe. -/
  | sameBuffer
  /-- CONV.* or SOBEL.MAG with unequal dimensions (R168, U8). Safe. -/
  | unequalDimensions
  /-- a command or a launch while a run is active (R92, R31, U9, U10). Safe. -/
  | runActive
  /-- a command after STATUS.FATAL (R92, U10). Safe. -/
  | afterFatal
  /-- RUN when STATUS.DONE is 1 (R207, U10). Safe. -/
  | runFinished
  /-- ACT.INPUT: Decode answered a grid outside every rule (R258, U11). Safe. -/
  | badGrid
  /-- ACT.INPUT: IN_CURSOR names no pending identifier, which IN_CURSOR < TOTAL ≤ N rules out (R33). Safe. -/
  | noPendingIdentifier
  /-- a read of a control register number above 6 (R81, U9). Safe. -/
  | noSuchRegister (n : Nat)
  /-- a write of a control register other than by a launch (R81, U9). Safe. -/
  | registerWrite (n : Nat)
  /-- a launch with 2^32 identifiers or more (R38, R273 P6). Safe. -/
  | tooManyIdentifiers
deriving DecidableEq, Repr

/-- The outcome of an operation on this machine (R17). -/
abbrev Result := Host.Outcome State Fault Refusal

/-- Operand ports with every port 0: what the model's reset presents. DESIGN CHOICE (log 5). -/
def Ports.zero : Ports := { h0 := 0, h1 := 0, x := 0, y := 0, v := 0, dw := 0, dh := 0 }

/-- The environment of the model's reset: no answer listed, so every answer is a free value; no call made (log 7). -/
def Environment.start : Environment := { allocs := [], decodes := [], encodes := [], calls := [] }

/-- The machine right after reset: the launch state of R47 and R270 for CTRL = 0x07 and an empty PENDING list, which
are launch arguments. DESIGN CHOICE (logs 1, 3, 5, 6, 7) where the spec gives no value. -/
def State.reset : State :=
  { raw := none, gray := none, proc := none, ppSrc := none, ppDst := none, cscOut := none,
    mem := [], nextHandle := 0,
    ctrl := 0x07, status := 0, inCursor := 0, outCursor := 0, total := 0, phase := .idle, tick := 0,
    pending := [], running := false, params := paramsDefault,
    ports := Ports.zero, rh := 0, rv := 0, rc := 0, crData := 0,
    host := [], env := Environment.start }

end Sys2Proof.Machine
end

