-- ==== Sys2Proof/Machine/Float.lean ====
section
/-!
DEFINITION. The floating-point primitives of R10 for any binary format of the parameter FLOAT (R7): one correctly
rounded operation each, no fused multiply-add. A finite value is an exact number m * 2^e.
-/
namespace Sys2Proof.Machine

/-- The exponent of the format's smallest positive number: every finite value is a multiple of 2 to this power. -/
def floatQuantum (f : FloatFormat) : Int := 2 - (f.emax : Int) - (f.prec : Int)

/-- Whether the magnitude rounds up, given the kept part `q`, the dropped part `rem` of `d` bits, and the sign. -/
def roundsUp (r : Rounding) (neg : Bool) (q rem d : Nat) : Bool :=
  match r with
  | .nearestEven => decide (2 ^ (d - 1) < rem) || (decide (rem = 2 ^ (d - 1)) && decide (q % 2 = 1))
  | .nearestAway => decide (2 ^ (d - 1) ≤ rem)
  | .towardZero => false
  | .towardPositive => !neg && decide (0 < rem)
  | .towardNegative => neg && decide (0 < rem)

/-- What an overflowing result becomes: an infinity, or the largest finite value where the direction points inward. -/
def overflowed (f : FloatFormat) (neg : Bool) : Flt :=
  let big : Int := (2 ^ f.prec - 1 : Nat)
  let e : Int := (f.emax : Int) - (f.prec : Int) + 1
  match f.rounding, neg with
  | .nearestEven, false => .posInf
  | .nearestEven, true => .negInf
  | .nearestAway, false => .posInf
  | .nearestAway, true => .negInf
  | .towardZero, false => .finite big e
  | .towardZero, true => .finite (-big) e
  | .towardPositive, false => .posInf
  | .towardPositive, true => .finite (-big) e
  | .towardNegative, false => .finite big e
  | .towardNegative, true => .negInf

/-- How many low bits of a magnitude `a` at exponent `e` the format cannot keep; not positive when `a` fits. -/
def droppedBits (f : FloatFormat) (a : Nat) (e : Int) : Int :=
  max ((Nat.log2 a : Int) + 1 - (f.prec : Int)) (floatQuantum f - e)

/-- The format's value for the exact number m * 2^e: correctly rounded in the format's direction (R10). -/
def roundTo (f : FloatFormat) (m e : Int) : Flt :=
  let a := m.natAbs
  let neg := decide (m < 0)
  if a = 0 then .finite 0 0
  else
    let d := (droppedBits f a e).toNat
    let q := a / 2 ^ d
    let kept := if d ≠ 0 && roundsUp f.rounding neg q (a % 2 ^ d) d then q + 1 else q
    if kept ≠ 0 ∧ (f.emax : Int) < (Nat.log2 kept : Int) + (e + d) then overflowed f neg
    else .finite (if neg then -(kept : Int) else (kept : Int)) (e + d)

/-- `i2f(n)`: exact (R10). -/
def i2f (n : Int) : Flt := .finite n 0

/-- `fconst`: the format's value nearest the decimal constant num / den (R10): the quotient is taken with guard bits
and a sticky bit, then rounded once to nearest even. -/
def fconst (f : FloatFormat) (num den : Nat) : Flt :=
  let k := f.prec + 3 + Nat.log2 den
  let q := num * 2 ^ k / den
  let sticky := if num * 2 ^ k % den = 0 then 0 else 1
  roundTo { f with rounding := .nearestEven } ((2 * q + sticky : Nat) : Int) (-(k : Int) - 1)

/-- `fmul(a, b)` (R10). -/
def fmul (f : FloatFormat) (a b : Flt) : Flt :=
  match a, b with
  | .finite m1 e1, .finite m2 e2 => roundTo f (m1 * m2) (e1 + e2)
  | .nan, _ => .nan
  | _, .nan => .nan
  | .finite m _, .posInf => if m = 0 then .nan else if 0 < m then .posInf else .negInf
  | .finite m _, .negInf => if m = 0 then .nan else if 0 < m then .negInf else .posInf
  | .posInf, .finite m _ => if m = 0 then .nan else if 0 < m then .posInf else .negInf
  | .negInf, .finite m _ => if m = 0 then .nan else if 0 < m then .negInf else .posInf
  | .posInf, .posInf => .posInf
  | .posInf, .negInf => .negInf
  | .negInf, .posInf => .negInf
  | .negInf, .negInf => .posInf

/-- `fadd(a, b)` (R10). -/
def fadd (f : FloatFormat) (a b : Flt) : Flt :=
  match a, b with
  | .finite m1 e1, .finite m2 e2 =>
    let e := min e1 e2
    roundTo f (m1 * 2 ^ (e1 - e).toNat + m2 * 2 ^ (e2 - e).toNat) e
  | .nan, _ => .nan
  | _, .nan => .nan
  | .finite _ _, .posInf => .posInf
  | .finite _ _, .negInf => .negInf
  | .posInf, .finite _ _ => .posInf
  | .negInf, .finite _ _ => .negInf
  | .posInf, .posInf => .posInf
  | .negInf, .negInf => .negInf
  | .posInf, .negInf => .nan
  | .negInf, .posInf => .nan

/-- `fabs(a)`: the sign cleared, exact (R10). -/
def fabs (a : Flt) : Flt :=
  match a with
  | .finite m e => .finite (m.natAbs : Int) e
  | .posInf => .posInf
  | .negInf => .posInf
  | .nan => .nan

/-- Whether the finite value m * 2^e is above 255. -/
def above255 (m e : Int) : Bool := decide (255 * 2 ^ (-e).toNat < m * 2 ^ e.toNat)

/-- `fclamp(a, 0, 255)`: exact (R10). Both comparisons are false of a NaN, which stays. -/
def fclamp (a : Flt) : Flt :=
  match a with
  | .finite m e => if m < 0 then .finite 0 0 else if above255 m e then .finite 255 0 else .finite m e
  | .posInf => .finite 255 0
  | .negInf => .finite 0 0
  | .nan => .nan

/-- `f2u8(a) = u8(trunc(a))` for 0 ≤ a ≤ 255 (R10); `free` is the byte for a NaN, of which the rule says nothing. -/
def f2u8 (free : Byte) (a : Flt) : Byte :=
  match a with
  | .finite m e => BitVec.ofNat 8 ((m * 2 ^ e.toNat) / 2 ^ (-e).toNat).toNat
  | .posInf => free
  | .negInf => free
  | .nan => free

end Sys2Proof.Machine
end

