-- ==== Sys2Proof/Machine/Flags.lean ====
section
/-!
DEFINITION. The flag bits: CTRL (R31, R100), STATUS (R32, R101), PHASE and DEC_CAUSE codes (R36, R99, R102), and the
control-register read-out (R81). The core has no arithmetic flags (R39).
-/
namespace Sys2Proof.Machine

/-- CTRL.EN_GAUSS, bit 0 (R31). -/
def State.enGauss (s : State) : Bool := s.ctrl.getLsbD 0

/-- CTRL.EN_SHARP, bit 1 (R31). -/
def State.enSharp (s : State) : Bool := s.ctrl.getLsbD 1

/-- CTRL.EN_SOBEL, bit 2 (R31). -/
def State.enSobel (s : State) : Bool := s.ctrl.getLsbD 2

/-- CTRL.MODE, bit 3: true is FLOAT, false is FIXED (R31). -/
def State.modeFloat (s : State) : Bool := s.ctrl.getLsbD 3

/-- CTRL as a launch stores it: bits 7:4 are reserved and read 0 (R31). DEDUCED (log 15). -/
def ctrlStored (c : BitVec 8) : BitVec 8 := c &&& 0x0F#8

/-- STATUS.DONE, bit 0 (R32). -/
def State.done (s : State) : Bool := s.status.getLsbD 0

/-- STATUS.FATAL, bit 1 (R32). -/
def State.fatal (s : State) : Bool := s.status.getLsbD 1

/-- STATUS.DEC_FAIL, bit 2 (R32). -/
def State.decFail (s : State) : Bool := s.status.getLsbD 2

/-- STATUS.DEC_CAUSE, bits 5:3 (R32). -/
def State.decCause (s : State) : BitVec 3 := s.status.extractLsb' 3 3

/-- STATUS.DIM_MISMATCH, bit 6 (R32). -/
def State.dimMismatch (s : State) : Bool := s.status.getLsbD 6

/-- STATUS.ENC_ERR, bit 7 (R32). -/
def State.encErr (s : State) : Bool := s.status.getLsbD 7

/-- STATUS with DONE set (R207). -/
def statusDone (st : BitVec 8) : BitVec 8 := st ||| 0x01#8

/-- STATUS with FATAL set (R244). -/
def statusFatal (st : BitVec 8) : BitVec 8 := st ||| 0x02#8

/-- The code of a decode error (R102, R245). -/
def causeCode : DecodeError → BitVec 3
  | .invalidFormat => 1
  | .resolutionExceeded => 2
  | .rowAlignmentViolation => 3
  | .unsupportedChannelDepth => 4

/-- STATUS with DEC_FAIL set and DEC_CAUSE written (R246). -/
def statusDecFail (st : BitVec 8) (cause : BitVec 3) : BitVec 8 :=
  (st &&& 0xC7#8) ||| 0x04#8 ||| (cause.setWidth 8 <<< 3)

/-- STATUS with DIM_MISMATCH set (R247). -/
def statusDimMismatch (st : BitVec 8) : BitVec 8 := st ||| 0x40#8

/-- STATUS with ENC_ERR set (R248). -/
def statusEncErr (st : BitVec 8) : BitVec 8 := st ||| 0x80#8

/-- The condition codes of the RC port (R240). -/
def codeNone : BitVec 3 := 0
/-- AllocationError (R240). -/
def codeAllocation : BitVec 3 := 1
/-- DecodeFailure (R240). -/
def codeDecodeFailure : BitVec 3 := 2
/-- DimensionMismatch (R240). -/
def codeDimensionMismatch : BitVec 3 := 3
/-- EncodeIOError (R240). -/
def codeEncodeIOError : BitVec 3 := 4

/-- The 3-bit code PHASE holds: the action number plus 1, 0 for IDLE (R36, R99). -/
def Phase.code : Phase → BitVec 3
  | .idle => 0
  | .output => 1
  | .filter => 2
  | .convert => 3
  | .input => 4

/-- The value a read of control register `n` gives, zero-extended to 32 bits; none above 6 (R30, R81). -/
def State.readCR (s : State) (n : Nat) : Option (BitVec 32) :=
  match n with
  | 0 => some (s.ctrl.setWidth 32)
  | 1 => some (s.status.setWidth 32)
  | 2 => some s.inCursor
  | 3 => some s.outCursor
  | 4 => some s.total
  | 5 => some (s.phase.code.setWidth 32)
  | 6 => some s.tick
  | _ => none

end Sys2Proof.Machine
end

