-- ==== Sys2Proof/Machine/Operands.lean ====
section
/-!
DEFINITION. Operand assembly (R94, R108), element packing (R105), and the integer arithmetic of R9.
-/
namespace Sys2Proof.Machine

/-- `asr(v, n)` of R9: ⌊v / 2^n⌋, rounding toward negative infinity. -/
def asr (v : Int) (n : Nat) : Int := v / (2 ^ n : Int)

/-- `u8(clamp(v, 0, 255))` of R9. -/
def clampU8 (v : Int) : Byte :=
  if v < 0 then 0#8 else if 255 < v then 255#8 else BitVec.ofNat 8 v.toNat

/-- A u8 as an integer: `zext` of R108. -/
def byteInt (b : Byte) : Int := (b.toNat : Int)

/-- An RGB value on the V and RV ports: R in bits 23:16, G in 15:8, B in 7:0 (R94, R105). -/
def packPixel (p : Pixel) : BitVec 24 := p.r ++ p.g ++ p.b

/-- The RGB value the V port presents (R94). -/
def unpackPixel (v : BitVec 24) : Pixel :=
  { r := v.extractLsb' 16 8, g := v.extractLsb' 8 8, b := v.extractLsb' 0 8 }

/-- The GRAY value the V port presents: V[7:0], the rest ignored (R94). -/
def grayOfPort (v : BitVec 24) : Byte := v.extractLsb' 0 8

/-- The X port as an s32 coordinate (R94, R108). -/
def Ports.xInt (p : Ports) : Int := p.x.toInt

/-- The Y port as an s32 coordinate (R94, R108). -/
def Ports.yInt (p : Ports) : Int := p.y.toInt

/-- The element positions of a `w`×`h` buffer in raster order, y outer and x inner (R140, D30). -/
def raster (w h : Nat) : List (Nat × Nat) :=
  (List.range h).flatMap fun y => (List.range w).map fun x => (x, y)

/-- The interior positions 1 ≤ x ≤ W−2, 1 ≤ y ≤ H−2 in raster order; none when W < 3 or H < 3 (R169, R178). -/
def interior (w h : Nat) : List (Nat × Nat) :=
  (List.range' 1 (h - 2)).flatMap fun y => (List.range' 1 (w - 2)).map fun x => (x, y)

end Sys2Proof.Machine
end

