-- ==== Sys2Proof/Machine/Ops.lean ====
section
/-!
DEFINITION. The named operations every meaning is written over: outcomes in sequence, bytes of a store, elements of
a buffer with the bounds rule, the frame-buffer store, the holders of owner tags, the conditions of R240, the oracle
draws, and the acceptance rule of the command port.
-/
namespace Sys2Proof.Machine

/-- Run `k` on the next state of `r`; a fault or a refusal ends the sequence there (R17, R251). -/
def bindNext (r : Result) (k : State → Result) : Result :=
  match r with
  | .next s => k s
  | .fault f => .fault f
  | .refused q => .refused q

/-! ### Bytes of a store (R12, R62, R63) -/

/-- The byte at an offset; an unlisted offset reads 0 (R27; log 20). -/
def Store.read (m : Store) (a : Nat) : Byte :=
  match m with
  | [] => 0#8
  | c :: r => if c.1 = a then c.2 else Store.read r a

/-- Write one byte, keeping the list rising and free of zero bytes. -/
def Store.write (m : Store) (a : Nat) (v : Byte) : Store :=
  match m with
  | [] => if v = 0#8 then [] else [(a, v)]
  | c :: r =>
    if a < c.1 then (if v = 0#8 then c :: r else (a, v) :: c :: r)
    else if a = c.1 then (if v = 0#8 then r else (a, v) :: r)
    else c :: Store.write r a v

/-- The cells of consecutive bytes from offset `a` on. -/
def Store.ofBytes (a : Nat) (bytes : List Byte) : Store :=
  match bytes with
  | [] => []
  | b :: r => if b = 0#8 then Store.ofBytes (a + 1) r else (a, b) :: Store.ofBytes (a + 1) r

/-- The offsets rise strictly and no listed byte is 0: one list per content. -/
def Store.canonical (m : Store) : Bool :=
  match m with
  | [] => true
  | c :: r => (c.2 != 0#8) && r.all (fun d => decide (c.1 < d.1)) && Store.canonical r

/-! ### Elements of a buffer (R61 to R66) -/

/-- size(T): bytes of one element (R63). -/
def elemSize : ElemType → Nat
  | .gray => 1
  | .rgb => 3

/-- The number of bytes of a buffer's store (R63). -/
def Buffer.bytes (b : Buffer) : Nat := b.width.toNat * b.height.toNat * elemSize b.elem

/-- (x, y) is in [0, W) × [0, H) (R64). -/
def Buffer.inRange (b : Buffer) (x y : Int) : Bool :=
  decide (0 ≤ x) && decide (x < b.width.toNat) && decide (0 ≤ y) && decide (y < b.height.toNat)

/-- The element index y·W + x (R61). -/
def Buffer.index (b : Buffer) (x y : Int) : Nat := y.toNat * b.width.toNat + x.toNat

/-- Get on a GRAY buffer: 0 out of range (R64). -/
def Buffer.getGray (b : Buffer) (x y : Int) : Byte :=
  if b.inRange x y then Store.read b.data (b.index x y) else 0#8

/-- Get on an RGB buffer: (0,0,0) out of range (R62, R64). -/
def Buffer.getRgb (b : Buffer) (x y : Int) : Pixel :=
  if b.inRange x y then
    { r := Store.read b.data (3 * b.index x y), g := Store.read b.data (3 * b.index x y + 1),
      b := Store.read b.data (3 * b.index x y + 2) }
  else { r := 0#8, g := 0#8, b := 0#8 }

/-- Set on a GRAY buffer: nothing out of range (R65). -/
def Buffer.setGray (b : Buffer) (x y : Int) (v : Byte) : Buffer :=
  if b.inRange x y then { b with data := Store.write b.data (b.index x y) v } else b

/-- Set on an RGB buffer: nothing out of range (R62, R65). -/
def Buffer.setRgb (b : Buffer) (x y : Int) (p : Pixel) : Buffer :=
  if b.inRange x y then
    { b with data := Store.write (Store.write (Store.write b.data (3 * b.index x y) p.r)
                       (3 * b.index x y + 1) p.g) (3 * b.index x y + 2) p.b }
  else b

/-- Get as the RV port shows it: GRAY zero-extended, RGB as R, G, B (R64, R94). -/
def Buffer.getPort (b : Buffer) (x y : Int) : BitVec 24 :=
  match b.elem with
  | .gray => (b.getGray x y).setWidth 24
  | .rgb => packPixel (b.getRgb x y)

/-- Set from the V port, in the buffer's element type (R65, R94). -/
def Buffer.setPort (b : Buffer) (x y : Int) (v : BitVec 24) : Buffer :=
  match b.elem with
  | .gray => b.setGray x y (grayOfPort v)
  | .rgb => b.setRgb x y (unpackPixel v)

/-- Set the gray element at each listed position to the value `f` gives there, in list order. -/
def Buffer.paint (b : Buffer) (at_ : List (Nat × Nat)) (f : Nat → Nat → Byte) : Buffer :=
  at_.foldl (fun d p => d.setGray p.1 p.2 (f p.1 p.2)) b

/-- A GRAY buffer's content in row-major order: what Encode is shown (R202, R259). -/
def Buffer.grid (b : Buffer) : List Byte :=
  (raster b.width.toNat b.height.toNat).map fun p => b.getGray p.1 p.2

/-- A fresh buffer: every element the zero value (R27, R120). -/
def Buffer.fresh (t : ElemType) (w h : BitVec 16) (owner : OwnerTag) : Buffer :=
  { elem := t, width := w, height := h, owner := owner, data := [] }

/-- The bytes of an RGB pixel list, R, G, B per pixel (R62). -/
def pixelBytes (px : List Pixel) : List Byte := px.flatMap fun p => [p.r, p.g, p.b]

/-- The buffer Decode hands over, owned by RAW (R205). -/
def Buffer.decoded (w h : BitVec 16) (px : List Pixel) : Buffer :=
  { elem := .rgb, width := w, height := h, owner := .raw, data := Store.ofBytes 0 (pixelBytes px) }

/-- A record as the model keeps it: positive dimensions, a real owner, a canonical store inside R63's offsets. -/
def Buffer.wf (b : Buffer) : Bool :=
  (b.width != 0#16) && (b.height != 0#16) && (b.owner != .free) && Store.canonical b.data
    && b.data.all (fun c => decide (c.1 < b.bytes))

/-! ### The frame-buffer store (R25, R29) -/

/-- The record of a live handle; none for a dead one. -/
def Memory.find (m : Memory) (h : Nat) : Option Buffer :=
  match m with
  | [] => none
  | e :: r => if e.1 = h then some e.2 else Memory.find r h

/-- Make `h` live with this record, or replace its record. -/
def Memory.put (m : Memory) (h : Nat) (b : Buffer) : Memory :=
  match m with
  | [] => [(h, b)]
  | e :: r => if h < e.1 then (h, b) :: e :: r else if h = e.1 then (h, b) :: r else e :: Memory.put r h b

/-- Make `h` dead. -/
def Memory.remove (m : Memory) (h : Nat) : Memory :=
  match m with
  | [] => []
  | e :: r => if e.1 = h then r else e :: Memory.remove r h

/-- Handles rise strictly and every record is well formed: one list per content. -/
def Memory.wf (m : Memory) : Bool :=
  match m with
  | [] => true
  | e :: r => e.2.wf && r.all (fun d => decide (e.1 < d.1)) && Memory.wf r

/-- The state with record `b` at handle `h`. -/
def State.putBuffer (s : State) (h : Nat) (b : Buffer) : State := { s with mem := s.mem.put h b }

/-- Continue with the record of a live handle; a dead handle is refused (R127, U3). -/
def withBuffer (s : State) (h : Nat) (k : Buffer → Result) : Result :=
  match s.mem.find h with
  | none => .refused (.deadHandle h)
  | some b => k b

/-! ### Holders (R124) -/

/-- holder(o): what the register or slot of owner tag `o` names; HOST and FREE have no holder. -/
def State.holder (s : State) (o : OwnerTag) : Option Nat :=
  match o with
  | .free => none
  | .raw => s.raw
  | .gray => s.gray
  | .proc => s.proc
  | .ppSrc => s.ppSrc
  | .ppDst => s.ppDst
  | .cscOut => s.cscOut
  | .host => none

/-- holder(o) <- v; nothing for HOST and FREE. -/
def State.setHolder (s : State) (o : OwnerTag) (v : Option Nat) : State :=
  match o with
  | .free => s
  | .raw => { s with raw := v }
  | .gray => { s with gray := v }
  | .proc => { s with proc := v }
  | .ppSrc => { s with ppSrc := v }
  | .ppDst => { s with ppDst := v }
  | .cscOut => { s with cscOut := v }
  | .host => s

/-- REG[r] (R11, R21): EMPTY, or the handle the pipeline register names. -/
def State.reg (s : State) (r : PipeReg) : Option Nat :=
  match r with
  | .raw => s.raw
  | .gray => s.gray
  | .proc => s.proc

/-- The register with number `n`, for the model and the status read-out (R98): its contents, and none for the reserved
number 3. -/
def State.regAt (s : State) (n : BitVec 2) : Option (Option Nat) := (regOfNumber n).map s.reg

/-- The element type a holder accepts: RGB in RAW, GRAY in the others, any for HOST (R22, R124). -/
def acceptsType (o : OwnerTag) (t : ElemType) : Bool :=
  match o with
  | .raw => t == .rgb
  | .gray => t == .gray
  | .proc => t == .gray
  | .ppSrc => t == .gray
  | .ppDst => t == .gray
  | .cscOut => t == .gray
  | .host => true
  | .free => true

/-! ### Conditions (R240 to R251) -/

/-- raise AllocationError: the fatal abort, with STATUS.FATAL and RC = 1 in the aborted state (R244). -/
def raiseAllocation (s : State) : Result :=
  .fault (.allocationError { s with status := statusFatal s.status, rc := codeAllocation })

/-- raise DecodeFailure(cause): STATUS bits, RC = 2, TOTAL truncated (R205, R246). -/
def raiseDecodeFailure (s : State) (cause : DecodeError) : State :=
  { s with status := statusDecFail s.status (causeCode cause), rc := codeDecodeFailure, total := s.inCursor }

/-- raise DimensionMismatch: STATUS bit, RC = 3 (R247). -/
def raiseDimensionMismatch (s : State) : State :=
  { s with status := statusDimMismatch s.status, rc := codeDimensionMismatch }

/-- raise EncodeIOError: STATUS bit, RC = 4 (R248). -/
def raiseEncodeIOError (s : State) : State :=
  { s with status := statusEncErr s.status, rc := codeEncodeIOError }

/-! ### Oracle draws (R13, R258 to R260): an answer, and the state after the call -/

/-- AllocOk's answer to a request made now: the next listed one, else the free value (R260, U12). -/
def State.allocAnswer (s : State) (t : ElemType) (w h : Nat) : Bool :=
  match s.env.allocs with
  | a :: _ => a
  | [] => Config.allocAnswer s.env.calls.length t w h

/-- The state after an AllocOk draw: the answer consumed, the call recorded. -/
def State.afterAlloc (s : State) (t : ElemType) (w h : Nat) : State :=
  { s with env := { s.env with allocs := s.env.allocs.tail,
                               calls := s.env.calls ++ [.allocOk t w h (s.allocAnswer t w h)] } }

/-- Decode's answer to a call made now (R258, U14). -/
def State.decodeAnswer (s : State) (id : Ident) : DecodeAnswer :=
  match s.env.decodes with
  | a :: _ => a
  | [] => Config.decodeAnswer s.env.calls.length id

/-- The state after a Decode draw. -/
def State.afterDecode (s : State) (id : Ident) : State :=
  { s with env := { s.env with decodes := s.env.decodes.tail,
                               calls := s.env.calls ++ [.decode id (s.decodeAnswer id)] } }

/-- Encode's answer to a call made now with frame `b` (R259, U14). -/
def State.encodeAnswer (s : State) (id : Nat) (b : Buffer) : EncodeAnswer :=
  match s.env.encodes with
  | a :: _ => a
  | [] => Config.encodeAnswer s.env.calls.length id b.width.toNat b.height.toNat b.grid

/-- The state after an Encode draw on buffer `b`: the frame handed over stands in the record of calls. -/
def State.afterEncode (s : State) (id : Nat) (b : Buffer) : State :=
  { s with env := { s.env with encodes := s.env.encodes.tail,
                               calls := s.env.calls ++ [.encode id b.width.toNat b.height.toNat b.grid
                                                          (s.encodeAnswer id b)] } }

/-- The code of the condition an answered call raises, if it raises one (R240). -/
def OracleCall.code (c : OracleCall) : Option (BitVec 3) :=
  match c with
  | .allocOk _ _ _ true => none
  | .allocOk _ _ _ false => some codeAllocation
  | .decode _ (.grid _ _ _) => none
  | .decode _ (.error _) => some codeDecodeFailure
  | .encode _ _ _ _ .success => none
  | .encode _ _ _ _ .ioError => some codeEncodeIOError

/-- The codes of the conditions raised by the calls after the first `n`, in their order (R240, R250). -/
def State.raisedAfter (s : State) (n : Nat) : List (BitVec 3) := (s.env.calls.drop n).filterMap OracleCall.code

/-! ### The command port (R92, R127) -/

/-- The state of an accepted command: no condition on RC yet (R94, R240). -/
def State.accepted (s : State) : State := { s with rc := codeNone }

/-- Accept a command other than RUN: refused while a run is active or after FATAL (R92, U10); RC starts at 0 (R94). -/
def onPort (s : State) (f : State → Result) : Result :=
  if s.running then .refused .runActive
  else if s.fatal then .refused .afterFatal
  else f s.accepted

/-- An operand buffer of a command: live, and owned by HOST (R127, U3, U6). -/
def withHostBuffer (s : State) (h : Nat) (k : Buffer → Result) : Result :=
  withBuffer s h fun b => if b.owner = .host then k b else .refused (.notHostOwned h)

end Sys2Proof.Machine
end

