-- ==== Sys2Proof/Machine/Parameters.lean ====
section
/-!
DEFINITION. The values this hardware takes for the parameters of R7 that have one value.
-/
namespace Sys2Proof

/-- The column "value" of R7, for this hardware. DEDUCED (log 26). -/
def hardware : Hardware :=
  { chBits := 8, kSize := 3, accBits := 32, lumaAccBits := 32,
    lumaCoef := { r := 77, g := 150, b := 29 }, lumaShift := 8,
    lumaCoefFloat := { r := 299, g := 587, b := 114 }, lumaCoefUnit := 1000,
    maxW := 1920, maxH := 1080, rowAlign := 4, nReg := 3, nKernel := 5,
    wBits := 16, hBits := 16, coordBits := 32, weightBits := 16, shiftBits := 5, biasBits := 16, cursorBits := 32 }

end Sys2Proof
end

