-- ==== Sys2Proof/Machine/ColorConvert.lean ====
section
/-!
DEFINITION. The colour-space converter (spec/41_color_convert.md): both luma datapaths and CSC.CONVERT.
-/
namespace Sys2Proof.Machine

/-- Fixed-point luma: asr(77r + 150g + 29b, 8), which needs no clamp (R142; the numbers are LUMA_COEF of R7). -/
def lumaFixed (p : Pixel) : Byte :=
  let k := hardware.lumaCoef
  BitVec.ofNat 8 (asr (k.r * byteInt p.r + k.g * byteInt p.g + k.b * byteInt p.b) hardware.lumaShift).toNat

/-- Floating-point luma: ((0.299r + 0.587g) + 0.114b), clamped, truncated (R143; LUMA_COEF of R7). -/
def lumaFloat (f : FloatFormat) (p : Pixel) : Byte :=
  let k := hardware.lumaCoefFloat
  let a := fmul f (fconst f k.r hardware.lumaCoefUnit) (i2f (byteInt p.r))
  let c := fmul f (fconst f k.g hardware.lumaCoefUnit) (i2f (byteInt p.g))
  let d := fmul f (fconst f k.b hardware.lumaCoefUnit) (i2f (byteInt p.b))
  f2u8 (Config.nanLuma f p) (fclamp (fadd f (fadd f a c) d))

/-- The luma of the active mode (R140, R148). -/
def lumaPixel (params : Params) (float : Bool) (p : Pixel) : Byte :=
  if float then lumaFloat params.float p else lumaFixed p

/-- CSC.CONVERT's two operands differ in width or in height (R141). -/
def dimsDiffer (a b : Buffer) : Bool := a.width != b.width || a.height != b.height

/-- The gray buffer CSC.CONVERT leaves: the luma of every pixel, border included (R140). -/
def convertBuffer (params : Params) (float : Bool) (rgb gray : Buffer) : Buffer :=
  gray.paint (raster rgb.width.toNat rgb.height.toNat) fun x y => lumaPixel params float (rgb.getRgb x y)

/-- CSC.CONVERT(hrgb, hgray) (R140, R141, R147). -/
def cscConvert (hrgb hgray : Nat) (s : State) : Result :=
  withBuffer s hrgb fun rgb => withBuffer s hgray fun gray =>
    if rgb.elem ≠ .rgb then .refused (.wrongElementType hrgb)
    else if gray.elem ≠ .gray then .refused (.wrongElementType hgray)
    else if dimsDiffer rgb gray then .next (raiseDimensionMismatch s)
    else .next (s.putBuffer hgray (convertBuffer s.params s.modeFloat rgb gray))

/-- CSC.CONVERT on the command port (R140, R127). -/
def execCscConvert (s : State) : Result :=
  onPort s fun s => withHostBuffer s s.ports.h0 fun _ => withHostBuffer s s.ports.h1 fun _ =>
    cscConvert s.ports.h0 s.ports.h1 s

end Sys2Proof.Machine
end

