-- ==== Sys2Proof/Machine/Convolution.lean ====
section
/-!
DEFINITION. The 3×3 convolution engine (spec/42_convolution.md) and the Sobel gradient-magnitude operator
(spec/43_sobel.md): neighbourhood, both datapaths of each, the shared operand rule and interior iteration, and the
six meanings.
-/
namespace Sys2Proof.Machine

/-- The nine pixels around (x, y): position [ky][kx] holds the pixel at (x + kx − 1, y + ky − 1), no flip (R170). -/
def neighbours (b : Buffer) (x y : Int) : Grid3 Byte :=
  { p00 := b.getGray (x - 1) (y - 1), p01 := b.getGray x (y - 1), p02 := b.getGray (x + 1) (y - 1),
    p10 := b.getGray (x - 1) y, p11 := b.getGray x y, p12 := b.getGray (x + 1) y,
    p20 := b.getGray (x - 1) (y + 1), p21 := b.getGray x (y + 1), p22 := b.getGray (x + 1) (y + 1) }

/-- Σ w[ky][kx] · p[ky][kx] in ℤ, which R180 shows to be what the s32 accumulator holds (R171, R191). DEDUCED
(log 21). -/
def weightedSum (w : Grid3 (BitVec 16)) (p : Grid3 Byte) : Int :=
  (w.toList.zip p.toList).foldl (fun acc wp => acc + wp.1.toInt * byteInt wp.2) 0

/-- The same sum in FLOAT, one rounded multiply and one rounded add per term, ky outer and kx inner (R172, R192). -/
def weightedSumFloat (f : FloatFormat) (w : Grid3 Flt) (p : Grid3 Byte) : Flt :=
  (w.toList.zip p.toList).foldl (fun acc wp => fadd f acc (fmul f wp.1 (i2f (byteInt wp.2)))) (i2f 0)

/-- Shift, bias and clamp of a fixed-point sum, in that order (R171). -/
def finishFixed (k : Kernel) (acc : Int) : Byte :=
  clampU8 ((if 0 < k.shift.toNat then asr acc k.shift.toNat else acc) + k.bias.toInt)

/-- conv_fixed (R171). -/
def convFixed (k : Kernel) (b : Buffer) (x y : Nat) : Byte :=
  finishFixed k (weightedSum k.w (neighbours b x y))

/-- conv_float: sum, scale, bias, clamp, truncate (R172). -/
def convFloat (f : FloatFormat) (k : FloatKernel) (b : Buffer) (x y : Nat) : Byte :=
  f2u8 (Config.nanPixel f [k] b.width.toNat b.height.toNat b.data x y)
    (fclamp (fadd f (fmul f (weightedSumFloat f k.w (neighbours b x y)) k.scale) k.bias))

/-- The pixel CONV.k writes at (x, y), in the active mode (R169). -/
def convPixel (params : Params) (float : Bool) (k : KernelId) (b : Buffer) (x y : Nat) : Byte :=
  if float then convFloat params.float (params.ktabFloat.entry k) b x y
  else convFixed (params.ktab.entry k) b x y

/-- sobel_fixed: min(|gx| + |gy|, 255); shift and bias of the entries unused (R191). -/
def sobelFixed (t : KernelTable Kernel) (b : Buffer) (x y : Nat) : Byte :=
  let gx := weightedSum t.sobelX.w (neighbours b x y)
  let gy := weightedSum t.sobelY.w (neighbours b x y)
  BitVec.ofNat 8 (min (gx.natAbs + gy.natAbs) 255)

/-- sobel_float (R192). -/
def sobelFloat (f : FloatFormat) (t : KernelTable FloatKernel) (b : Buffer) (x y : Nat) : Byte :=
  let gx := weightedSumFloat f t.sobelX.w (neighbours b x y)
  let gy := weightedSumFloat f t.sobelY.w (neighbours b x y)
  f2u8 (Config.nanPixel f [t.sobelX, t.sobelY] b.width.toNat b.height.toNat b.data x y)
    (fclamp (fadd f (fabs gx) (fabs gy)))

/-- The pixel SOBEL.MAG writes at (x, y), in the active mode (R190). -/
def sobelPixel (params : Params) (float : Bool) (b : Buffer) (x y : Nat) : Byte :=
  if float then sobelFloat params.float params.ktabFloat b x y else sobelFixed params.ktab b x y

/-- The output buffer of a convolution: the interior written, the border as it was (R169, R193). -/
def filterBuffer (pix : Buffer → Nat → Nat → Byte) (src dst : Buffer) : Buffer :=
  dst.paint (interior src.width.toNat src.height.toNat) (pix src)

/-- The operand rule of R168 and the interior iteration of R169, for the pixel function `pix`. -/
def convApply (pix : Buffer → Nat → Nat → Byte) (hin hout : Nat) (s : State) : Result :=
  withBuffer s hin fun src => withBuffer s hout fun dst =>
    if src.elem ≠ .gray then .refused (.wrongElementType hin)
    else if dst.elem ≠ .gray then .refused (.wrongElementType hout)
    else if hin = hout then .refused .sameBuffer
    else if src.width ≠ dst.width ∨ src.height ≠ dst.height then .refused .unequalDimensions
    else .next (s.putBuffer hout (filterBuffer pix src dst))

/-- CONV.k (R169): kernel and mode are read once per operation (R80, R148). -/
def convKernel (k : KernelId) (hin hout : Nat) (s : State) : Result :=
  convApply (convPixel s.params s.modeFloat k) hin hout s

/-- SOBEL.MAG (R190). -/
def sobelMag (hin hout : Nat) (s : State) : Result :=
  convApply (sobelPixel s.params s.modeFloat) hin hout s

/-- A two-buffer datapath operation on the command port: H0 in, H1 out, both HOST-owned (R94, R127). -/
def filterCommand (op : Nat → Nat → State → Result) (s : State) : Result :=
  onPort s fun s => withHostBuffer s s.ports.h0 fun _ => withHostBuffer s s.ports.h1 fun _ =>
    op s.ports.h0 s.ports.h1 s

/-- CONV.BLUR (R173). -/
def execConvBlur (s : State) : Result := filterCommand (convKernel .blur) s

/-- CONV.SHARPEN (R174). -/
def execConvSharpen (s : State) : Result := filterCommand (convKernel .sharpen) s

/-- CONV.GAUSSIAN (R175). -/
def execConvGaussian (s : State) : Result := filterCommand (convKernel .gaussian) s

/-- CONV.SOBELX (R176). -/
def execConvSobelX (s : State) : Result := filterCommand (convKernel .sobelX) s

/-- CONV.SOBELY (R177). -/
def execConvSobelY (s : State) : Result := filterCommand (convKernel .sobelY) s

/-- SOBEL.MAG on the command port (R190). -/
def execSobelMag (s : State) : Result := filterCommand sobelMag s

end Sys2Proof.Machine
end

