-- ==== Sys2Proof/Machine/FrameBuffer.lean ====
section
/-!
DEFINITION. The frame-buffer manager (spec/40_framebuffer.md): the operations as the Scheduler calls them, and their
meanings on the command port.
-/
namespace Sys2Proof.Machine

/-- The state in which a new buffer stands at NEXT_HANDLE and is held by its owner (R120, R205, R49). -/
def State.install (s : State) (b : Buffer) : State :=
  { (s.putBuffer s.nextHandle b).setHolder b.owner (some s.nextHandle) with nextHandle := s.nextHandle + 1 }

/-- FB.CREATE(t, W, H, owner) (R120). The new handle is NEXT_HANDLE of the state before. R120 refuses an occupied holder
without saying whether the allocator is asked first: the model refuses before the draw. DESIGN CHOICE (log 28). -/
def fbCreate (t : ElemType) (w h : BitVec 16) (owner : OwnerTag) (s : State) : Result :=
  if w = 0#16 ∨ h = 0#16 then .refused .zeroDimension
  else if s.holder owner ≠ none then .refused (.holderOccupied owner)
  else if s.allocAnswer t w.toNat h.toNat then
    .next ((s.afterAlloc t w.toNat h.toNat).install (Buffer.fresh t w h owner))
  else raiseAllocation (s.afterAlloc t w.toNat h.toNat)

/-- The state in which buffer `h`, with record `b`, has passed to owner `o`: the old holder cleared, the owner tag
written, the new holder set (R124). -/
def State.handTo (s : State) (h : Nat) (b : Buffer) (o : OwnerTag) : State :=
  ((s.setHolder b.owner none).putBuffer h { b with owner := o }).setHolder o (some h)

/-- The state in which `h` is dead; no holder changes (R123). -/
def State.removeBuffer (s : State) (h : Nat) : State := { s with mem := s.mem.remove h }

/-- The state in which the slots' buffers `a`, `b`, with records `ba`, `bb`, are exchanged (R125). -/
def State.exchange (s : State) (a b : Nat) (ba bb : Buffer) : State :=
  { ((s.putBuffer b { bb with owner := .ppSrc }).putBuffer a { ba with owner := .ppDst }) with
    ppSrc := some b, ppDst := some a }

/-- FB.DESTROY(h): the handle is dead from now on; holders are left to the caller (R123). -/
def fbDestroy (h : Nat) (s : State) : Result :=
  withBuffer s h fun _ => .next (s.removeBuffer h)

/-- FB.MOVE(h, o): ownership only, never contents (R124). -/
def fbMove (h : Nat) (o : OwnerTag) (s : State) : Result :=
  withBuffer s h fun b =>
    if o = .free then .refused .freeDestination
    else if acceptsType o b.elem = false then .refused (.wrongElementType h)
    else if s.holder o ≠ none then .refused (.holderOccupied o)
    else .next (s.handTo h b o)

/-- PP.SWAP(): the slots exchange their buffers and the buffers their owner tags (R125). -/
def ppSwap (s : State) : Result :=
  match s.ppSrc, s.ppDst with
  | some a, some b =>
    withBuffer s a fun ba => withBuffer s b fun bb =>
      .next (s.exchange a b ba bb)
  | none, _ => .refused .emptySlot
  | some _, none => .refused .emptySlot

/-- The state with handle `h` on RH (R94). -/
def State.giveHandle (s : State) (h : Nat) : State := { s with rh := h }

/-- The state with value `v` on RV (R94). -/
def State.giveValue (s : State) (v : BitVec 24) : State := { s with rv := v }

/-- FB.CREATE on the command port: owner HOST, the new handle on RH (R120, R92, R94). -/
def execFbCreate (t : ElemType) (s : State) : Result :=
  onPort s fun s => bindNext (fbCreate t s.ports.dw s.ports.dh .host s) fun s' => .next (s'.giveHandle s.nextHandle)

/-- FB.GET: the element, or the zero value out of range, on RV (R121). -/
def execFbGet (s : State) : Result :=
  onPort s fun s => withHostBuffer s s.ports.h0 fun b =>
    .next (s.giveValue (b.getPort s.ports.xInt s.ports.yInt))

/-- FB.SET: one element, nothing out of range (R122). -/
def execFbSet (s : State) : Result :=
  onPort s fun s => withHostBuffer s s.ports.h0 fun b =>
    .next (s.putBuffer s.ports.h0 (b.setPort s.ports.xInt s.ports.yInt s.ports.v))

/-- FB.DESTROY on the command port: a HOST buffer only (R123, R127). -/
def execFbDestroy (s : State) : Result :=
  onPort s fun s => withHostBuffer s s.ports.h0 fun _ => fbDestroy s.ports.h0 s

/-- FB.MOVE on the command port: a HOST buffer into an EMPTY register or slot, or any live buffer back to HOST
(R127). DEDUCED (log 19). -/
def execFbMove (o : OwnerTag) (s : State) : Result :=
  onPort s fun s => withBuffer s s.ports.h0 fun b =>
    if b.owner = .host ∨ o = .host then fbMove s.ports.h0 o s else .refused (.notHostOwned s.ports.h0)

/-- PP.SWAP on the command port (R125). -/
def execPpSwap (s : State) : Result :=
  onPort s ppSwap

end Sys2Proof.Machine
end

