-- ==== Sys2Proof/Machine/Scheduler.lean ====
section
/-!
DEFINITION. The pipeline scheduler (spec/44_scheduler.md): the four actions, TICK, RUN, and the launch (R270).
-/
namespace Sys2Proof.Machine

/-- The state after Encode has been given frame `b` under the output cursor: an IOError sets STATUS.ENC_ERR and the
action goes on (R202, R214, R248). -/
def State.handToEncoder (s : State) (b : Buffer) : State :=
  match s.encodeAnswer s.outCursor.toNat b with
  | .success => s.afterEncode s.outCursor.toNat b
  | .ioError => raiseEncodeIOError (s.afterEncode s.outCursor.toNat b)

/-- PROC cleared and the output cursor advanced (R202). -/
def State.countOutput (s : State) : State := { s with proc := none, outCursor := s.outCursor + 1 }

/-- ACT.OUTPUT (R202, R248): encode PROC, free it, clear the register, count it. -/
def actOutput (s : State) : Result :=
  match s.proc with
  | none => .next s
  | some h => withBuffer s h fun b =>
    bindNext (fbDestroy h (s.handToEncoder b)) fun s => .next s.countOutput

/-- One pass of the chain: `op` from PP.SRC to PP.DST, then PP.SWAP (R203). -/
def filterPass (op : Nat → Nat → State → Result) (s : State) : Result :=
  match s.ppSrc, s.ppDst with
  | some a, some b => bindNext (op a b s) ppSwap
  | none, _ => .refused .emptySlot
  | some _, none => .refused .emptySlot

/-- A pass that an enable bit may leave out (R203). -/
def filterPassIf (on : Bool) (op : Nat → Nat → State → Result) (s : State) : Result :=
  if on then filterPass op s else .next s

/-- The passes of the chain in their order: BLUR always, then GAUSSIAN, SHARPEN, SOBEL.MAG (R203, R208). -/
def filterPasses (s : State) : Result :=
  bindNext (filterPass (convKernel .blur) s) fun s =>
  bindNext (filterPassIf s.enGauss (convKernel .gaussian) s) fun s =>
  bindNext (filterPassIf s.enSharp (convKernel .sharpen) s) fun s =>
  filterPassIf s.enSobel sobelMag s

/-- FB.DESTROY(PP.DST); PP.DST <- EMPTY: the leftover scratch (R203). -/
def dropScratch (s : State) : Result :=
  match s.ppDst with
  | none => .refused .emptySlot
  | some h => bindNext (fbDestroy h s) fun s => .next (s.setHolder .ppDst none)

/-- FB.MOVE(holder, o): the buffer a slot holds moves to `o` (R203, R204). -/
def moveHeld (slot : Option Nat) (o : OwnerTag) (s : State) : Result :=
  match slot with
  | none => .refused .emptySlot
  | some h => fbMove h o s

/-- ACT.FILTER (R203). -/
def actFilter (s : State) : Result :=
  match s.gray with
  | none => .next s
  | some g => withBuffer s g fun b =>
    bindNext (fbMove g .ppSrc s) fun s =>
    bindNext (fbCreate .gray b.width b.height .ppDst s) fun s =>
    bindNext (filterPasses s) fun s =>
    bindNext (dropScratch s) fun s =>
    moveHeld s.ppSrc .proc s

/-- CSC.CONVERT(r, CSC.OUT) (R204). -/
def convertHeld (r : Nat) (s : State) : Result :=
  match s.cscOut with
  | none => .refused .emptySlot
  | some g => cscConvert r g s

/-- ACT.CONVERT (R204). -/
def actConvert (s : State) : Result :=
  match s.raw with
  | none => .next s
  | some r => withBuffer s r fun b =>
    bindNext (fbCreate .gray b.width b.height .cscOut s) fun s =>
    bindNext (convertHeld r s) fun s =>
    bindNext (fbDestroy r s) fun s =>
    moveHeld s.cscOut .gray (s.setHolder .raw none)

/-- A grid every rule covers: dimensions in [1, 65535], as W_BITS and H_BITS of R7 give them, and exactly W·H pixels
(R258, U11). The pixel count: DEDUCED (log 12). -/
def gridOk (w h : Nat) (px : List Pixel) : Bool :=
  decide (1 ≤ w) && decide (w < 2 ^ hardware.wBits) && decide (1 ≤ h) && decide (h < 2 ^ hardware.hBits)
    && decide (px.length = w * h)

/-- The contract of Decode (R258, premise P2 of R273): MAXW, MAXH and ROW_ALIGN of R7. No operation checks it (D8). -/
def decodeContract (w h : Nat) (px : List Pixel) : Bool :=
  decide (hardware.rowAlign ≤ w) && decide (w % hardware.rowAlign = 0) && decide (w ≤ hardware.maxW)
    && decide (1 ≤ h) && decide (h ≤ hardware.maxH) && decide (px.length = w * h)

/-- The input cursor advanced (R205). -/
def State.countInput (s : State) : State := { s with inCursor := s.inCursor + 1 }

/-- ACT.INPUT once Decode has answered a grid (R205). RAW must be EMPTY: a buffer is moved onto no occupied register
(R23, R124). DEDUCED (log 11). -/
def acceptGrid (w h : Nat) (px : List Pixel) (s : State) : Result :=
  if gridOk w h px = false then .refused .badGrid
  else if s.raw ≠ none then .refused (.holderOccupied .raw)
  else if s.allocAnswer .rgb w h then
    .next ((s.afterAlloc .rgb w h).install
      (Buffer.decoded (BitVec.ofNat 16 w) (BitVec.ofNat 16 h) px)).countInput
  else raiseAllocation (s.afterAlloc .rgb w h)

/-- ACT.INPUT (R205, R215, R246). -/
def actInput (s : State) : Result :=
  if s.inCursor.toNat < s.total.toNat then
    match s.pending[s.inCursor.toNat]? with
    | none => .refused .noPendingIdentifier
    | some id =>
      match s.decodeAnswer id with
      | .grid w h px => acceptGrid w h px (s.afterDecode id)
      | .error cause => .next (raiseDecodeFailure (s.afterDecode id) cause)
  else .next s

/-- CR.TICK <- (CR.TICK + 1) mod 2^32 (R206, R37). -/
def State.countTick (s : State) : State := { s with tick := s.tick + 1 }

/-- CR.PHASE <- p (R206, R36). -/
def State.enterPhase (s : State) (p : Phase) : State := { s with phase := p }

/-- TICK: count, then the four actions in reverse data-flow order, PHASE naming each (R206, R201). -/
def schedTick (s : State) : Result :=
  bindNext (actOutput (s.countTick.enterPhase .output)) fun s =>
  bindNext (actFilter (s.enterPhase .filter)) fun s =>
  bindNext (actConvert (s.enterPhase .convert)) fun s =>
  bindNext (actInput (s.enterPhase .input)) fun s =>
  .next (s.enterPhase .idle)

/-- RC after a tick from `before` to `s`, in a TICK or a RUN: as before the tick unless its actions raised conditions;
then freely that or the code of one of these conditions (R94, R240, R250; log 9). -/
def nestedCode (before s : State) : State :=
  { s with rc := match s.raisedAfter before.env.calls.length with
    | [] => before.rc
    | c :: more => (before.rc :: c :: more).getD
        (Config.nestedChoice s.env.calls.length % (before.rc :: c :: more).length) before.rc }

/-- The state in which a run has become active (R92, R207). -/
def State.startRun (s : State) : State := { s.accepted with running := true }

/-- The state in which a run has ended normally: STATUS.DONE set, no run active (R207, R217). -/
def State.finishRun (s : State) : State := { s with status := statusDone s.status, running := false }

/-- One iteration of RUN's loop (R207): the test at the tick boundary, then a tick, or DONE and the run is over. -/
def runIteration (s : State) : Result :=
  if s.outCursor.toNat < s.total.toNat then bindNext (schedTick s) fun t => .next (nestedCode s t)
  else .next s.finishRun

/-- ACT.OUTPUT on the command port (R202, R92). -/
def execActOutput (s : State) : Result := onPort s actOutput

/-- ACT.FILTER on the command port (R203, R92). -/
def execActFilter (s : State) : Result := onPort s actFilter

/-- ACT.CONVERT on the command port (R204, R92). -/
def execActConvert (s : State) : Result := onPort s actConvert

/-- ACT.INPUT on the command port (R205, R92). -/
def execActInput (s : State) : Result := onPort s actInput

/-- TICK on the command port (R206, R92). -/
def execTick (s : State) : Result :=
  onPort s fun s => bindNext (schedTick s) fun t => .next (nestedCode s t)

/-- RUN (R207): refused after DONE or FATAL; otherwise the run is active and its loop goes through one iteration. The
step repeats this meaning while the run is active, so that each tick is one step (R16, R206; log 8). -/
def execRun (s : State) : Result :=
  if s.fatal then .refused .afterFatal
  else if s.done then .refused .runFinished
  else if s.running then runIteration s
  else runIteration s.startRun

/-- The launch (R270, R47): every piece of state at its launch value; the parameters, the ports and the environment
are not the launch's. Refused while a run is active (R31, D29), or with 2^32 identifiers or more (R273 P6). -/
def launch (ctrl : BitVec 8) (pending : List Ident) (s : State) : Result :=
  if s.running then .refused .runActive
  else if 2 ^ 32 ≤ pending.length then .refused .tooManyIdentifiers
  else .next { s with
    raw := none, gray := none, proc := none, ppSrc := none, ppDst := none, cscOut := none,
    mem := [], nextHandle := 0,
    ctrl := ctrlStored ctrl, status := 0, inCursor := 0, outCursor := 0,
    total := BitVec.ofNat 32 pending.length, phase := .idle, tick := 0, pending := pending, running := false }

end Sys2Proof.Machine
end

