-- ==== Sys2Proof/Machine/Dispatch.lean ====
section
/-!
DEFINITION. exec: one arm per operation of R90, each one direct call of its meaning.
-/
namespace Sys2Proof.Machine

def exec (i : Instr) (s : State) : Host.Outcome State Fault Refusal :=
  match i with
  | .fbCreate t => Sys2Proof.Machine.execFbCreate t s
  | .fbGet => Sys2Proof.Machine.execFbGet s
  | .fbSet => Sys2Proof.Machine.execFbSet s
  | .fbDestroy => Sys2Proof.Machine.execFbDestroy s
  | .fbMove o => Sys2Proof.Machine.execFbMove o s
  | .ppSwap => Sys2Proof.Machine.execPpSwap s
  | .cscConvert => Sys2Proof.Machine.execCscConvert s
  | .convBlur => Sys2Proof.Machine.execConvBlur s
  | .convSharpen => Sys2Proof.Machine.execConvSharpen s
  | .convGaussian => Sys2Proof.Machine.execConvGaussian s
  | .convSobelX => Sys2Proof.Machine.execConvSobelX s
  | .convSobelY => Sys2Proof.Machine.execConvSobelY s
  | .sobelMag => Sys2Proof.Machine.execSobelMag s
  | .actOutput => Sys2Proof.Machine.execActOutput s
  | .actFilter => Sys2Proof.Machine.execActFilter s
  | .actConvert => Sys2Proof.Machine.execActConvert s
  | .actInput => Sys2Proof.Machine.execActInput s
  | .tick => Sys2Proof.Machine.execTick s
  | .run => Sys2Proof.Machine.execRun s

end Sys2Proof.Machine
end

