-- ==== Sys2Proof/Machine/HostPort.lean ====
section
/-!
DEFINITION. What happens at one boundary (R263): the host's next input is served, or, where the host does nothing, an
active run goes on by one tick.
-/
namespace Sys2Proof.Machine

/-- The core on its own: an active run goes through RUN's next iteration; an idle core stays as it is (R92, R206). -/
def boundary (s : State) : Result :=
  if s.running then exec .run s else .next s

/-- A command byte with its operand ports (R91 to R94): refused while a run is active (R92), refused by name if
reserved (R106), else decoded and executed. -/
def presentCommand (cmd : BitVec 8) (ports : Ports) (s : State) : Result :=
  if s.running then .refused .runActive
  else
    match decode cmd with
    | .instr i => exec i { s with ports := ports }
    | .reserved _ => .refused (.reservedCommand cmd)

/-- A read of control register `n`: no side effect on the core (R69, R81); above 6 refused (U9). -/
def readRegister (n : Nat) (s : State) : Result :=
  match s.readCR n with
  | some v => .next { s with crData := v }
  | none => .refused (.noSuchRegister n)

/-- One input of the host (R263). A control register is written by no input but a launch (R81, U9). -/
def serveHost (i : HostInput) (s : State) : Result :=
  match i with
  | .idle => boundary s
  | .command cmd ports => presentCommand cmd ports s
  | .launch ctrl pending => launch ctrl pending s
  | .readCR n => readRegister n s
  | .writeCR n _ => .refused (.registerWrite n)

/-- The next boundary: the soonest input of the host is taken and served; with none left the core is on its own. -/
def nextBoundary (s : State) : Result :=
  match s.host with
  | [] => boundary s
  | i :: rest => serveHost i { s with host := rest }

/-- The state whose next boundary presents the command byte `cmd`, on the operand ports as they are. -/
def State.presenting (s : State) (cmd : BitVec 8) : State :=
  { s with running := false, host := .command cmd s.ports :: s.host }

end Sys2Proof.Machine
end

