-- ==== Sys2Proof/Machine/Step.lean ====
section
/-!
DEFINITION. The step: one boundary of the machine (R16, R263). The machine fetches nothing (R43); a command comes from
the host's port.
-/
namespace Sys2Proof.Machine

/-- One step. -/
def step (s : State) : Host.Outcome State Fault Refusal := nextBoundary s

/-- `s` with the table word `w` as the command the host presents at the very next step, the operand ports unchanged
and no run active (a command is accepted only then, R92). A table word has 8 bits (R107). -/
def State.withFetchWord (s : State) (_nbits w : Nat) : State := s.presenting (BitVec.ofNat 8 w)

end Sys2Proof.Machine
end

