-- ==== Sys2Proof/Safety.lean ====
section
/-!
DEFINITION. What a sound state is, in the terms the statements use: ownership (R22, R23, R128), the control
registers (R31 to R37), and the state of an active run (R29, R41, R45); and the quantities the statements speak of.
-/
namespace Sys2Proof.Machine

/-- The record of the buffer that the holder of `o` names, if any. -/
def State.heldBuffer (s : State) (o : OwnerTag) : Option Buffer := (s.holder o).bind s.mem.find

/-- One byte of memory: byte `a` of the store of handle `h`; 0 for a dead handle or an offset nothing lists. -/
def State.byteAt (s : State) (h a : Nat) : Byte :=
  match s.mem.find h with
  | none => 0#8
  | some b => Store.read b.data a

/-- Ownership (R22, R23, R49, R128): the store is in canonical form; live handles are below NEXT_HANDLE; a buffer not
owned by HOST is named by its owner's holder; a holder names a live buffer that it owns, of the type it accepts. -/
structure Owned (s : State) : Prop where
  wf : s.mem.wf = true
  fresh : ∀ h b, s.mem.find h = some b → h < s.nextHandle
  held : ∀ h b, s.mem.find h = some b → b.owner ≠ .host → s.holder b.owner = some h
  named : ∀ o h, s.holder o = some h → ∃ b, s.mem.find h = some b ∧ b.owner = o ∧ acceptsType o b.elem = true

/-- The control registers (R31 to R36): CTRL 7:4 zero; PHASE IDLE at a boundary; FATAL in no next state; DEC_CAUSE a
code of R102, 0 exactly while DEC_FAIL is 0; IN_CURSOR ≤ TOTAL ≤ N, and IN_CURSOR = TOTAL after a decode failure; DONE
is 0 while a run is active. -/
structure Control (s : State) : Prop where
  ctrlHigh : s.ctrl &&& 0xF0#8 = 0#8
  phaseIdle : s.phase = .idle
  notFatal : s.fatal = false
  causeNone : s.decFail = false → s.decCause = 0#3
  causeSome : s.decFail = true → 1 ≤ s.decCause.toNat ∧ s.decCause.toNat ≤ 4
  truncated : s.decFail = true → s.inCursor = s.total
  cursors : s.inCursor.toNat ≤ s.total.toNat
  bounded : s.total.toNat ≤ s.pending.length
  notDone : s.running = true → s.done = false

/-- Every register that is not part of the frame-buffer manager is the same: control and status, configuration, ports,
and the host's inputs. What may differ: the store, NEXT_HANDLE, the holders, and the record of oracle calls. -/
structure SameControls (s u : State) : Prop where
  ctrl : u.ctrl = s.ctrl
  status : u.status = s.status
  inCursor : u.inCursor = s.inCursor
  outCursor : u.outCursor = s.outCursor
  total : u.total = s.total
  phase : u.phase = s.phase
  tick : u.tick = s.tick
  pending : u.pending = s.pending
  running : u.running = s.running
  params : u.params = s.params
  ports : u.ports = s.ports
  rh : u.rh = s.rh
  rv : u.rv = s.rv
  rc : u.rc = s.rc
  crData : u.crData = s.crData
  host : u.host = s.host

/-- 1 for a register that names a buffer, 0 for an EMPTY one. -/
def occupied (r : Option Nat) : Nat :=
  match r with
  | none => 0
  | some _ => 1

/-- The number of non-EMPTY pipeline registers (R45). -/
def State.inFlight (s : State) : Nat := occupied s.raw + occupied s.gray + occupied s.proc

/-- The state of a run at a tick boundary: sound, slots EMPTY (R41), no HOST buffer (R28, a run from a clean launch,
R273 P1), and IN_CURSOR − OUT_CURSOR the number of non-EMPTY registers (R45). -/
structure InRun (s : State) : Prop where
  owned : Owned s
  control : Control s
  srcEmpty : s.ppSrc = none
  dstEmpty : s.ppDst = none
  cscEmpty : s.cscOut = none
  noHost : ∀ h b, s.mem.find h = some b → b.owner ≠ .host
  cursorGap : s.inCursor.toNat = s.outCursor.toNat + s.inFlight

/-- The work a run has left: every tick of a run makes it smaller (R284). -/
def State.workLeft (s : State) : Nat :=
  4 * (s.total.toNat - s.inCursor.toNat) + 3 * occupied s.raw + 2 * occupied s.gray + occupied s.proc

/-- One pass of the chain on buffers alone: the pair (source, other buffer) before, and after the swap (R203, R209). -/
def chainStep (pix : Buffer → Nat → Nat → Byte) (pair : Buffer × Buffer) : Buffer × Buffer :=
  (filterBuffer pix pair.1 pair.2, pair.1)

/-- A pass that may be left out. -/
def chainStepIf (on : Bool) (pix : Buffer → Nat → Nat → Byte) (pair : Buffer × Buffer) : Buffer × Buffer :=
  if on then chainStep pix pair else pair

/-- The filter chain on a gray buffer and a zero-filled scratch of its dimensions: the buffer holding the last result
(R203, R208), as repeated application, each pass fed the previous output (R209). -/
def filterChain (params : Params) (float gauss sharp sobel : Bool) (g : Buffer) : Buffer :=
  let start : Buffer × Buffer := (g, Buffer.fresh .gray g.width g.height .ppDst)
  let afterBlur := chainStep (convPixel params float .blur) start
  let afterGauss := chainStepIf gauss (convPixel params float .gaussian) afterBlur
  let afterSharp := chainStepIf sharp (convPixel params float .sharpen) afterGauss
  (chainStepIf sobel (sobelPixel params float) afterSharp).1

/-- The number of passes k = 1 + EN_GAUSS + EN_SHARP + EN_SOBEL (R208). -/
def passCount (gauss sharp sobel : Bool) : Nat := 1 + gauss.toNat + sharp.toNat + sobel.toNat

/-- Decode's answer at the next ACT.INPUT, as the host has listed it; none when no frame is pending (R205). -/
def State.nextDecode (s : State) : Option DecodeAnswer :=
  if s.inCursor.toNat < s.total.toNat then s.env.decodes.head? else none

/-- One tick can complete: a sound state at a tick boundary (R41), three allocations answered yes (the most a tick
asks for, R210; premise P3 of R273), and a listed answer of Decode for the next pending identifier, which is an error
or a grid within the rules (premise P2). -/
structure TickReady (s : State) : Prop where
  owned : Owned s
  srcEmpty : s.ppSrc = none
  dstEmpty : s.ppDst = none
  cscEmpty : s.cscOut = none
  allocs : ∃ rest, s.env.allocs = true :: true :: true :: rest
  input : s.inCursor.toNat < s.total.toNat → ∃ id, s.pending[s.inCursor.toNat]? = some id ∧
    ((∃ c rest, s.env.decodes = .error c :: rest) ∨
      (∃ w h px rest, s.env.decodes = .grid w h px :: rest ∧ gridOk w h px = true))

/-- One tick must end in the fatal abort (R243, R244): at a tick boundary, the allocator's listed answers are `k` times
yes and then no, and the tick makes more than `k` requests: one for a frame in GRAY, one for a frame in RAW, and one for a
grid that Decode answers (R210). -/
structure TickStarved (s : State) : Prop where
  owned : Owned s
  srcEmpty : s.ppSrc = none
  dstEmpty : s.ppDst = none
  cscEmpty : s.cscOut = none
  answers : ∃ k rest, s.env.allocs = List.replicate k true ++ false :: rest ∧
    (k < occupied s.gray + occupied s.raw ∨
      (k = occupied s.gray + occupied s.raw ∧ s.inCursor.toNat < s.total.toNat ∧
        ∃ id w h px more, s.pending[s.inCursor.toNat]? = some id ∧ s.env.decodes = .grid w h px :: more ∧
          gridOk w h px = true))

/-- How the fatal abort of a tick or an action begun in `s` ends (R244): FATAL set, DONE as it was, RC = 1; the calls made
stay made, and the last of them is the request answered no. -/
def AbortedFrom (s : State) (r : Result) : Prop :=
  ∃ a made t w h, r = .fault (.allocationError a) ∧ a.fatal = true ∧ a.done = s.done ∧ a.rc = 1#3 ∧
    a.env.calls = s.env.calls ++ made ++ [.allocOk t w h false]

/-- STATUS after the tick's ACT.OUTPUT (R202, R248). -/
def State.statusAfterOutput (s : State) : BitVec 8 :=
  match s.heldBuffer .proc with
  | none => s.status
  | some b =>
    match s.encodeAnswer s.outCursor.toNat b with
    | .success => s.status
    | .ioError => statusEncErr s.status

/-- The oracle calls of one tick, in R210's order: Encode, AllocOk for the scratch, AllocOk for the new gray buffer,
Decode, AllocOk for the decoded buffer. -/
def State.tickCalls (s : State) : List OracleCall :=
  (match s.heldBuffer .proc with
   | none => []
   | some b => [.encode s.outCursor.toNat b.width.toNat b.height.toNat b.grid (s.encodeAnswer s.outCursor.toNat b)])
  ++ (match s.heldBuffer .gray with
   | none => []
   | some b => [.allocOk .gray b.width.toNat b.height.toNat true])
  ++ (match s.heldBuffer .raw with
   | none => []
   | some b => [.allocOk .gray b.width.toNat b.height.toNat true])
  ++ (match s.nextDecode with
   | none => []
   | some (.error c) => [.decode (s.pending.getD s.inCursor.toNat 0) (.error c)]
   | some (.grid w h px) =>
     [.decode (s.pending.getD s.inCursor.toNat 0) (.grid w h px), .allocOk .rgb w h true])

/-- One tick as a simultaneous assignment (R210): every right-hand side reads the state `s` before the tick. -/
structure TickTransfer (s t : State) : Prop where
  proc : match s.heldBuffer .gray with
    | none => t.proc = none
    | some b => ∃ h, t.proc = some h ∧ t.mem.find h =
        some { filterChain s.params s.modeFloat s.enGauss s.enSharp s.enSobel b with owner := .proc }
  gray : match s.heldBuffer .raw with
    | none => t.gray = none
    | some b => ∃ h, t.gray = some h ∧ t.mem.find h =
        some { convertBuffer s.params s.modeFloat b (Buffer.fresh .gray b.width b.height .cscOut) with owner := .gray }
  raw : match s.nextDecode with
    | some (.grid w h px) => ∃ k, t.raw = some k ∧
        t.mem.find k = some (Buffer.decoded (BitVec.ofNat 16 w) (BitVec.ofNat 16 h) px)
    | some (.error _) => t.raw = none
    | none => t.raw = none
  outCursor : t.outCursor = if s.proc = none then s.outCursor else s.outCursor + 1
  inCursor : match s.nextDecode with
    | some (.grid _ _ _) => t.inCursor = s.inCursor + 1
    | some (.error _) => t.inCursor = s.inCursor
    | none => t.inCursor = s.inCursor
  total : match s.nextDecode with
    | some (.error _) => t.total = s.inCursor
    | some (.grid _ _ _) => t.total = s.total
    | none => t.total = s.total
  status : match s.nextDecode with
    | some (.error c) => t.status = statusDecFail s.statusAfterOutput (causeCode c)
    | some (.grid _ _ _) => t.status = s.statusAfterOutput
    | none => t.status = s.statusAfterOutput
  calls : t.env.calls = s.env.calls ++ s.tickCalls
  tick : t.tick = s.tick + 1
  phase : t.phase = .idle
  slots : t.ppSrc = none ∧ t.ppDst = none ∧ t.cscOut = none
  destroyed : ∀ h, s.proc = some h → t.mem.find h = none
  hostKept : ∀ h b, s.mem.find h = some b → b.owner = .host → t.mem.find h = some b
  ctrl : t.ctrl = s.ctrl
  pending : t.pending = s.pending
  params : t.params = s.params
  ports : t.ports = s.ports ∧ t.rh = s.rh ∧ t.rv = s.rv ∧ t.crData = s.crData ∧ t.host = s.host

/-- The nine-term sum Σ w[ky][kx] · (byte of buffer `h` at (x + kx − 1, y + ky − 1)) for a GRAY buffer of width `W`,
written out (R170, R171). -/
def State.sum9 (s : State) (h W x y : Nat) (w : Grid3 (BitVec 16)) : Int :=
  let p (dx dy : Nat) : Int := ((s.byteAt h ((y + dy - 1) * W + (x + dx - 1))).toNat : Int)
  w.p00.toInt * p 0 0 + w.p01.toInt * p 1 0 + w.p02.toInt * p 2 0
    + w.p10.toInt * p 0 1 + w.p11.toInt * p 1 1 + w.p12.toInt * p 2 1
    + w.p20.toInt * p 0 2 + w.p21.toInt * p 1 2 + w.p22.toInt * p 2 2

/-- `clamp(v, 0, 255)` as a number (R9). -/
def clampInt (v : Int) : Int := if v < 0 then 0 else if 255 < v then 255 else v

/-- The s32 accumulator of R171 and R191 as hardware holds it: nine products added in 32-bit two's complement, weights
sign-extended, pixels zero-extended. -/
def accumulate32 (w : Grid3 (BitVec 16)) (p : Grid3 Byte) : BitVec 32 :=
  (w.toList.zip p.toList).foldl (fun acc wp => acc + wp.1.signExtend 32 * wp.2.setWidth 32) 0#32

/-- The RGB element (x, y) of buffer `h` of width `W`, by its three bytes (R61, R62). -/
def State.rgbAt (s : State) (h W x y : Nat) : Pixel :=
  { r := s.byteAt h (3 * (y * W + x)), g := s.byteAt h (3 * (y * W + x) + 1), b := s.byteAt h (3 * (y * W + x) + 2) }

/-- R144's relation: what `luma_float(r, g, b)` may be in any binary format of 24 significand bits or more. -/
def floatLumaAllowed (p : Pixel) (l : Byte) : Prop :=
  let sum := 299 * p.r.toNat + 587 * p.g.toNat + 114 * p.b.toNat
  if sum = 0 then l.toNat = 0
  else if sum % 1000 = 0 then l.toNat = sum / 1000 ∨ l.toNat + 1 = sum / 1000
  else l.toNat = sum / 1000

/-- The operands of CSC.CONVERT on the command port: the port open (R92), both buffers live and HOST-owned (R127), RGB
and GRAY (R147), in a memory in canonical form. -/
structure CscOperands (s : State) (rgb gray : Buffer) : Prop where
  idle : s.running = false
  alive : s.fatal = false
  memory : s.mem.wf = true
  source : s.mem.find s.ports.h0 = some rgb
  dest : s.mem.find s.ports.h1 = some gray
  hostSource : rgb.owner = .host
  hostDest : gray.owner = .host
  rgbSource : rgb.elem = .rgb
  grayDest : gray.elem = .gray

/-- What CSC.CONVERT leaves when it writes `luma p` for every pixel `p`, border included: RC 0, the gray buffer's record
as before, every other buffer and every register as before (R140, R145, R24). -/
structure LumaWritten (s t : State) (gray : Buffer) (luma : Pixel → Byte) : Prop where
  frame : t = { s with rc := 0#3, mem := t.mem }
  others : ∀ k, k ≠ s.ports.h1 → t.mem.find k = s.mem.find k
  record : ∃ d, t.mem.find s.ports.h1 = some { gray with data := d }
  elements : ∀ x y, x < gray.width.toNat → y < gray.height.toNat →
    t.byteAt s.ports.h1 (y * gray.width.toNat + x) = luma (s.rgbAt s.ports.h0 gray.width.toNat x y)
  beyond : ∀ a, gray.width.toNat * gray.height.toNat ≤ a → t.byteAt s.ports.h1 a = s.byteAt s.ports.h1 a

/-- The operands of a two-buffer GRAY operation on the command port: the port open (R92), both buffers live, GRAY and
HOST-owned (R127), different, of equal dimensions (R168), in a memory in canonical form. -/
structure ConvOperands (s : State) (src dst : Buffer) : Prop where
  idle : s.running = false
  alive : s.fatal = false
  memory : s.mem.wf = true
  source : s.mem.find s.ports.h0 = some src
  dest : s.mem.find s.ports.h1 = some dst
  hostSource : src.owner = .host
  hostDest : dst.owner = .host
  graySource : src.elem = .gray
  grayDest : dst.elem = .gray
  distinct : s.ports.h0 ≠ s.ports.h1
  sameWidth : src.width = dst.width
  sameHeight : src.height = dst.height

/-- What CONV.* and SOBEL.MAG leave when they write `pix x y` at each interior (x, y) of H1's buffer: RC 0, that
buffer's record and border as before, every other buffer and every register as before (R169, R193, R24). -/
structure InteriorWritten (s t : State) (dst : Buffer) (pix : Nat → Nat → Byte) : Prop where
  frame : t = { s with rc := 0#3, mem := t.mem }
  others : ∀ k, k ≠ s.ports.h1 → t.mem.find k = s.mem.find k
  record : ∃ d, t.mem.find s.ports.h1 = some { dst with data := d }
  interior : ∀ x y, 1 ≤ x → x + 2 ≤ dst.width.toNat → 1 ≤ y → y + 2 ≤ dst.height.toNat →
    t.byteAt s.ports.h1 (y * dst.width.toNat + x) = pix x y
  border : ∀ a, (∀ x y, 1 ≤ x → x + 2 ≤ dst.width.toNat → 1 ≤ y → y + 2 ≤ dst.height.toNat →
    a ≠ y * dst.width.toNat + x) → t.byteAt s.ports.h1 a = s.byteAt s.ports.h1 a

/-- The Kernel Table entries a datapath operation reads (R169, R190). -/
def entriesRead : Instr → List KernelId
  | .convBlur => [.blur]
  | .convSharpen => [.sharpen]
  | .convGaussian => [.gaussian]
  | .convSobelX => [.sobelX]
  | .convSobelY => [.sobelY]
  | .sobelMag => [.sobelX, .sobelY]
  | .fbCreate _ => []
  | .fbGet => []
  | .fbSet => []
  | .fbDestroy => []
  | .fbMove _ => []
  | .ppSwap => []
  | .cscConvert => []
  | .actOutput => []
  | .actFilter => []
  | .actConvert => []
  | .actInput => []
  | .tick => []
  | .run => []

/-- Two settings of the parameters agree on what the datapath operation `i` reads in the active mode: the entries of the
mode's table, and in FLOAT mode the format (R148, R160). -/
def sameEntries (i : Instr) (float : Bool) (p q : Params) : Prop :=
  if float then p.float = q.float ∧ ∀ k ∈ entriesRead i, p.ktabFloat.entry k = q.ktabFloat.entry k
  else ∀ k ∈ entriesRead i, p.ktab.entry k = q.ktab.entry k

/-- The outcome `r` with the value `n` for TICK in the state it carries; a refusal carries none. -/
def tickReplaced (n : BitVec 32) (r : Result) : Result :=
  match r with
  | .next t => .next { t with tick := n }
  | .fault (.allocationError a) => .fault (.allocationError { a with tick := n })
  | .refused q => .refused q

end Sys2Proof.Machine
end

