-- ==== Sys2Proof/Certificates/Slice0/Obligations.lean ====
section
/-!
DEFINITION. The statements for the provers, one proposition each. A docstring names the rules of spec/ a statement
formalises; "a store in canonical form" (`Memory.wf`) and `Owned` are invariants of the model, stated as OwnedKept and
ResetSound.
-/
section Statements

open Sys2Proof Sys2Proof.Machine

/-! ### Encoding -/

/-- R91, R93: the decoder and the encoder agree on every well-formed instruction and on every byte. -/
def Obligations.DecodeEncodeAgree : Prop :=
  (∀ i : Instr, i.wellFormed = true → decode (encode i) = .instr i) ∧
  (∀ (b : BitVec 8) (i : Instr), decode b = .instr i → i.wellFormed = true ∧ encode i = b)

/-- R106: the bytes that select no operation are exactly the listed ones, and the core refuses each of them. -/
def Obligations.ReservedBytesRefused : Prop :=
  ∀ b : BitVec 8,
    ((∃ why, decode b = .reserved why) ↔
      (opField b = 0 ∨ opField b = 13 ∨ opField b = 14 ∨ opField b = 15 ∨ zField b = true
        ∨ (opField b = 1 ∧ 1 < subField b) ∨ (opField b = 5 ∧ subField b = 0)
        ∨ (opField b = 8 ∧ 5 ≤ subField b) ∨ (opField b = 10 ∧ 4 ≤ subField b)
        ∨ (opField b ∈ [2, 3, 4, 6, 7, 9, 11, 12] ∧ subField b ≠ 0))) ∧
    ((∃ why, decode b = .reserved why) → ∀ (ports : Ports) (s : State), s.running = false →
      presentCommand b ports s = .refused (.reservedCommand b))

/-- R93: words of the opcode map, one of each family. -/
def Obligations.SampleWords : Prop :=
  decode 0b00010001#8 = .instr (.fbCreate .rgb) ∧ decode 0b01010010#8 = .instr (.fbMove .gray) ∧
  decode 0b01110000#8 = .instr .cscConvert ∧ decode 0b10000010#8 = .instr .convGaussian ∧
  decode 0b10010000#8 = .instr .sobelMag ∧ decode 0b10100011#8 = .instr .actInput ∧
  decode 0b11000000#8 = .instr .run

/-- R103: where each field of a fixed-mode Kernel Table entry stands, and that unpacking the 176 bits gives the entry
back. -/
def Obligations.KernelEntryLayout : Prop :=
  ∀ k : Kernel,
    (∀ j : Fin 9, k.pack.extractLsb' (16 * j) 16 = k.w.toList.getD j 0#16) ∧
    k.pack.extractLsb' 144 5 = k.shift ∧ k.pack.extractLsb' 149 11 = 0#11 ∧ k.pack.extractLsb' 160 16 = k.bias ∧
    Kernel.unpack k.pack = k

/-! ### The step and the command port -/

/-- R92, R94: when the host presents a command byte and no run is active, the step is exec of the decoded instruction,
on the state with the operand ports as presented and the input taken. The host's list is the model's own (log 6). -/
def Obligations.StepRunsDecodedCommand : Prop :=
  (∀ (s : State) (cmd : BitVec 8) (ports : Ports) (rest : List HostInput) (i : Instr),
    s.running = false → s.host = .command cmd ports :: rest → decode cmd = .instr i →
      step s = exec i { s with host := rest, ports := ports }) ∧
  (∀ (s : State) (i : Instr), i.wellFormed = true →
    step (s.withFetchWord 8 (encode i).toNat) = exec i { s with running := false })

/-- R92, R206, R207 (log 8): with nothing from the host, an active run goes through its next iteration and an idle core
stays as it is. -/
def Obligations.CoreOnItsOwn : Prop :=
  ∀ s : State, (s.host = [] → s.running = true → step s = exec .run s) ∧
    (s.host = [] → s.running = false → step s = .next s) ∧
    (∀ rest, s.host = .idle :: rest → s.running = true → step s = exec .run { s with host := rest }) ∧
    (∀ rest, s.host = .idle :: rest → s.running = false → step s = .next { s with host := rest })

/-- R92, R207, R31: no command and no launch (and so no change of CTRL) is accepted while a run is active, no command
after STATUS.FATAL = 1, and no RUN after STATUS.DONE = 1. -/
def Obligations.CommandsTurnedAway : Prop :=
  (∀ (s : State) (cmd : BitVec 8) (ports : Ports) (rest : List HostInput), s.running = true →
    s.host = .command cmd ports :: rest → step s = .refused .runActive) ∧
  (∀ (i : Instr) (s : State), s.running = true → i ≠ .run → exec i s = .refused .runActive) ∧
  (∀ (i : Instr) (s : State), s.running = false → s.fatal = true → exec i s = .refused .afterFatal) ∧
  (∀ s : State, s.fatal = false → s.done = true → exec .run s = .refused .runFinished) ∧
  (∀ (s : State) (ctrl : BitVec 8) (pending : List Ident) (rest : List HostInput), s.running = true →
    s.host = .launch ctrl pending :: rest → step s = .refused .runActive)

/-- R81, R30: a control-register read gives the register zero-extended and changes nothing else, above 6 it is refused,
and a write is refused. The read-out register and the host's list are the model's own. -/
def Obligations.ControlRegisterAccess : Prop :=
  (∀ (s : State) (n : Nat) (rest : List HostInput), s.host = .readCR n :: rest → 6 < n →
    step s = .refused (.noSuchRegister n)) ∧
  (∀ (s : State) (n : Nat) (v : BitVec 32) (rest : List HostInput), s.host = .writeCR n v :: rest →
    step s = .refused (.registerWrite n)) ∧
  (∀ (s : State) (n : Nat) (rest : List HostInput), s.host = .readCR n :: rest → n ≤ 6 →
    ∃ v, step s = .next { s with host := rest, crData := v } ∧
      v.toNat = [s.ctrl.toNat, s.status.toNat, s.inCursor.toNat, s.outCursor.toNat, s.total.toNat,
        s.phase.code.toNat, s.tick.toNat].getD n 0)

/-! ### Reset and launch -/

/-- R47: the values of the launch table at reset; TOTAL is N, the length of PENDING. CTRL and PENDING are launch
arguments, for which the model's reset takes 0x07 and the empty list (log 1, DESIGN CHOICE). -/
def Obligations.ResetState : Prop :=
  let s := State.reset
  s.raw = none ∧ s.gray = none ∧ s.proc = none ∧ s.ppSrc = none ∧ s.ppDst = none ∧ s.cscOut = none ∧
  s.mem = [] ∧ s.nextHandle = 0 ∧ s.status = 0#8 ∧ s.inCursor = 0#32 ∧ s.outCursor = 0#32 ∧
  s.total.toNat = s.pending.length ∧ s.phase = .idle ∧ s.tick = 0#32 ∧ s.running = false ∧
  s.ctrl = 0x07#8 ∧ s.pending = []

/-- R270, R47: a launch with CTRL bits 7:4 zero and N < 2^32 sets every piece of state to its launch value and changes
no parameter; the state it leaves is the state of a run at a tick boundary. The model's: it changes no port (log 16),
and it is taken whenever no run is active, also after DONE or FATAL (log 23). -/
def Obligations.LaunchSetsState : Prop :=
  ∀ (s : State) (ctrl : BitVec 8) (pending : List Ident) (rest : List HostInput),
    s.running = false → s.host = .launch ctrl pending :: rest → ctrl &&& 0xF0#8 = 0#8 → pending.length < 2 ^ 32 →
    ∃ t, step s = .next t ∧ InRun t ∧ t.total.toNat = pending.length ∧
      t = { s with
        raw := none, gray := none, proc := none, ppSrc := none, ppDst := none, cscOut := none,
        mem := [], nextHandle := 0, ctrl := ctrl, status := 0#8, inCursor := 0#32, outCursor := 0#32,
        total := t.total, phase := .idle, tick := 0#32, pending := pending, host := rest }

/-! ### Frame buffers -/

/-- R120, R27, R49: FB.CREATE with W > 0 and H > 0, when the allocator answers yes, makes NEXT_HANDLE live with a buffer
of that type and size, owned by HOST, every element the zero value; every other buffer is as before. -/
def Obligations.FbCreateCompletes : Prop :=
  ∀ (s : State) (e : ElemType), s.running = false → s.fatal = false → s.ports.dw ≠ 0#16 → s.ports.dh ≠ 0#16 →
    s.allocAnswer e s.ports.dw.toNat s.ports.dh.toNat = true →
    ∃ t b, exec (.fbCreate e) s = .next t ∧
      t.mem.find s.nextHandle = some b ∧ b.elem = e ∧ b.width = s.ports.dw ∧ b.height = s.ports.dh ∧
      b.owner = .host ∧ (∀ x y, b.getPort x y = 0#24) ∧ (∀ a, t.byteAt s.nextHandle a = 0#8) ∧
      (∀ k, k ≠ s.nextHandle → t.mem.find k = s.mem.find k) ∧
      t = { s with rc := 0#3, rh := s.nextHandle, nextHandle := s.nextHandle + 1, mem := t.mem,
                   env := { s.env with allocs := s.env.allocs.tail, calls := s.env.calls ++
                     [.allocOk e s.ports.dw.toNat s.ports.dh.toNat true] } }

/-- R120, R244: FB.CREATE with W = 0 or H = 0 is refused, and with the allocator's answer no it is the fatal abort, with
STATUS.FATAL and RC = 1 and no buffer made. -/
def Obligations.FbCreateStops : Prop :=
  ∀ (s : State) (e : ElemType), s.running = false → s.fatal = false →
    ((s.ports.dw = 0#16 ∨ s.ports.dh = 0#16) → exec (.fbCreate e) s = .refused .zeroDimension) ∧
    (s.ports.dw ≠ 0#16 → s.ports.dh ≠ 0#16 → s.allocAnswer e s.ports.dw.toNat s.ports.dh.toNat = false →
      ∃ a, exec (.fbCreate e) s = .fault (.allocationError a) ∧ a.fatal = true ∧ a.done = s.done ∧ a.rc = 1#3 ∧
        a.mem = s.mem ∧ a.nextHandle = s.nextHandle)

/-- R121, R64, R61, R62: FB.GET on a HOST buffer gives the element at (x, y), GRAY zero-extended, RGB as R, G, B, and the
zero value out of range; nothing but RV and RC changes. A dead handle is refused. -/
def Obligations.FbGetReadsElement : Prop :=
  (∀ (s : State) (b : Buffer), s.running = false → s.fatal = false → s.mem.find s.ports.h0 = some b →
    b.owner = .host →
    exec .fbGet s = .next { s with rc := 0#3, rv :=
      let x := s.ports.x.toInt
      let y := s.ports.y.toInt
      let i := y.toNat * b.width.toNat + x.toNat
      if 0 ≤ x ∧ x < b.width.toNat ∧ 0 ≤ y ∧ y < b.height.toNat then
        (match b.elem with
         | .gray => (s.byteAt s.ports.h0 i).setWidth 24
         | .rgb => s.byteAt s.ports.h0 (3 * i) ++ s.byteAt s.ports.h0 (3 * i + 1) ++ s.byteAt s.ports.h0 (3 * i + 2))
      else 0#24 }) ∧
  (∀ s : State, s.running = false → s.fatal = false → s.mem.find s.ports.h0 = none →
    exec .fbGet s = .refused (.deadHandle s.ports.h0))

/-- R122, R65: FB.SET on a HOST buffer writes exactly the bytes of the element at (x, y), and nothing out of range; the
record, every other byte and every other buffer stay. A dead handle is refused. -/
def Obligations.FbSetWritesElement : Prop :=
  (∀ (s : State) (b : Buffer), s.running = false → s.fatal = false → s.mem.wf = true →
    s.mem.find s.ports.h0 = some b → b.owner = .host →
    ∃ t, exec .fbSet s = .next t ∧ t = { s with rc := 0#3, mem := t.mem } ∧
      (∃ d, t.mem.find s.ports.h0 = some { b with data := d }) ∧
      (∀ k, k ≠ s.ports.h0 → t.mem.find k = s.mem.find k) ∧
      (b.inRange s.ports.xInt s.ports.yInt = false →
        ∀ a, t.byteAt s.ports.h0 a = s.byteAt s.ports.h0 a) ∧
      (b.inRange s.ports.xInt s.ports.yInt = true → b.elem = .gray →
        t.byteAt s.ports.h0 (b.index s.ports.xInt s.ports.yInt) = s.ports.v.extractLsb' 0 8 ∧
        ∀ a, a ≠ b.index s.ports.xInt s.ports.yInt → t.byteAt s.ports.h0 a = s.byteAt s.ports.h0 a) ∧
      (b.inRange s.ports.xInt s.ports.yInt = true → b.elem = .rgb →
        t.byteAt s.ports.h0 (3 * b.index s.ports.xInt s.ports.yInt) = s.ports.v.extractLsb' 16 8 ∧
        t.byteAt s.ports.h0 (3 * b.index s.ports.xInt s.ports.yInt + 1) = s.ports.v.extractLsb' 8 8 ∧
        t.byteAt s.ports.h0 (3 * b.index s.ports.xInt s.ports.yInt + 2) = s.ports.v.extractLsb' 0 8 ∧
        ∀ a, a ≠ 3 * b.index s.ports.xInt s.ports.yInt → a ≠ 3 * b.index s.ports.xInt s.ports.yInt + 1 →
          a ≠ 3 * b.index s.ports.xInt s.ports.yInt + 2 → t.byteAt s.ports.h0 a = s.byteAt s.ports.h0 a)) ∧
  (∀ s : State, s.running = false → s.fatal = false → s.mem.find s.ports.h0 = none →
    exec .fbSet s = .refused (.deadHandle s.ports.h0))

/-- R123, R127, R25: FB.DESTROY of a HOST buffer makes its handle dead and changes nothing else, no register and no slot;
the next command's use of it by FB.DESTROY, FB.GET or FB.SET is refused; and a handle below NEXT_HANDLE that is dead stays
dead in every step but a launch. -/
def Obligations.FbDestroyCompletes : Prop :=
  (∀ (s : State) (b : Buffer), s.running = false → s.fatal = false → s.mem.wf = true →
    s.mem.find s.ports.h0 = some b → b.owner = .host →
    ∃ t, exec .fbDestroy s = .next t ∧ t = { s with rc := 0#3, mem := t.mem } ∧
      t.mem.find s.ports.h0 = none ∧ (∀ k, k ≠ s.ports.h0 → t.mem.find k = s.mem.find k) ∧
      exec .fbDestroy t = .refused (.deadHandle s.ports.h0) ∧
      exec .fbGet t = .refused (.deadHandle s.ports.h0) ∧ exec .fbSet t = .refused (.deadHandle s.ports.h0)) ∧
  (∀ (s t : State) (h : Nat), (∀ ctrl pending, s.host.head? ≠ some (.launch ctrl pending)) → step s = .next t →
    h < s.nextHandle → s.mem.find h = none → h < t.nextHandle ∧ t.mem.find h = none)

/-- R124, R127: FB.MOVE of a HOST buffer into an EMPTY register or slot that accepts its type, or of any buffer back to
HOST, gives up the old holder, writes the owner tag, sets the new holder, and changes no dimension and no element. -/
def Obligations.FbMoveCompletes : Prop :=
  ∀ (s : State) (o : OwnerTag) (b : Buffer), s.running = false → s.fatal = false →
    s.mem.find s.ports.h0 = some b → o ≠ .free → (b.owner = .host ∨ o = .host) → s.holder o = none →
    (o = .raw → b.elem = .rgb) → (o ∈ [OwnerTag.gray, .proc, .ppSrc, .ppDst, .cscOut] → b.elem = .gray) →
    ∃ t, exec (.fbMove o) s = .next t ∧
      t.mem.find s.ports.h0 = some { b with owner := o } ∧
      (∀ k, k ≠ s.ports.h0 → t.mem.find k = s.mem.find k) ∧
      (∀ k a, t.byteAt k a = s.byteAt k a) ∧
      (∀ p, t.holder p = if p = o ∧ o ≠ .host then some s.ports.h0
        else if p = b.owner ∧ b.owner ≠ .host then none else s.holder p) ∧
      t = { s with rc := 0#3, mem := t.mem, raw := t.raw, gray := t.gray, proc := t.proc, ppSrc := t.ppSrc,
                   ppDst := t.ppDst, cscOut := t.cscOut }

/-- R124, R127, R22: when FB.MOVE is refused. -/
def Obligations.FbMoveRefused : Prop :=
  ∀ (s : State) (o : OwnerTag), s.running = false → s.fatal = false →
    (s.mem.find s.ports.h0 = none → exec (.fbMove o) s = .refused (.deadHandle s.ports.h0)) ∧
    (∀ b, s.mem.find s.ports.h0 = some b →
      (b.owner ≠ .host → o ≠ .host → exec (.fbMove o) s = .refused (.notHostOwned s.ports.h0)) ∧
      (b.owner = .host → o = .raw → b.elem = .gray →
        exec (.fbMove o) s = .refused (.wrongElementType s.ports.h0)) ∧
      (b.owner = .host → o ∈ [OwnerTag.gray, .proc, .ppSrc, .ppDst, .cscOut] → b.elem = .rgb →
        exec (.fbMove o) s = .refused (.wrongElementType s.ports.h0)) ∧
      (b.owner = .host → o ≠ .free → acceptsType o b.elem = true → s.holder o ≠ none →
        exec (.fbMove o) s = .refused (.holderOccupied o)))

/-- R125: PP.SWAP exchanges the slots and the owner tags of their buffers and changes no element, and a second swap
restores both; with an EMPTY slot it is refused. -/
def Obligations.PpSwapExchanges : Prop :=
  (∀ (s : State) (a b : Nat), Owned s → s.running = false → s.fatal = false → s.ppSrc = some a → s.ppDst = some b →
    ∃ t ba bb, exec .ppSwap s = .next t ∧ s.mem.find a = some ba ∧ s.mem.find b = some bb ∧
      t = { s with rc := 0#3, ppSrc := some b, ppDst := some a, mem := t.mem } ∧
      t.mem.find a = some { ba with owner := .ppDst } ∧ t.mem.find b = some { bb with owner := .ppSrc } ∧
      (∀ k, k ≠ a → k ≠ b → t.mem.find k = s.mem.find k) ∧ (∀ k i, t.byteAt k i = s.byteAt k i) ∧
      exec .ppSwap t = .next { s with rc := 0#3 }) ∧
  (∀ s : State, s.running = false → s.fatal = false → (s.ppSrc = none ∨ s.ppDst = none) →
    exec .ppSwap s = .refused .emptySlot)

/-- R127, R147: on the command port an operand handle that is dead, or whose buffer HOST does not own, is refused, and so
is a CSC.CONVERT whose H0 is not RGB or whose H1 is not GRAY. -/
def Obligations.OperandHandlesChecked : Prop :=
  ∀ s : State, s.running = false → s.fatal = false →
    (∀ i ∈ [Instr.fbGet, .fbSet, .fbDestroy, .cscConvert, .convBlur, .convSharpen, .convGaussian, .convSobelX,
        .convSobelY, .sobelMag],
      (s.mem.find s.ports.h0 = none → exec i s = .refused (.deadHandle s.ports.h0)) ∧
      (∀ b, s.mem.find s.ports.h0 = some b → b.owner ≠ .host →
        exec i s = .refused (.notHostOwned s.ports.h0))) ∧
    (∀ i ∈ [Instr.cscConvert, .convBlur, .convSharpen, .convGaussian, .convSobelX, .convSobelY, .sobelMag],
      ∀ b0, s.mem.find s.ports.h0 = some b0 → b0.owner = .host →
      (s.mem.find s.ports.h1 = none → exec i s = .refused (.deadHandle s.ports.h1)) ∧
      (∀ b, s.mem.find s.ports.h1 = some b → b.owner ≠ .host →
        exec i s = .refused (.notHostOwned s.ports.h1))) ∧
    (∀ b0 b1, s.mem.find s.ports.h0 = some b0 → b0.owner = .host → s.mem.find s.ports.h1 = some b1 →
      b1.owner = .host →
      (b0.elem = .gray → exec .cscConvert s = .refused (.wrongElementType s.ports.h0)) ∧
      (b0.elem = .rgb → b1.elem = .rgb → exec .cscConvert s = .refused (.wrongElementType s.ports.h1)))

/-! ### Colour converter -/

/-- R140, R148: CSC.CONVERT on buffers of equal dimensions writes the active mode's luma of every pixel, border
included, and nothing else. -/
def Obligations.CscConvertCompletes : Prop :=
  ∀ (s : State) (rgb gray : Buffer), CscOperands s rgb gray → rgb.width = gray.width → rgb.height = gray.height →
    ∃ t, exec .cscConvert s = .next t ∧ LumaWritten s t gray (lumaPixel s.params s.modeFloat)

/-- R142: in FIXED mode the luma is exactly (77r + 150g + 29b) >> 8. -/
def Obligations.CscConvertFixedLuma : Prop :=
  ∀ (s : State) (rgb gray : Buffer), CscOperands s rgb gray → rgb.width = gray.width → rgb.height = gray.height →
    s.modeFloat = false →
    ∃ t, exec .cscConvert s = .next t ∧ LumaWritten s t gray (fun p =>
      BitVec.ofNat 8 ((77 * p.r.toNat + 150 * p.g.toNat + 29 * p.b.toNat) / 256))

/-- R144: in FLOAT mode, in every binary format of at least 24 significand bits and the range of binary32 or wider,
whatever its rounding direction, each luma obeys the relation R144 gives. -/
def Obligations.CscConvertFloatLuma : Prop :=
  ∀ (s : State) (rgb gray : Buffer), CscOperands s rgb gray → rgb.width = gray.width → rgb.height = gray.height →
    s.modeFloat = true → s.params.float.wf = true →
    ∃ t, exec .cscConvert s = .next t ∧
      ∀ x y, x < gray.width.toNat → y < gray.height.toNat →
        floatLumaAllowed (s.rgbAt s.ports.h0 gray.width.toNat x y)
          (t.byteAt s.ports.h1 (y * gray.width.toNat + x))

/-- R141, R247: on unequal dimensions CSC.CONVERT sets STATUS.DIM_MISMATCH and RC = 3 and changes nothing else. -/
def Obligations.CscDimensionMismatch : Prop :=
  ∀ (s : State) (rgb gray : Buffer), CscOperands s rgb gray → (rgb.width ≠ gray.width ∨ rgb.height ≠ gray.height) →
    exec .cscConvert s = .next { s with rc := 3#3, status := s.status ||| 0x40#8 }

/-- R146: the properties of luma_fixed: 0 and 255 at the ends, the identity on gray, monotone in each channel, the
smallest inputs that give 1, and within 1 of ⌊E⌋. -/
def Obligations.LumaFixedProperties : Prop :=
  let luma (r g b : Nat) : Nat :=
    (lumaFixed { r := BitVec.ofNat 8 r, g := BitVec.ofNat 8 g, b := BitVec.ofNat 8 b }).toNat
  (∀ v, v < 256 → luma v v v = v) ∧
  (∀ r g b r' g' b', r < 256 → g < 256 → b < 256 → r' ≤ r → g' ≤ g → b' ≤ b → luma r' g' b' ≤ luma r g b) ∧
  luma 255 0 0 = 76 ∧ luma 0 255 0 = 149 ∧ luma 0 0 255 = 28 ∧
  (∀ v, v < 256 → (1 ≤ luma v 0 0 ↔ 4 ≤ v) ∧ (1 ≤ luma 0 v 0 ↔ 2 ≤ v) ∧ (1 ≤ luma 0 0 v ↔ 9 ≤ v)) ∧
  (∀ r g b, r < 256 → g < 256 → b < 256 →
    luma r g b ≤ (299 * r + 587 * g + 114 * b) / 1000 + 1 ∧ (299 * r + 587 * g + 114 * b) / 1000 ≤ luma r g b + 1)

/-! ### Convolution and Sobel -/

/-- R169, R190, R193, R148: CONV.* and SOBEL.MAG complete in both modes and write exactly the interior elements of H1's
buffer, by the datapath of the active mode; the border, the input and every register stay. -/
def Obligations.ConvolutionsComplete : Prop :=
  ∀ (s : State) (src dst : Buffer), ConvOperands s src dst →
    (∀ e ∈ [(Instr.convBlur, KernelId.blur), (.convSharpen, .sharpen), (.convGaussian, .gaussian),
        (.convSobelX, .sobelX), (.convSobelY, .sobelY)],
      ∃ t, exec e.1 s = .next t ∧ InteriorWritten s t dst (convPixel s.params s.modeFloat e.2 src)) ∧
    (∃ t, exec .sobelMag s = .next t ∧ InteriorWritten s t dst (sobelPixel s.params s.modeFloat src))

/-- R171, R170: CONV.k in FIXED mode, for every Kernel Table: sum, then shift, then bias, then clamp. -/
def Obligations.ConvFixedDatapath : Prop :=
  ∀ (s : State) (src dst : Buffer), ConvOperands s src dst → s.modeFloat = false →
    ∀ e ∈ [(Instr.convBlur, s.params.ktab.blur), (.convSharpen, s.params.ktab.sharpen),
        (.convGaussian, s.params.ktab.gaussian), (.convSobelX, s.params.ktab.sobelX),
        (.convSobelY, s.params.ktab.sobelY)],
      ∃ t, exec e.1 s = .next t ∧ InteriorWritten s t dst (fun x y =>
        BitVec.ofInt 8 (clampInt
          (s.sum9 s.ports.h0 src.width.toNat x y e.2.w / 2 ^ e.2.shift.toNat + e.2.bias.toInt)))

/-- R173: CONV.BLUR in FIXED mode with the spec's Blur entry: min(255, (58·P) >> 9), P the sum of the nine pixels. The
equal weights 58 are the spec's reading of "box" (G1, log 2). -/
def Obligations.ConvBlurFixed : Prop :=
  ∀ (s : State) (src dst : Buffer), ConvOperands s src dst → s.modeFloat = false → s.params.ktab.blur = kernelBlur →
    ∃ t, exec .convBlur s = .next t ∧ InteriorWritten s t dst (fun x y =>
      let p (dx dy : Nat) : Nat := (s.byteAt s.ports.h0 ((y + dy - 1) * src.width.toNat + (x + dx - 1))).toNat
      BitVec.ofNat 8 (min 255 (58 * (p 0 0 + p 1 0 + p 2 0 + p 0 1 + p 1 1 + p 2 1 + p 0 2 + p 1 2 + p 2 2) / 512)))

/-- R174: CONV.SHARPEN in FIXED mode with the default entry: clamp(5c − n − s − w − e, 0, 255) (G2, log 2). -/
def Obligations.ConvSharpenFixed : Prop :=
  ∀ (s : State) (src dst : Buffer), ConvOperands s src dst → s.modeFloat = false →
    s.params.ktab.sharpen = kernelSharpen →
    ∃ t, exec .convSharpen s = .next t ∧ InteriorWritten s t dst (fun x y =>
      let p (dx dy : Nat) : Int := ((s.byteAt s.ports.h0 ((y + dy - 1) * src.width.toNat + (x + dx - 1))).toNat : Int)
      BitVec.ofInt 8 (clampInt (5 * p 1 1 - p 1 0 - p 1 2 - p 0 1 - p 2 1)))

/-- R175: CONV.GAUSSIAN in FIXED mode with the default entry: the binomial sum >> 4, never clamped (G3, log 2). -/
def Obligations.ConvGaussianFixed : Prop :=
  ∀ (s : State) (src dst : Buffer), ConvOperands s src dst → s.modeFloat = false →
    s.params.ktab.gaussian = kernelGaussian →
    ∃ t, exec .convGaussian s = .next t ∧ InteriorWritten s t dst (fun x y =>
      let p (dx dy : Nat) : Nat := (s.byteAt s.ports.h0 ((y + dy - 1) * src.width.toNat + (x + dx - 1))).toNat
      BitVec.ofNat 8
        ((p 0 0 + 2 * p 1 0 + p 2 0 + 2 * p 0 1 + 4 * p 1 1 + 2 * p 2 1 + p 0 2 + 2 * p 1 2 + p 2 2) / 16))

/-- R176, R177: CONV.SOBELX and CONV.SOBELY in FIXED mode with the default entries: one gradient, negative values stored
as 0 (G4, log 2). -/
def Obligations.ConvSobelXYFixed : Prop :=
  ∀ (s : State) (src dst : Buffer), ConvOperands s src dst → s.modeFloat = false →
    s.params.ktab.sobelX = kernelSobelX → s.params.ktab.sobelY = kernelSobelY →
    let p (x y dx dy : Nat) : Int :=
      ((s.byteAt s.ports.h0 ((y + dy - 1) * src.width.toNat + (x + dx - 1))).toNat : Int)
    (∃ t, exec .convSobelX s = .next t ∧ InteriorWritten s t dst (fun x y => BitVec.ofInt 8 (clampInt
      ((p x y 2 0 + 2 * p x y 2 1 + p x y 2 2) - (p x y 0 0 + 2 * p x y 0 1 + p x y 0 2))))) ∧
    (∃ t, exec .convSobelY s = .next t ∧ InteriorWritten s t dst (fun x y => BitVec.ofInt 8 (clampInt
      ((p x y 0 2 + 2 * p x y 1 2 + p x y 2 2) - (p x y 0 0 + 2 * p x y 1 0 + p x y 2 0)))))

/-- R190, R191: SOBEL.MAG in FIXED mode, for every Kernel Table: min(|gx| + |gy|, 255), shift and bias unused. -/
def Obligations.SobelMagFixed : Prop :=
  ∀ (s : State) (src dst : Buffer), ConvOperands s src dst → s.modeFloat = false →
    ∃ t, exec .sobelMag s = .next t ∧ InteriorWritten s t dst (fun x y =>
      BitVec.ofNat 8 (min ((s.sum9 s.ports.h0 src.width.toNat x y s.params.ktab.sobelX.w).natAbs
        + (s.sum9 s.ports.h0 src.width.toNat x y s.params.ktab.sobelY.w).natAbs) 255))

/-- R192: when the float Sobel weights are the integers of the default fixed table, SOBEL.MAG gives the same pixel in
both modes, in every format of at least 24 significand bits and the range of binary32 or wider. -/
def Obligations.SobelModesAgree : Prop :=
  ∀ (p : Params) (b : Buffer) (x y : Nat), p.float.wf = true →
    p.ktab.sobelX = kernelSobelX → p.ktab.sobelY = kernelSobelY →
    p.ktabFloat.sobelX.w = kernelSobelX.w.map (fun c => .finite c.toInt 0) →
    p.ktabFloat.sobelY.w = kernelSobelY.w.map (fun c => .finite c.toInt 0) →
    sobelPixel p true b x y = sobelPixel p false b x y

/-- R172: with integer weights and Σ|w| ≤ 65793 the float sum S of nine products is exact; and conv_float is then the
floor of S·scale + bias, clamped, for a scale and a bias m·2^e (−149 ≤ e ≤ 0) such that the numerators of S·scale and of
S·scale + bias stay below 2^24, so that neither operation rounds. -/
def Obligations.FloatSumExact : Prop :=
  (∀ (f : FloatFormat) (w : Grid3 Int) (n : Grid3 Byte), f.wf = true →
    (w.toList.map Int.natAbs).sum ≤ 65793 →
    weightedSumFloat f (w.map (fun c => .finite c 0)) n
      = .finite ((w.toList.zip n.toList).map fun c => c.1 * (c.2.toNat : Int)).sum 0) ∧
  (∀ (f : FloatFormat) (w : Grid3 Int) (ms es mb eb : Int) (b : Buffer) (x y : Nat), f.wf = true →
    (w.toList.map Int.natAbs).sum ≤ 65793 → -149 ≤ es → es ≤ 0 → -149 ≤ eb → eb ≤ 0 →
    let sum := ((w.toList.zip (neighbours b x y).toList).map fun c => c.1 * (c.2.toNat : Int)).sum
    let e := min es eb
    let total := sum * ms * 2 ^ (es - e).toNat + mb * 2 ^ (eb - e).toNat
    (sum * ms).natAbs < 2 ^ 24 → total.natAbs < 2 ^ 24 →
    convFloat f { w := w.map (fun c => .finite c 0), scale := .finite ms es, bias := .finite mb eb } b x y
      = BitVec.ofInt 8 (clampInt (total / 2 ^ (-e).toNat)))

/-- R180: with s16 weights and u8 pixels the 32-bit two's complement accumulator holds the exact sum, which is at most
75,202,560 in magnitude; the shift does not enlarge the magnitude, and adding an s16 bias keeps it below 2^31; the
ranges of the sums of the default entries. -/
def Obligations.AccumulatorNeverOverflows : Prop :=
  ∀ (w : Grid3 (BitVec 16)) (p : Grid3 Byte),
    (accumulate32 w p).toInt = weightedSum w p ∧ (weightedSum w p).natAbs ≤ 75202560 ∧
    (∀ k : Kernel, k.w = w → (weightedSum w p / 2 ^ k.shift.toNat).natAbs ≤ (weightedSum w p).natAbs ∧
      (weightedSum w p / 2 ^ k.shift.toNat + k.bias.toInt).natAbs < 2 ^ 31) ∧
    (0 ≤ weightedSum kernelBlur.w p ∧ weightedSum kernelBlur.w p ≤ 133110) ∧
    (-1020 ≤ weightedSum kernelSharpen.w p ∧ weightedSum kernelSharpen.w p ≤ 1275) ∧
    (0 ≤ weightedSum kernelGaussian.w p ∧ weightedSum kernelGaussian.w p ≤ 4080) ∧
    (-1020 ≤ weightedSum kernelSobelX.w p ∧ weightedSum kernelSobelX.w p ≤ 1020) ∧
    (-1020 ≤ weightedSum kernelSobelY.w p ∧ weightedSum kernelSobelY.w p ≤ 1020)

/-- R181, R194: on a uniform input of value V, CONV.k in FIXED mode writes clamp(asr(V·Σw, shift) + bias) at every
interior pixel, which for the default entries is min(255, 522V >> 9), V, V, 0 and 0; and SOBEL.MAG writes 0 when the
weights of both Sobel entries sum to 0. The default entries are the spec's (G1 to G4, log 2). -/
def Obligations.UniformInput : Prop :=
  let pixel (k : Kernel) (v : Byte) : Byte := BitVec.ofInt 8 (clampInt
    ((v.toNat : Int) * (k.w.toList.map BitVec.toInt).sum / 2 ^ k.shift.toNat + k.bias.toInt))
  (∀ (s : State) (src dst : Buffer) (v : Byte), ConvOperands s src dst → s.modeFloat = false →
    (∀ a, a < src.width.toNat * src.height.toNat → s.byteAt s.ports.h0 a = v) →
    (∀ e ∈ [(Instr.convBlur, s.params.ktab.blur), (.convSharpen, s.params.ktab.sharpen),
        (.convGaussian, s.params.ktab.gaussian), (.convSobelX, s.params.ktab.sobelX),
        (.convSobelY, s.params.ktab.sobelY)],
      ∃ t, exec e.1 s = .next t ∧ InteriorWritten s t dst (fun _ _ => pixel e.2 v)) ∧
    ((s.params.ktab.sobelX.w.toList.map BitVec.toInt).sum = 0 →
      (s.params.ktab.sobelY.w.toList.map BitVec.toInt).sum = 0 →
      ∃ t, exec .sobelMag s = .next t ∧ InteriorWritten s t dst (fun _ _ => 0#8))) ∧
  (∀ v : Byte, (pixel kernelBlur v).toNat = min 255 (522 * v.toNat / 512) ∧ pixel kernelSharpen v = v ∧
    pixel kernelGaussian v = v ∧ pixel kernelSobelX v = 0#8 ∧ pixel kernelSobelY v = 0#8)

/-- R178, R193: with W < 3 or H < 3 there is no interior pixel: the operation succeeds and changes nothing but RC. -/
def Obligations.SmallFramesUnchanged : Prop :=
  ∀ (s : State) (src dst : Buffer), ConvOperands s src dst → (src.width.toNat < 3 ∨ src.height.toNat < 3) →
    ∀ i ∈ [Instr.convBlur, .convSharpen, .convGaussian, .convSobelX, .convSobelY, .sobelMag],
      exec i s = .next { s with rc := 0#3 }

/-- R168: the operands CONV.* and SOBEL.MAG refuse on the command port: a dead handle, a buffer that is not GRAY, the
same buffer twice, unequal dimensions. -/
def Obligations.ConvolutionsRefused : Prop :=
  ∀ s : State, s.running = false → s.fatal = false →
    ∀ i ∈ [Instr.convBlur, .convSharpen, .convGaussian, .convSobelX, .convSobelY, .sobelMag],
      (s.mem.find s.ports.h0 = none → exec i s = .refused (.deadHandle s.ports.h0)) ∧
      ∀ src, s.mem.find s.ports.h0 = some src → src.owner = .host →
        (s.mem.find s.ports.h1 = none → exec i s = .refused (.deadHandle s.ports.h1)) ∧
        ∀ dst, s.mem.find s.ports.h1 = some dst → dst.owner = .host →
          (src.elem = .rgb → exec i s = .refused (.wrongElementType s.ports.h0)) ∧
          (src.elem = .gray → dst.elem = .rgb → exec i s = .refused (.wrongElementType s.ports.h1)) ∧
          (src.elem = .gray → dst.elem = .gray → s.ports.h0 = s.ports.h1 → exec i s = .refused .sameBuffer) ∧
          (src.elem = .gray → dst.elem = .gray → s.ports.h0 ≠ s.ports.h1 →
            (src.width ≠ dst.width ∨ src.height ≠ dst.height) → exec i s = .refused .unequalDimensions)

/-- R46: the result of a datapath operation depends only on its operand buffers, the Kernel Table entry (two of them for
SOBEL.MAG) and CTRL.MODE, and in FLOAT mode on the parameter FLOAT: two states that agree on those leave the same
destination buffer and the same RC. And it changes nothing but the destination
buffer's store, and STATUS.DIM_MISMATCH for a conversion skipped on a mismatch. -/
def Obligations.DatapathPure : Prop :=
  ∀ i ∈ [Instr.cscConvert, .convBlur, .convSharpen, .convGaussian, .convSobelX, .convSobelY, .sobelMag],
    ∀ s t : State, exec i s = .next t →
      (∀ s' : State, s'.running = false → s'.fatal = false →
        s'.ports.h0 = s.ports.h0 → s'.ports.h1 = s.ports.h1 → s'.modeFloat = s.modeFloat → sameEntries i s.modeFloat s.params s'.params →
        s'.mem.find s.ports.h0 = s.mem.find s.ports.h0 → s'.mem.find s.ports.h1 = s.mem.find s.ports.h1 →
        ∃ t', exec i s' = .next t' ∧ t'.mem.find s.ports.h1 = t.mem.find s.ports.h1 ∧ t'.rc = t.rc) ∧
      t = { s with rc := t.rc, mem := t.mem, status := t.status } ∧
      (∀ k, k ≠ s.ports.h1 → t.mem.find k = s.mem.find k) ∧
      (∀ b, s.mem.find s.ports.h1 = some b → ∃ d, t.mem.find s.ports.h1 = some { b with data := d }) ∧
      ((t.status = s.status ∧ t.rc = 0#3) ∨
        (i = .cscConvert ∧ t.mem = s.mem ∧ t.status = s.status ||| 0x40#8 ∧ t.rc = 3#3))

/-! ### Scheduler actions -/

/-- R202, R214, R248, R259: ACT.OUTPUT hands the frame in PROC to Encode under OUT_CURSOR, destroys the buffer, clears
PROC and counts; on IOError it also sets STATUS.ENC_ERR and RC = 4 and goes on. -/
def Obligations.ActOutputCompletes : Prop :=
  ∀ (s : State) (h : Nat) (b : Buffer), s.running = false → s.fatal = false → s.mem.wf = true →
    s.proc = some h → s.mem.find h = some b →
    ∃ t, exec .actOutput s = .next t ∧ t.mem.find h = none ∧ (∀ k, k ≠ h → t.mem.find k = s.mem.find k) ∧
      t = { s with
        proc := none, outCursor := s.outCursor + 1#32, mem := t.mem,
        rc := (match s.encodeAnswer s.outCursor.toNat b with | .success => 0#3 | .ioError => 4#3),
        status := (match s.encodeAnswer s.outCursor.toNat b with
          | .success => s.status | .ioError => s.status ||| 0x80#8),
        env := { s.env with encodes := s.env.encodes.tail, calls := s.env.calls ++
          [.encode s.outCursor.toNat b.width.toNat b.height.toNat b.grid (s.encodeAnswer s.outCursor.toNat b)] } }

/-- R200, R206: an action whose condition is false changes no state and calls no oracle, and a tick in which every
register is EMPTY and IN_CURSOR = TOTAL changes only TICK (on the command port RC becomes 0). -/
def Obligations.IdleActionsDoNothing : Prop :=
  ∀ s : State, s.running = false → s.fatal = false →
    (s.proc = none → exec .actOutput s = .next { s with rc := 0#3 }) ∧
    (s.gray = none → exec .actFilter s = .next { s with rc := 0#3 }) ∧
    (s.raw = none → exec .actConvert s = .next { s with rc := 0#3 }) ∧
    (¬ s.inCursor.toNat < s.total.toNat → exec .actInput s = .next { s with rc := 0#3 }) ∧
    (s.phase = .idle → s.raw = none → s.gray = none → s.proc = none → s.inCursor = s.total →
      exec .tick s = .next { s with rc := 0#3, tick := s.tick + 1#32 })

/-- R203, R208, R209: ACT.FILTER on the frame in GRAY, in a sound state with PROC and the slots EMPTY and the allocator
answering yes: PROC names the buffer with the chain's result, the scratch when the number of passes is odd and the
original when it is even; the other one of the two is dead. -/
def Obligations.ActFilterCompletes : Prop :=
  ∀ (s : State) (g : Nat) (b : Buffer), Owned s → s.running = false → s.fatal = false → s.gray = some g →
    s.mem.find g = some b → s.ppSrc = none → s.ppDst = none → s.proc = none →
    s.allocAnswer .gray b.width.toNat b.height.toNat = true →
    let odd := passCount s.enGauss s.enSharp s.enSobel % 2 = 1
    let result := if odd then s.nextHandle else g
    let other := if odd then g else s.nextHandle
    ∃ t, exec .actFilter s = .next t ∧
      t.mem.find result =
        some { filterChain s.params s.modeFloat s.enGauss s.enSharp s.enSobel b with owner := .proc } ∧
      t.mem.find other = none ∧ (∀ k, k ≠ result → k ≠ other → t.mem.find k = s.mem.find k) ∧
      t = { s with rc := 0#3, gray := none, proc := some result, nextHandle := s.nextHandle + 1, mem := t.mem,
                   env := { s.env with allocs := s.env.allocs.tail, calls := s.env.calls ++
                     [.allocOk .gray b.width.toNat b.height.toNat true] } }

/-- R216: through the chain no border element is written: the border of the result is 0 when the number of passes is odd
and the border of the gray frame when it is even. -/
def Obligations.ChainBorder : Prop :=
  ∀ (p : Params) (float gauss sharp sobel : Bool) (g : Buffer) (x y : Nat), g.wf = true → g.elem = .gray →
    ¬ (1 ≤ x ∧ x + 2 ≤ g.width.toNat ∧ 1 ≤ y ∧ y + 2 ≤ g.height.toNat) →
    (filterChain p float gauss sharp sobel g).getGray x y
      = if passCount gauss sharp sobel % 2 = 1 then 0#8 else g.getGray x y

/-- R204: ACT.CONVERT on the frame in RAW, in a sound state with GRAY and CSC.OUT EMPTY and the allocator answering yes:
the new gray buffer holds the luma of every pixel, RAW's buffer is dead. -/
def Obligations.ActConvertCompletes : Prop :=
  ∀ (s : State) (r : Nat) (b : Buffer), Owned s → s.running = false → s.fatal = false → s.raw = some r →
    s.mem.find r = some b → s.cscOut = none → s.gray = none →
    s.allocAnswer .gray b.width.toNat b.height.toNat = true →
    ∃ t c, exec .actConvert s = .next t ∧ t.mem.find s.nextHandle = some c ∧
      c.elem = .gray ∧ c.width = b.width ∧ c.height = b.height ∧ c.owner = .gray ∧
      (∀ x y : Nat, x < b.width.toNat → y < b.height.toNat →
        c.getGray x y = lumaPixel s.params s.modeFloat (b.getRgb x y)) ∧
      t.mem.find r = none ∧ (∀ k, k ≠ s.nextHandle → k ≠ r → t.mem.find k = s.mem.find k) ∧
      t = { s with rc := 0#3, raw := none, gray := some s.nextHandle, nextHandle := s.nextHandle + 1, mem := t.mem,
                   env := { s.env with allocs := s.env.allocs.tail, calls := s.env.calls ++
                     [.allocOk .gray b.width.toNat b.height.toNat true] } }

/-- R205, R258: ACT.INPUT on a grid that Decode answers, RAW EMPTY and the allocator answering yes: the new RGB buffer
holds the pixels in row-major order, RAW names it, IN_CURSOR counts it. A grid that meets Decode's contract is such a
grid. -/
def Obligations.ActInputAcceptsGrid : Prop :=
  (∀ (s : State) (id : Ident) (w h : Nat) (px : List Pixel), s.running = false → s.fatal = false →
    s.inCursor.toNat < s.total.toNat → s.pending[s.inCursor.toNat]? = some id → s.raw = none →
    s.decodeAnswer id = .grid w h px → 1 ≤ w → w ≤ 65535 → 1 ≤ h → h ≤ 65535 → px.length = w * h →
    (s.afterDecode id).allocAnswer .rgb w h = true →
    ∃ t b, exec .actInput s = .next t ∧ t.mem.find s.nextHandle = some b ∧
      b.elem = .rgb ∧ b.width.toNat = w ∧ b.height.toNat = h ∧ b.owner = .raw ∧
      (∀ x y : Nat, x < w → y < h → some (b.getRgb x y) = px[y * w + x]?) ∧
      (∀ k, k ≠ s.nextHandle → t.mem.find k = s.mem.find k) ∧
      t = { s with rc := 0#3, raw := some s.nextHandle, inCursor := s.inCursor + 1#32, nextHandle := s.nextHandle + 1,
                   mem := t.mem,
                   env := { s.env with allocs := s.env.allocs.tail, decodes := s.env.decodes.tail,
                                       calls := s.env.calls ++ [.decode id (.grid w h px), .allocOk .rgb w h true] } }) ∧
  (∀ (w h : Nat) (px : List Pixel), (decodeContract w h px = true ↔
      4 ≤ w ∧ w % 4 = 0 ∧ w ≤ 1920 ∧ 1 ≤ h ∧ h ≤ 1080 ∧ px.length = w * h) ∧
    (decodeContract w h px = true → gridOk w h px = true))

/-- R246, R205, R245: on a decode error ACT.INPUT sets DEC_FAIL, writes the cause, truncates TOTAL to IN_CURSOR, and
changes nothing else but RC = 2. R258 (U11): a grid with W = 0, H = 0 or a dimension above 65535 is refused; so is one
whose pixel count is not W·H (the model's, log 12). -/
def Obligations.ActInputDecodeFailure : Prop :=
  (∀ (s : State) (id : Ident) (c : DecodeError), s.running = false → s.fatal = false →
    s.inCursor.toNat < s.total.toNat → s.pending[s.inCursor.toNat]? = some id → s.decodeAnswer id = .error c →
    ∃ t, exec .actInput s = .next t ∧ t.decFail = true ∧
      t.decCause.toNat = (match c with
        | .invalidFormat => 1 | .resolutionExceeded => 2 | .rowAlignmentViolation => 3
        | .unsupportedChannelDepth => 4) ∧
      t.done = s.done ∧ t.fatal = s.fatal ∧ t.dimMismatch = s.dimMismatch ∧ t.encErr = s.encErr ∧
      t = { s with rc := 2#3, total := s.inCursor, status := t.status,
                   env := { s.env with decodes := s.env.decodes.tail,
                                       calls := s.env.calls ++ [.decode id (.error c)] } }) ∧
  (∀ (s : State) (id : Ident) (w h : Nat) (px : List Pixel), s.running = false → s.fatal = false →
    s.inCursor.toNat < s.total.toNat → s.pending[s.inCursor.toNat]? = some id → s.decodeAnswer id = .grid w h px →
    (w = 0 ∨ h = 0 ∨ 65535 < w ∨ 65535 < h ∨ px.length ≠ w * h) → exec .actInput s = .refused .badGrid)

/-- R243, R244, R206, R207: when the allocator answers no, ACT.FILTER, ACT.CONVERT and ACT.INPUT end in the fatal abort,
with STATUS.FATAL and RC = 1 and DONE not set; and so does a tick, of TICK or of RUN, one of whose actions' requests is
answered no, the failing request being its last call. -/
def Obligations.ActionsAbortOnAllocation : Prop :=
  (∀ s : State, Owned s → s.running = false → s.fatal = false →
    (∀ g b, s.gray = some g → s.mem.find g = some b → s.ppSrc = none → s.ppDst = none →
      s.allocAnswer .gray b.width.toNat b.height.toNat = false →
      ∃ a, exec .actFilter s = .fault (.allocationError a) ∧ a.fatal = true ∧ a.done = s.done ∧ a.rc = 1#3) ∧
    (∀ r b, s.raw = some r → s.mem.find r = some b → s.cscOut = none →
      s.allocAnswer .gray b.width.toNat b.height.toNat = false →
      ∃ a, exec .actConvert s = .fault (.allocationError a) ∧ a.fatal = true ∧ a.done = s.done ∧ a.rc = 1#3) ∧
    (∀ id w h px, s.inCursor.toNat < s.total.toNat → s.pending[s.inCursor.toNat]? = some id → s.raw = none →
      s.decodeAnswer id = .grid w h px → gridOk w h px = true → (s.afterDecode id).allocAnswer .rgb w h = false →
      ∃ a, exec .actInput s = .fault (.allocationError a) ∧ a.fatal = true ∧ a.done = s.done ∧ a.rc = 1#3)) ∧
  (∀ s : State, TickStarved s → s.fatal = false →
    (s.running = false → AbortedFrom s (exec .tick s)) ∧
    (s.done = false → s.outCursor.toNat < s.total.toNat → AbortedFrom s (exec .run s)))

/-! ### TICK and RUN -/

/-- R210, R206: TICK from a tick-boundary state, with the allocations answered yes, completes and is the simultaneous
assignment of R210, with the oracle calls in R210's order. RC is 0 or the code of a condition one of these calls raised
(R240); which of them is free (log 9). -/
def Obligations.TickCompletes : Prop :=
  ∀ s : State, TickReady s → s.running = false → s.fatal = false →
    ∃ t, exec .tick s = .next t ∧ TickTransfer s t ∧ t.running = false ∧
      (t.rc = 0#3 ∨ t.rc ∈ s.tickCalls.filterMap OracleCall.code)

/-- R207: RUN while OUT_CURSOR < TOTAL makes one tick per step (log 8), the same register transfer, and the run is then
active. RC is as before the tick (0 in the run's first one) or the code of a condition the tick's calls raised (R240);
which of them is free (log 9). -/
def Obligations.RunTicks : Prop :=
  ∀ s : State, TickReady s → s.fatal = false → s.done = false → s.outCursor.toNat < s.total.toNat →
    ∃ t, exec .run s = .next t ∧ TickTransfer s t ∧ t.running = true ∧
      (t.rc = (if s.running then s.rc else 0#3) ∨ t.rc ∈ s.tickCalls.filterMap OracleCall.code)

/-- R207: RUN with OUT_CURSOR not below TOTAL sets DONE and ends the run, without a tick. -/
def Obligations.RunFinishes : Prop :=
  ∀ s : State, s.fatal = false → s.done = false → ¬ s.outCursor.toNat < s.total.toNat →
    exec .run s = .next { s with status := s.status ||| 0x01#8, running := false,
                                 rc := if s.running then s.rc else 0#3 }

/-- R217, R45: when a run in a run state ends, OUT_CURSOR = TOTAL = IN_CURSOR, the registers and the slots are EMPTY, and
no buffer is live. -/
def Obligations.RunEndState : Prop :=
  ∀ s : State, InRun s → s.running = true → ¬ s.outCursor.toNat < s.total.toNat →
    ∃ t, exec .run s = .next t ∧ t.done = true ∧ t.fatal = false ∧ t.running = false ∧
      t.outCursor = t.total ∧ t.inCursor = t.total ∧ t.raw = none ∧ t.gray = none ∧ t.proc = none ∧
      t.ppSrc = none ∧ t.ppDst = none ∧ t.cscOut = none ∧ t.mem = []

/-- R284: every tick of a run makes the work left smaller, so no run ticks for ever. -/
def Obligations.TickMakesProgress : Prop :=
  ∀ s t : State, InRun s → s.outCursor.toNat < s.total.toNat → exec .run s = .next t → t.workLeft < s.workLeft

/-! ### Invariants and whole-machine rules -/

/-- R128, R22, R23: every step keeps ownership and the canonical form of memory. -/
def Obligations.OwnedKept : Prop :=
  ∀ s t : State, Owned s → step s = .next t → Owned t

/-- R31 to R37: every step keeps the control registers sound. -/
def Obligations.ControlKept : Prop :=
  ∀ s t : State, Control s → step s = .next t → Control t

/-- R41, R45, R29: every step of an active run, and RUN itself from a run state, leaves a run state. -/
def Obligations.InRunKept : Prop :=
  (∀ s t : State, InRun s → s.running = true → step s = .next t → InRun t) ∧
  (∀ s t : State, InRun s → exec .run s = .next t → InRun t)

/-- The reset state meets the three invariants. -/
def Obligations.ResetSound : Prop :=
  Owned State.reset ∧ Control State.reset ∧ InRun State.reset

/-- R29, R23, R98: in a run state the live buffers are exactly those named by non-EMPTY registers, each by one; the same by
register number, of which 3 names none. -/
def Obligations.LiveBuffersAreRegisters : Prop :=
  ∀ s : State, InRun s → ∀ h,
    ((∃ b, s.mem.find h = some b) ↔ (s.raw = some h ∨ s.gray = some h ∨ s.proc = some h)) ∧
    ¬ (s.raw = some h ∧ s.gray = some h) ∧ ¬ (s.raw = some h ∧ s.proc = some h) ∧
    ¬ (s.gray = some h ∧ s.proc = some h) ∧
    ((∃ b, s.mem.find h = some b) ↔ ∃ n, s.regAt n = some (some h)) ∧
    (∀ n m, s.regAt n = some (some h) → s.regAt m = some (some h) → n = m) ∧
    s.regAt 0 = some s.raw ∧ s.regAt 1 = some s.gray ∧ s.regAt 2 = some s.proc ∧ s.regAt 3 = none

/-- R31, R38, R40, R279, R280: no operation changes CTRL or PENDING, takes an input from the host's list or writes the
operand ports, and no step at all changes the Kernel Tables or the floating-point format. -/
def Obligations.ConfigurationConstant : Prop :=
  (∀ (i : Instr) (s t : State), exec i s = .next t →
    t.ctrl = s.ctrl ∧ t.pending = s.pending ∧ t.host = s.host ∧ t.ports = s.ports) ∧
  (∀ s t : State, step s = .next t → t.params = s.params)

/-- R32: STATUS bits are sticky: no operation clears one that is 1 (in a state whose control registers are sound, where
DEC_CAUSE is written at most once). -/
def Obligations.StatusSticky : Prop :=
  ∀ (i : Instr) (s t : State), Control s → exec i s = .next t → s.status &&& t.status = s.status

/-- R30: only the actions, TICK and RUN write CR1 to CR6, but for CSC.CONVERT, which can set STATUS.DIM_MISMATCH. -/
def Obligations.DatapathLeavesControlRegisters : Prop :=
  ∀ i ∈ [Instr.fbCreate .gray, .fbCreate .rgb, .fbGet, .fbSet, .fbDestroy, .ppSwap, .cscConvert, .convBlur,
      .convSharpen, .convGaussian, .convSobelX, .convSobelY, .sobelMag] ++
      [Instr.fbMove .raw, .fbMove .gray, .fbMove .proc, .fbMove .ppSrc, .fbMove .ppDst, .fbMove .cscOut, .fbMove .host],
    ∀ s t : State, exec i s = .next t →
      t.inCursor = s.inCursor ∧ t.outCursor = s.outCursor ∧ t.total = s.total ∧ t.phase = s.phase ∧
      t.tick = s.tick ∧ t.running = s.running ∧
      (t.status = s.status ∨ (i = .cscConvert ∧ t.status = s.status ||| 0x40#8))

/-- R213: the tick counter steers nothing: with another value of TICK every operation ends the same way, in the same
refusal, or in a next state or a fault whose state differs in TICK only. -/
def Obligations.TickCounterSteersNothing : Prop :=
  ∀ (i : Instr) (s : State) (n : BitVec 32), ∃ m, exec i { s with tick := n } = tickReplaced m (exec i s)

end Statements
end

