-- ==== Sys2Proof/Laws/State.lean ====
section
/-!
SUPPORT. One lemma per field per named update of the state, so that no later proof unfolds an update; and what reading
a holder gives after writing one.
-/
namespace Sys2Proof.Machine

/-! ### State.putBuffer -/

@[simp] theorem State.putBuffer_raw (s : State) (h : Nat) (b : Buffer) : (s.putBuffer h b).raw = s.raw := rfl
@[simp] theorem State.putBuffer_gray (s : State) (h : Nat) (b : Buffer) : (s.putBuffer h b).gray = s.gray := rfl
@[simp] theorem State.putBuffer_proc (s : State) (h : Nat) (b : Buffer) : (s.putBuffer h b).proc = s.proc := rfl
@[simp] theorem State.putBuffer_ppSrc (s : State) (h : Nat) (b : Buffer) : (s.putBuffer h b).ppSrc = s.ppSrc := rfl
@[simp] theorem State.putBuffer_ppDst (s : State) (h : Nat) (b : Buffer) : (s.putBuffer h b).ppDst = s.ppDst := rfl
@[simp] theorem State.putBuffer_cscOut (s : State) (h : Nat) (b : Buffer) : (s.putBuffer h b).cscOut = s.cscOut := rfl
@[simp] theorem State.putBuffer_mem (s : State) (h : Nat) (b : Buffer) : (s.putBuffer h b).mem = s.mem.put h b := rfl
@[simp] theorem State.putBuffer_nextHandle (s : State) (h : Nat) (b : Buffer) : (s.putBuffer h b).nextHandle = s.nextHandle := rfl
@[simp] theorem State.putBuffer_ctrl (s : State) (h : Nat) (b : Buffer) : (s.putBuffer h b).ctrl = s.ctrl := rfl
@[simp] theorem State.putBuffer_status (s : State) (h : Nat) (b : Buffer) : (s.putBuffer h b).status = s.status := rfl
@[simp] theorem State.putBuffer_inCursor (s : State) (h : Nat) (b : Buffer) : (s.putBuffer h b).inCursor = s.inCursor := rfl
@[simp] theorem State.putBuffer_outCursor (s : State) (h : Nat) (b : Buffer) : (s.putBuffer h b).outCursor = s.outCursor := rfl
@[simp] theorem State.putBuffer_total (s : State) (h : Nat) (b : Buffer) : (s.putBuffer h b).total = s.total := rfl
@[simp] theorem State.putBuffer_phase (s : State) (h : Nat) (b : Buffer) : (s.putBuffer h b).phase = s.phase := rfl
@[simp] theorem State.putBuffer_tick (s : State) (h : Nat) (b : Buffer) : (s.putBuffer h b).tick = s.tick := rfl
@[simp] theorem State.putBuffer_pending (s : State) (h : Nat) (b : Buffer) : (s.putBuffer h b).pending = s.pending := rfl
@[simp] theorem State.putBuffer_running (s : State) (h : Nat) (b : Buffer) : (s.putBuffer h b).running = s.running := rfl
@[simp] theorem State.putBuffer_params (s : State) (h : Nat) (b : Buffer) : (s.putBuffer h b).params = s.params := rfl
@[simp] theorem State.putBuffer_ports (s : State) (h : Nat) (b : Buffer) : (s.putBuffer h b).ports = s.ports := rfl
@[simp] theorem State.putBuffer_rh (s : State) (h : Nat) (b : Buffer) : (s.putBuffer h b).rh = s.rh := rfl
@[simp] theorem State.putBuffer_rv (s : State) (h : Nat) (b : Buffer) : (s.putBuffer h b).rv = s.rv := rfl
@[simp] theorem State.putBuffer_rc (s : State) (h : Nat) (b : Buffer) : (s.putBuffer h b).rc = s.rc := rfl
@[simp] theorem State.putBuffer_crData (s : State) (h : Nat) (b : Buffer) : (s.putBuffer h b).crData = s.crData := rfl
@[simp] theorem State.putBuffer_host (s : State) (h : Nat) (b : Buffer) : (s.putBuffer h b).host = s.host := rfl
@[simp] theorem State.putBuffer_env (s : State) (h : Nat) (b : Buffer) : (s.putBuffer h b).env = s.env := rfl

/-! ### State.setHolder -/

@[simp] theorem State.setHolder_mem (s : State) (o : OwnerTag) (v : Option Nat) : (s.setHolder o v).mem = s.mem := by cases o <;> rfl
@[simp] theorem State.setHolder_nextHandle (s : State) (o : OwnerTag) (v : Option Nat) : (s.setHolder o v).nextHandle = s.nextHandle := by cases o <;> rfl
@[simp] theorem State.setHolder_ctrl (s : State) (o : OwnerTag) (v : Option Nat) : (s.setHolder o v).ctrl = s.ctrl := by cases o <;> rfl
@[simp] theorem State.setHolder_status (s : State) (o : OwnerTag) (v : Option Nat) : (s.setHolder o v).status = s.status := by cases o <;> rfl
@[simp] theorem State.setHolder_inCursor (s : State) (o : OwnerTag) (v : Option Nat) : (s.setHolder o v).inCursor = s.inCursor := by cases o <;> rfl
@[simp] theorem State.setHolder_outCursor (s : State) (o : OwnerTag) (v : Option Nat) : (s.setHolder o v).outCursor = s.outCursor := by cases o <;> rfl
@[simp] theorem State.setHolder_total (s : State) (o : OwnerTag) (v : Option Nat) : (s.setHolder o v).total = s.total := by cases o <;> rfl
@[simp] theorem State.setHolder_phase (s : State) (o : OwnerTag) (v : Option Nat) : (s.setHolder o v).phase = s.phase := by cases o <;> rfl
@[simp] theorem State.setHolder_tick (s : State) (o : OwnerTag) (v : Option Nat) : (s.setHolder o v).tick = s.tick := by cases o <;> rfl
@[simp] theorem State.setHolder_pending (s : State) (o : OwnerTag) (v : Option Nat) : (s.setHolder o v).pending = s.pending := by cases o <;> rfl
@[simp] theorem State.setHolder_running (s : State) (o : OwnerTag) (v : Option Nat) : (s.setHolder o v).running = s.running := by cases o <;> rfl
@[simp] theorem State.setHolder_params (s : State) (o : OwnerTag) (v : Option Nat) : (s.setHolder o v).params = s.params := by cases o <;> rfl
@[simp] theorem State.setHolder_ports (s : State) (o : OwnerTag) (v : Option Nat) : (s.setHolder o v).ports = s.ports := by cases o <;> rfl
@[simp] theorem State.setHolder_rh (s : State) (o : OwnerTag) (v : Option Nat) : (s.setHolder o v).rh = s.rh := by cases o <;> rfl
@[simp] theorem State.setHolder_rv (s : State) (o : OwnerTag) (v : Option Nat) : (s.setHolder o v).rv = s.rv := by cases o <;> rfl
@[simp] theorem State.setHolder_rc (s : State) (o : OwnerTag) (v : Option Nat) : (s.setHolder o v).rc = s.rc := by cases o <;> rfl
@[simp] theorem State.setHolder_crData (s : State) (o : OwnerTag) (v : Option Nat) : (s.setHolder o v).crData = s.crData := by cases o <;> rfl
@[simp] theorem State.setHolder_host (s : State) (o : OwnerTag) (v : Option Nat) : (s.setHolder o v).host = s.host := by cases o <;> rfl
@[simp] theorem State.setHolder_env (s : State) (o : OwnerTag) (v : Option Nat) : (s.setHolder o v).env = s.env := by cases o <;> rfl

/-! ### State.afterAlloc -/

@[simp] theorem State.afterAlloc_raw (s : State) (t : ElemType) (w h : Nat) : (s.afterAlloc t w h).raw = s.raw := rfl
@[simp] theorem State.afterAlloc_gray (s : State) (t : ElemType) (w h : Nat) : (s.afterAlloc t w h).gray = s.gray := rfl
@[simp] theorem State.afterAlloc_proc (s : State) (t : ElemType) (w h : Nat) : (s.afterAlloc t w h).proc = s.proc := rfl
@[simp] theorem State.afterAlloc_ppSrc (s : State) (t : ElemType) (w h : Nat) : (s.afterAlloc t w h).ppSrc = s.ppSrc := rfl
@[simp] theorem State.afterAlloc_ppDst (s : State) (t : ElemType) (w h : Nat) : (s.afterAlloc t w h).ppDst = s.ppDst := rfl
@[simp] theorem State.afterAlloc_cscOut (s : State) (t : ElemType) (w h : Nat) : (s.afterAlloc t w h).cscOut = s.cscOut := rfl
@[simp] theorem State.afterAlloc_mem (s : State) (t : ElemType) (w h : Nat) : (s.afterAlloc t w h).mem = s.mem := rfl
@[simp] theorem State.afterAlloc_nextHandle (s : State) (t : ElemType) (w h : Nat) : (s.afterAlloc t w h).nextHandle = s.nextHandle := rfl
@[simp] theorem State.afterAlloc_ctrl (s : State) (t : ElemType) (w h : Nat) : (s.afterAlloc t w h).ctrl = s.ctrl := rfl
@[simp] theorem State.afterAlloc_status (s : State) (t : ElemType) (w h : Nat) : (s.afterAlloc t w h).status = s.status := rfl
@[simp] theorem State.afterAlloc_inCursor (s : State) (t : ElemType) (w h : Nat) : (s.afterAlloc t w h).inCursor = s.inCursor := rfl
@[simp] theorem State.afterAlloc_outCursor (s : State) (t : ElemType) (w h : Nat) : (s.afterAlloc t w h).outCursor = s.outCursor := rfl
@[simp] theorem State.afterAlloc_total (s : State) (t : ElemType) (w h : Nat) : (s.afterAlloc t w h).total = s.total := rfl
@[simp] theorem State.afterAlloc_phase (s : State) (t : ElemType) (w h : Nat) : (s.afterAlloc t w h).phase = s.phase := rfl
@[simp] theorem State.afterAlloc_tick (s : State) (t : ElemType) (w h : Nat) : (s.afterAlloc t w h).tick = s.tick := rfl
@[simp] theorem State.afterAlloc_pending (s : State) (t : ElemType) (w h : Nat) : (s.afterAlloc t w h).pending = s.pending := rfl
@[simp] theorem State.afterAlloc_running (s : State) (t : ElemType) (w h : Nat) : (s.afterAlloc t w h).running = s.running := rfl
@[simp] theorem State.afterAlloc_params (s : State) (t : ElemType) (w h : Nat) : (s.afterAlloc t w h).params = s.params := rfl
@[simp] theorem State.afterAlloc_ports (s : State) (t : ElemType) (w h : Nat) : (s.afterAlloc t w h).ports = s.ports := rfl
@[simp] theorem State.afterAlloc_rh (s : State) (t : ElemType) (w h : Nat) : (s.afterAlloc t w h).rh = s.rh := rfl
@[simp] theorem State.afterAlloc_rv (s : State) (t : ElemType) (w h : Nat) : (s.afterAlloc t w h).rv = s.rv := rfl
@[simp] theorem State.afterAlloc_rc (s : State) (t : ElemType) (w h : Nat) : (s.afterAlloc t w h).rc = s.rc := rfl
@[simp] theorem State.afterAlloc_crData (s : State) (t : ElemType) (w h : Nat) : (s.afterAlloc t w h).crData = s.crData := rfl
@[simp] theorem State.afterAlloc_host (s : State) (t : ElemType) (w h : Nat) : (s.afterAlloc t w h).host = s.host := rfl

/-! ### State.afterDecode -/

@[simp] theorem State.afterDecode_raw (s : State) (id : Ident) : (s.afterDecode id).raw = s.raw := rfl
@[simp] theorem State.afterDecode_gray (s : State) (id : Ident) : (s.afterDecode id).gray = s.gray := rfl
@[simp] theorem State.afterDecode_proc (s : State) (id : Ident) : (s.afterDecode id).proc = s.proc := rfl
@[simp] theorem State.afterDecode_ppSrc (s : State) (id : Ident) : (s.afterDecode id).ppSrc = s.ppSrc := rfl
@[simp] theorem State.afterDecode_ppDst (s : State) (id : Ident) : (s.afterDecode id).ppDst = s.ppDst := rfl
@[simp] theorem State.afterDecode_cscOut (s : State) (id : Ident) : (s.afterDecode id).cscOut = s.cscOut := rfl
@[simp] theorem State.afterDecode_mem (s : State) (id : Ident) : (s.afterDecode id).mem = s.mem := rfl
@[simp] theorem State.afterDecode_nextHandle (s : State) (id : Ident) : (s.afterDecode id).nextHandle = s.nextHandle := rfl
@[simp] theorem State.afterDecode_ctrl (s : State) (id : Ident) : (s.afterDecode id).ctrl = s.ctrl := rfl
@[simp] theorem State.afterDecode_status (s : State) (id : Ident) : (s.afterDecode id).status = s.status := rfl
@[simp] theorem State.afterDecode_inCursor (s : State) (id : Ident) : (s.afterDecode id).inCursor = s.inCursor := rfl
@[simp] theorem State.afterDecode_outCursor (s : State) (id : Ident) : (s.afterDecode id).outCursor = s.outCursor := rfl
@[simp] theorem State.afterDecode_total (s : State) (id : Ident) : (s.afterDecode id).total = s.total := rfl
@[simp] theorem State.afterDecode_phase (s : State) (id : Ident) : (s.afterDecode id).phase = s.phase := rfl
@[simp] theorem State.afterDecode_tick (s : State) (id : Ident) : (s.afterDecode id).tick = s.tick := rfl
@[simp] theorem State.afterDecode_pending (s : State) (id : Ident) : (s.afterDecode id).pending = s.pending := rfl
@[simp] theorem State.afterDecode_running (s : State) (id : Ident) : (s.afterDecode id).running = s.running := rfl
@[simp] theorem State.afterDecode_params (s : State) (id : Ident) : (s.afterDecode id).params = s.params := rfl
@[simp] theorem State.afterDecode_ports (s : State) (id : Ident) : (s.afterDecode id).ports = s.ports := rfl
@[simp] theorem State.afterDecode_rh (s : State) (id : Ident) : (s.afterDecode id).rh = s.rh := rfl
@[simp] theorem State.afterDecode_rv (s : State) (id : Ident) : (s.afterDecode id).rv = s.rv := rfl
@[simp] theorem State.afterDecode_rc (s : State) (id : Ident) : (s.afterDecode id).rc = s.rc := rfl
@[simp] theorem State.afterDecode_crData (s : State) (id : Ident) : (s.afterDecode id).crData = s.crData := rfl
@[simp] theorem State.afterDecode_host (s : State) (id : Ident) : (s.afterDecode id).host = s.host := rfl

/-! ### State.afterEncode -/

@[simp] theorem State.afterEncode_raw (s : State) (id : Nat) (b : Buffer) : (s.afterEncode id b).raw = s.raw := rfl
@[simp] theorem State.afterEncode_gray (s : State) (id : Nat) (b : Buffer) : (s.afterEncode id b).gray = s.gray := rfl
@[simp] theorem State.afterEncode_proc (s : State) (id : Nat) (b : Buffer) : (s.afterEncode id b).proc = s.proc := rfl
@[simp] theorem State.afterEncode_ppSrc (s : State) (id : Nat) (b : Buffer) : (s.afterEncode id b).ppSrc = s.ppSrc := rfl
@[simp] theorem State.afterEncode_ppDst (s : State) (id : Nat) (b : Buffer) : (s.afterEncode id b).ppDst = s.ppDst := rfl
@[simp] theorem State.afterEncode_cscOut (s : State) (id : Nat) (b : Buffer) : (s.afterEncode id b).cscOut = s.cscOut := rfl
@[simp] theorem State.afterEncode_mem (s : State) (id : Nat) (b : Buffer) : (s.afterEncode id b).mem = s.mem := rfl
@[simp] theorem State.afterEncode_nextHandle (s : State) (id : Nat) (b : Buffer) : (s.afterEncode id b).nextHandle = s.nextHandle := rfl
@[simp] theorem State.afterEncode_ctrl (s : State) (id : Nat) (b : Buffer) : (s.afterEncode id b).ctrl = s.ctrl := rfl
@[simp] theorem State.afterEncode_status (s : State) (id : Nat) (b : Buffer) : (s.afterEncode id b).status = s.status := rfl
@[simp] theorem State.afterEncode_inCursor (s : State) (id : Nat) (b : Buffer) : (s.afterEncode id b).inCursor = s.inCursor := rfl
@[simp] theorem State.afterEncode_outCursor (s : State) (id : Nat) (b : Buffer) : (s.afterEncode id b).outCursor = s.outCursor := rfl
@[simp] theorem State.afterEncode_total (s : State) (id : Nat) (b : Buffer) : (s.afterEncode id b).total = s.total := rfl
@[simp] theorem State.afterEncode_phase (s : State) (id : Nat) (b : Buffer) : (s.afterEncode id b).phase = s.phase := rfl
@[simp] theorem State.afterEncode_tick (s : State) (id : Nat) (b : Buffer) : (s.afterEncode id b).tick = s.tick := rfl
@[simp] theorem State.afterEncode_pending (s : State) (id : Nat) (b : Buffer) : (s.afterEncode id b).pending = s.pending := rfl
@[simp] theorem State.afterEncode_running (s : State) (id : Nat) (b : Buffer) : (s.afterEncode id b).running = s.running := rfl
@[simp] theorem State.afterEncode_params (s : State) (id : Nat) (b : Buffer) : (s.afterEncode id b).params = s.params := rfl
@[simp] theorem State.afterEncode_ports (s : State) (id : Nat) (b : Buffer) : (s.afterEncode id b).ports = s.ports := rfl
@[simp] theorem State.afterEncode_rh (s : State) (id : Nat) (b : Buffer) : (s.afterEncode id b).rh = s.rh := rfl
@[simp] theorem State.afterEncode_rv (s : State) (id : Nat) (b : Buffer) : (s.afterEncode id b).rv = s.rv := rfl
@[simp] theorem State.afterEncode_rc (s : State) (id : Nat) (b : Buffer) : (s.afterEncode id b).rc = s.rc := rfl
@[simp] theorem State.afterEncode_crData (s : State) (id : Nat) (b : Buffer) : (s.afterEncode id b).crData = s.crData := rfl
@[simp] theorem State.afterEncode_host (s : State) (id : Nat) (b : Buffer) : (s.afterEncode id b).host = s.host := rfl

/-! ### raiseDecodeFailure -/

@[simp] theorem raiseDecodeFailure_raw (s : State) (c : DecodeError) : (raiseDecodeFailure s c).raw = s.raw := rfl
@[simp] theorem raiseDecodeFailure_gray (s : State) (c : DecodeError) : (raiseDecodeFailure s c).gray = s.gray := rfl
@[simp] theorem raiseDecodeFailure_proc (s : State) (c : DecodeError) : (raiseDecodeFailure s c).proc = s.proc := rfl
@[simp] theorem raiseDecodeFailure_ppSrc (s : State) (c : DecodeError) : (raiseDecodeFailure s c).ppSrc = s.ppSrc := rfl
@[simp] theorem raiseDecodeFailure_ppDst (s : State) (c : DecodeError) : (raiseDecodeFailure s c).ppDst = s.ppDst := rfl
@[simp] theorem raiseDecodeFailure_cscOut (s : State) (c : DecodeError) : (raiseDecodeFailure s c).cscOut = s.cscOut := rfl
@[simp] theorem raiseDecodeFailure_mem (s : State) (c : DecodeError) : (raiseDecodeFailure s c).mem = s.mem := rfl
@[simp] theorem raiseDecodeFailure_nextHandle (s : State) (c : DecodeError) : (raiseDecodeFailure s c).nextHandle = s.nextHandle := rfl
@[simp] theorem raiseDecodeFailure_ctrl (s : State) (c : DecodeError) : (raiseDecodeFailure s c).ctrl = s.ctrl := rfl
@[simp] theorem raiseDecodeFailure_status (s : State) (c : DecodeError) : (raiseDecodeFailure s c).status = statusDecFail s.status (causeCode c) := rfl
@[simp] theorem raiseDecodeFailure_inCursor (s : State) (c : DecodeError) : (raiseDecodeFailure s c).inCursor = s.inCursor := rfl
@[simp] theorem raiseDecodeFailure_outCursor (s : State) (c : DecodeError) : (raiseDecodeFailure s c).outCursor = s.outCursor := rfl
@[simp] theorem raiseDecodeFailure_total (s : State) (c : DecodeError) : (raiseDecodeFailure s c).total = s.inCursor := rfl
@[simp] theorem raiseDecodeFailure_phase (s : State) (c : DecodeError) : (raiseDecodeFailure s c).phase = s.phase := rfl
@[simp] theorem raiseDecodeFailure_tick (s : State) (c : DecodeError) : (raiseDecodeFailure s c).tick = s.tick := rfl
@[simp] theorem raiseDecodeFailure_pending (s : State) (c : DecodeError) : (raiseDecodeFailure s c).pending = s.pending := rfl
@[simp] theorem raiseDecodeFailure_running (s : State) (c : DecodeError) : (raiseDecodeFailure s c).running = s.running := rfl
@[simp] theorem raiseDecodeFailure_params (s : State) (c : DecodeError) : (raiseDecodeFailure s c).params = s.params := rfl
@[simp] theorem raiseDecodeFailure_ports (s : State) (c : DecodeError) : (raiseDecodeFailure s c).ports = s.ports := rfl
@[simp] theorem raiseDecodeFailure_rh (s : State) (c : DecodeError) : (raiseDecodeFailure s c).rh = s.rh := rfl
@[simp] theorem raiseDecodeFailure_rv (s : State) (c : DecodeError) : (raiseDecodeFailure s c).rv = s.rv := rfl
@[simp] theorem raiseDecodeFailure_rc (s : State) (c : DecodeError) : (raiseDecodeFailure s c).rc = codeDecodeFailure := rfl
@[simp] theorem raiseDecodeFailure_crData (s : State) (c : DecodeError) : (raiseDecodeFailure s c).crData = s.crData := rfl
@[simp] theorem raiseDecodeFailure_host (s : State) (c : DecodeError) : (raiseDecodeFailure s c).host = s.host := rfl
@[simp] theorem raiseDecodeFailure_env (s : State) (c : DecodeError) : (raiseDecodeFailure s c).env = s.env := rfl

/-! ### raiseDimensionMismatch -/

@[simp] theorem raiseDimensionMismatch_raw (s : State) : (raiseDimensionMismatch s).raw = s.raw := rfl
@[simp] theorem raiseDimensionMismatch_gray (s : State) : (raiseDimensionMismatch s).gray = s.gray := rfl
@[simp] theorem raiseDimensionMismatch_proc (s : State) : (raiseDimensionMismatch s).proc = s.proc := rfl
@[simp] theorem raiseDimensionMismatch_ppSrc (s : State) : (raiseDimensionMismatch s).ppSrc = s.ppSrc := rfl
@[simp] theorem raiseDimensionMismatch_ppDst (s : State) : (raiseDimensionMismatch s).ppDst = s.ppDst := rfl
@[simp] theorem raiseDimensionMismatch_cscOut (s : State) : (raiseDimensionMismatch s).cscOut = s.cscOut := rfl
@[simp] theorem raiseDimensionMismatch_mem (s : State) : (raiseDimensionMismatch s).mem = s.mem := rfl
@[simp] theorem raiseDimensionMismatch_nextHandle (s : State) : (raiseDimensionMismatch s).nextHandle = s.nextHandle := rfl
@[simp] theorem raiseDimensionMismatch_ctrl (s : State) : (raiseDimensionMismatch s).ctrl = s.ctrl := rfl
@[simp] theorem raiseDimensionMismatch_status (s : State) : (raiseDimensionMismatch s).status = statusDimMismatch s.status := rfl
@[simp] theorem raiseDimensionMismatch_inCursor (s : State) : (raiseDimensionMismatch s).inCursor = s.inCursor := rfl
@[simp] theorem raiseDimensionMismatch_outCursor (s : State) : (raiseDimensionMismatch s).outCursor = s.outCursor := rfl
@[simp] theorem raiseDimensionMismatch_total (s : State) : (raiseDimensionMismatch s).total = s.total := rfl
@[simp] theorem raiseDimensionMismatch_phase (s : State) : (raiseDimensionMismatch s).phase = s.phase := rfl
@[simp] theorem raiseDimensionMismatch_tick (s : State) : (raiseDimensionMismatch s).tick = s.tick := rfl
@[simp] theorem raiseDimensionMismatch_pending (s : State) : (raiseDimensionMismatch s).pending = s.pending := rfl
@[simp] theorem raiseDimensionMismatch_running (s : State) : (raiseDimensionMismatch s).running = s.running := rfl
@[simp] theorem raiseDimensionMismatch_params (s : State) : (raiseDimensionMismatch s).params = s.params := rfl
@[simp] theorem raiseDimensionMismatch_ports (s : State) : (raiseDimensionMismatch s).ports = s.ports := rfl
@[simp] theorem raiseDimensionMismatch_rh (s : State) : (raiseDimensionMismatch s).rh = s.rh := rfl
@[simp] theorem raiseDimensionMismatch_rv (s : State) : (raiseDimensionMismatch s).rv = s.rv := rfl
@[simp] theorem raiseDimensionMismatch_rc (s : State) : (raiseDimensionMismatch s).rc = codeDimensionMismatch := rfl
@[simp] theorem raiseDimensionMismatch_crData (s : State) : (raiseDimensionMismatch s).crData = s.crData := rfl
@[simp] theorem raiseDimensionMismatch_host (s : State) : (raiseDimensionMismatch s).host = s.host := rfl
@[simp] theorem raiseDimensionMismatch_env (s : State) : (raiseDimensionMismatch s).env = s.env := rfl

/-! ### raiseEncodeIOError -/

@[simp] theorem raiseEncodeIOError_raw (s : State) : (raiseEncodeIOError s).raw = s.raw := rfl
@[simp] theorem raiseEncodeIOError_gray (s : State) : (raiseEncodeIOError s).gray = s.gray := rfl
@[simp] theorem raiseEncodeIOError_proc (s : State) : (raiseEncodeIOError s).proc = s.proc := rfl
@[simp] theorem raiseEncodeIOError_ppSrc (s : State) : (raiseEncodeIOError s).ppSrc = s.ppSrc := rfl
@[simp] theorem raiseEncodeIOError_ppDst (s : State) : (raiseEncodeIOError s).ppDst = s.ppDst := rfl
@[simp] theorem raiseEncodeIOError_cscOut (s : State) : (raiseEncodeIOError s).cscOut = s.cscOut := rfl
@[simp] theorem raiseEncodeIOError_mem (s : State) : (raiseEncodeIOError s).mem = s.mem := rfl
@[simp] theorem raiseEncodeIOError_nextHandle (s : State) : (raiseEncodeIOError s).nextHandle = s.nextHandle := rfl
@[simp] theorem raiseEncodeIOError_ctrl (s : State) : (raiseEncodeIOError s).ctrl = s.ctrl := rfl
@[simp] theorem raiseEncodeIOError_status (s : State) : (raiseEncodeIOError s).status = statusEncErr s.status := rfl
@[simp] theorem raiseEncodeIOError_inCursor (s : State) : (raiseEncodeIOError s).inCursor = s.inCursor := rfl
@[simp] theorem raiseEncodeIOError_outCursor (s : State) : (raiseEncodeIOError s).outCursor = s.outCursor := rfl
@[simp] theorem raiseEncodeIOError_total (s : State) : (raiseEncodeIOError s).total = s.total := rfl
@[simp] theorem raiseEncodeIOError_phase (s : State) : (raiseEncodeIOError s).phase = s.phase := rfl
@[simp] theorem raiseEncodeIOError_tick (s : State) : (raiseEncodeIOError s).tick = s.tick := rfl
@[simp] theorem raiseEncodeIOError_pending (s : State) : (raiseEncodeIOError s).pending = s.pending := rfl
@[simp] theorem raiseEncodeIOError_running (s : State) : (raiseEncodeIOError s).running = s.running := rfl
@[simp] theorem raiseEncodeIOError_params (s : State) : (raiseEncodeIOError s).params = s.params := rfl
@[simp] theorem raiseEncodeIOError_ports (s : State) : (raiseEncodeIOError s).ports = s.ports := rfl
@[simp] theorem raiseEncodeIOError_rh (s : State) : (raiseEncodeIOError s).rh = s.rh := rfl
@[simp] theorem raiseEncodeIOError_rv (s : State) : (raiseEncodeIOError s).rv = s.rv := rfl
@[simp] theorem raiseEncodeIOError_rc (s : State) : (raiseEncodeIOError s).rc = codeEncodeIOError := rfl
@[simp] theorem raiseEncodeIOError_crData (s : State) : (raiseEncodeIOError s).crData = s.crData := rfl
@[simp] theorem raiseEncodeIOError_host (s : State) : (raiseEncodeIOError s).host = s.host := rfl
@[simp] theorem raiseEncodeIOError_env (s : State) : (raiseEncodeIOError s).env = s.env := rfl

/-! ### State.removeBuffer -/

@[simp] theorem State.removeBuffer_raw (s : State) (h : Nat) : (s.removeBuffer h).raw = s.raw := rfl
@[simp] theorem State.removeBuffer_gray (s : State) (h : Nat) : (s.removeBuffer h).gray = s.gray := rfl
@[simp] theorem State.removeBuffer_proc (s : State) (h : Nat) : (s.removeBuffer h).proc = s.proc := rfl
@[simp] theorem State.removeBuffer_ppSrc (s : State) (h : Nat) : (s.removeBuffer h).ppSrc = s.ppSrc := rfl
@[simp] theorem State.removeBuffer_ppDst (s : State) (h : Nat) : (s.removeBuffer h).ppDst = s.ppDst := rfl
@[simp] theorem State.removeBuffer_cscOut (s : State) (h : Nat) : (s.removeBuffer h).cscOut = s.cscOut := rfl
@[simp] theorem State.removeBuffer_mem (s : State) (h : Nat) : (s.removeBuffer h).mem = s.mem.remove h := rfl
@[simp] theorem State.removeBuffer_nextHandle (s : State) (h : Nat) : (s.removeBuffer h).nextHandle = s.nextHandle := rfl
@[simp] theorem State.removeBuffer_ctrl (s : State) (h : Nat) : (s.removeBuffer h).ctrl = s.ctrl := rfl
@[simp] theorem State.removeBuffer_status (s : State) (h : Nat) : (s.removeBuffer h).status = s.status := rfl
@[simp] theorem State.removeBuffer_inCursor (s : State) (h : Nat) : (s.removeBuffer h).inCursor = s.inCursor := rfl
@[simp] theorem State.removeBuffer_outCursor (s : State) (h : Nat) : (s.removeBuffer h).outCursor = s.outCursor := rfl
@[simp] theorem State.removeBuffer_total (s : State) (h : Nat) : (s.removeBuffer h).total = s.total := rfl
@[simp] theorem State.removeBuffer_phase (s : State) (h : Nat) : (s.removeBuffer h).phase = s.phase := rfl
@[simp] theorem State.removeBuffer_tick (s : State) (h : Nat) : (s.removeBuffer h).tick = s.tick := rfl
@[simp] theorem State.removeBuffer_pending (s : State) (h : Nat) : (s.removeBuffer h).pending = s.pending := rfl
@[simp] theorem State.removeBuffer_running (s : State) (h : Nat) : (s.removeBuffer h).running = s.running := rfl
@[simp] theorem State.removeBuffer_params (s : State) (h : Nat) : (s.removeBuffer h).params = s.params := rfl
@[simp] theorem State.removeBuffer_ports (s : State) (h : Nat) : (s.removeBuffer h).ports = s.ports := rfl
@[simp] theorem State.removeBuffer_rh (s : State) (h : Nat) : (s.removeBuffer h).rh = s.rh := rfl
@[simp] theorem State.removeBuffer_rv (s : State) (h : Nat) : (s.removeBuffer h).rv = s.rv := rfl
@[simp] theorem State.removeBuffer_rc (s : State) (h : Nat) : (s.removeBuffer h).rc = s.rc := rfl
@[simp] theorem State.removeBuffer_crData (s : State) (h : Nat) : (s.removeBuffer h).crData = s.crData := rfl
@[simp] theorem State.removeBuffer_host (s : State) (h : Nat) : (s.removeBuffer h).host = s.host := rfl
@[simp] theorem State.removeBuffer_env (s : State) (h : Nat) : (s.removeBuffer h).env = s.env := rfl

/-! ### State.countOutput -/

@[simp] theorem State.countOutput_raw (s : State) : (s.countOutput).raw = s.raw := rfl
@[simp] theorem State.countOutput_gray (s : State) : (s.countOutput).gray = s.gray := rfl
@[simp] theorem State.countOutput_proc (s : State) : (s.countOutput).proc = none := rfl
@[simp] theorem State.countOutput_ppSrc (s : State) : (s.countOutput).ppSrc = s.ppSrc := rfl
@[simp] theorem State.countOutput_ppDst (s : State) : (s.countOutput).ppDst = s.ppDst := rfl
@[simp] theorem State.countOutput_cscOut (s : State) : (s.countOutput).cscOut = s.cscOut := rfl
@[simp] theorem State.countOutput_mem (s : State) : (s.countOutput).mem = s.mem := rfl
@[simp] theorem State.countOutput_nextHandle (s : State) : (s.countOutput).nextHandle = s.nextHandle := rfl
@[simp] theorem State.countOutput_ctrl (s : State) : (s.countOutput).ctrl = s.ctrl := rfl
@[simp] theorem State.countOutput_status (s : State) : (s.countOutput).status = s.status := rfl
@[simp] theorem State.countOutput_inCursor (s : State) : (s.countOutput).inCursor = s.inCursor := rfl
@[simp] theorem State.countOutput_outCursor (s : State) : (s.countOutput).outCursor = s.outCursor + 1 := rfl
@[simp] theorem State.countOutput_total (s : State) : (s.countOutput).total = s.total := rfl
@[simp] theorem State.countOutput_phase (s : State) : (s.countOutput).phase = s.phase := rfl
@[simp] theorem State.countOutput_tick (s : State) : (s.countOutput).tick = s.tick := rfl
@[simp] theorem State.countOutput_pending (s : State) : (s.countOutput).pending = s.pending := rfl
@[simp] theorem State.countOutput_running (s : State) : (s.countOutput).running = s.running := rfl
@[simp] theorem State.countOutput_params (s : State) : (s.countOutput).params = s.params := rfl
@[simp] theorem State.countOutput_ports (s : State) : (s.countOutput).ports = s.ports := rfl
@[simp] theorem State.countOutput_rh (s : State) : (s.countOutput).rh = s.rh := rfl
@[simp] theorem State.countOutput_rv (s : State) : (s.countOutput).rv = s.rv := rfl
@[simp] theorem State.countOutput_rc (s : State) : (s.countOutput).rc = s.rc := rfl
@[simp] theorem State.countOutput_crData (s : State) : (s.countOutput).crData = s.crData := rfl
@[simp] theorem State.countOutput_host (s : State) : (s.countOutput).host = s.host := rfl
@[simp] theorem State.countOutput_env (s : State) : (s.countOutput).env = s.env := rfl

/-! ### State.countInput -/

@[simp] theorem State.countInput_raw (s : State) : (s.countInput).raw = s.raw := rfl
@[simp] theorem State.countInput_gray (s : State) : (s.countInput).gray = s.gray := rfl
@[simp] theorem State.countInput_proc (s : State) : (s.countInput).proc = s.proc := rfl
@[simp] theorem State.countInput_ppSrc (s : State) : (s.countInput).ppSrc = s.ppSrc := rfl
@[simp] theorem State.countInput_ppDst (s : State) : (s.countInput).ppDst = s.ppDst := rfl
@[simp] theorem State.countInput_cscOut (s : State) : (s.countInput).cscOut = s.cscOut := rfl
@[simp] theorem State.countInput_mem (s : State) : (s.countInput).mem = s.mem := rfl
@[simp] theorem State.countInput_nextHandle (s : State) : (s.countInput).nextHandle = s.nextHandle := rfl
@[simp] theorem State.countInput_ctrl (s : State) : (s.countInput).ctrl = s.ctrl := rfl
@[simp] theorem State.countInput_status (s : State) : (s.countInput).status = s.status := rfl
@[simp] theorem State.countInput_inCursor (s : State) : (s.countInput).inCursor = s.inCursor + 1 := rfl
@[simp] theorem State.countInput_outCursor (s : State) : (s.countInput).outCursor = s.outCursor := rfl
@[simp] theorem State.countInput_total (s : State) : (s.countInput).total = s.total := rfl
@[simp] theorem State.countInput_phase (s : State) : (s.countInput).phase = s.phase := rfl
@[simp] theorem State.countInput_tick (s : State) : (s.countInput).tick = s.tick := rfl
@[simp] theorem State.countInput_pending (s : State) : (s.countInput).pending = s.pending := rfl
@[simp] theorem State.countInput_running (s : State) : (s.countInput).running = s.running := rfl
@[simp] theorem State.countInput_params (s : State) : (s.countInput).params = s.params := rfl
@[simp] theorem State.countInput_ports (s : State) : (s.countInput).ports = s.ports := rfl
@[simp] theorem State.countInput_rh (s : State) : (s.countInput).rh = s.rh := rfl
@[simp] theorem State.countInput_rv (s : State) : (s.countInput).rv = s.rv := rfl
@[simp] theorem State.countInput_rc (s : State) : (s.countInput).rc = s.rc := rfl
@[simp] theorem State.countInput_crData (s : State) : (s.countInput).crData = s.crData := rfl
@[simp] theorem State.countInput_host (s : State) : (s.countInput).host = s.host := rfl
@[simp] theorem State.countInput_env (s : State) : (s.countInput).env = s.env := rfl

/-! ### State.handToEncoder -/

@[simp] theorem State.handToEncoder_raw (s : State) (b : Buffer) : (s.handToEncoder b).raw = s.raw := by unfold State.handToEncoder; split <;> rfl
@[simp] theorem State.handToEncoder_gray (s : State) (b : Buffer) : (s.handToEncoder b).gray = s.gray := by unfold State.handToEncoder; split <;> rfl
@[simp] theorem State.handToEncoder_proc (s : State) (b : Buffer) : (s.handToEncoder b).proc = s.proc := by unfold State.handToEncoder; split <;> rfl
@[simp] theorem State.handToEncoder_ppSrc (s : State) (b : Buffer) : (s.handToEncoder b).ppSrc = s.ppSrc := by unfold State.handToEncoder; split <;> rfl
@[simp] theorem State.handToEncoder_ppDst (s : State) (b : Buffer) : (s.handToEncoder b).ppDst = s.ppDst := by unfold State.handToEncoder; split <;> rfl
@[simp] theorem State.handToEncoder_cscOut (s : State) (b : Buffer) : (s.handToEncoder b).cscOut = s.cscOut := by unfold State.handToEncoder; split <;> rfl
@[simp] theorem State.handToEncoder_mem (s : State) (b : Buffer) : (s.handToEncoder b).mem = s.mem := by unfold State.handToEncoder; split <;> rfl
@[simp] theorem State.handToEncoder_nextHandle (s : State) (b : Buffer) : (s.handToEncoder b).nextHandle = s.nextHandle := by unfold State.handToEncoder; split <;> rfl
@[simp] theorem State.handToEncoder_ctrl (s : State) (b : Buffer) : (s.handToEncoder b).ctrl = s.ctrl := by unfold State.handToEncoder; split <;> rfl
@[simp] theorem State.handToEncoder_inCursor (s : State) (b : Buffer) : (s.handToEncoder b).inCursor = s.inCursor := by unfold State.handToEncoder; split <;> rfl
@[simp] theorem State.handToEncoder_outCursor (s : State) (b : Buffer) : (s.handToEncoder b).outCursor = s.outCursor := by unfold State.handToEncoder; split <;> rfl
@[simp] theorem State.handToEncoder_total (s : State) (b : Buffer) : (s.handToEncoder b).total = s.total := by unfold State.handToEncoder; split <;> rfl
@[simp] theorem State.handToEncoder_phase (s : State) (b : Buffer) : (s.handToEncoder b).phase = s.phase := by unfold State.handToEncoder; split <;> rfl
@[simp] theorem State.handToEncoder_tick (s : State) (b : Buffer) : (s.handToEncoder b).tick = s.tick := by unfold State.handToEncoder; split <;> rfl
@[simp] theorem State.handToEncoder_pending (s : State) (b : Buffer) : (s.handToEncoder b).pending = s.pending := by unfold State.handToEncoder; split <;> rfl
@[simp] theorem State.handToEncoder_running (s : State) (b : Buffer) : (s.handToEncoder b).running = s.running := by unfold State.handToEncoder; split <;> rfl
@[simp] theorem State.handToEncoder_params (s : State) (b : Buffer) : (s.handToEncoder b).params = s.params := by unfold State.handToEncoder; split <;> rfl
@[simp] theorem State.handToEncoder_ports (s : State) (b : Buffer) : (s.handToEncoder b).ports = s.ports := by unfold State.handToEncoder; split <;> rfl
@[simp] theorem State.handToEncoder_rh (s : State) (b : Buffer) : (s.handToEncoder b).rh = s.rh := by unfold State.handToEncoder; split <;> rfl
@[simp] theorem State.handToEncoder_rv (s : State) (b : Buffer) : (s.handToEncoder b).rv = s.rv := by unfold State.handToEncoder; split <;> rfl
@[simp] theorem State.handToEncoder_crData (s : State) (b : Buffer) : (s.handToEncoder b).crData = s.crData := by unfold State.handToEncoder; split <;> rfl
@[simp] theorem State.handToEncoder_host (s : State) (b : Buffer) : (s.handToEncoder b).host = s.host := by unfold State.handToEncoder; split <;> rfl

/-! ### State.exchange -/

@[simp] theorem State.exchange_raw (s : State) (a b : Nat) (ba bb : Buffer) : (s.exchange a b ba bb).raw = s.raw := rfl
@[simp] theorem State.exchange_gray (s : State) (a b : Nat) (ba bb : Buffer) : (s.exchange a b ba bb).gray = s.gray := rfl
@[simp] theorem State.exchange_proc (s : State) (a b : Nat) (ba bb : Buffer) : (s.exchange a b ba bb).proc = s.proc := rfl
@[simp] theorem State.exchange_ppSrc (s : State) (a b : Nat) (ba bb : Buffer) : (s.exchange a b ba bb).ppSrc = some b := rfl
@[simp] theorem State.exchange_ppDst (s : State) (a b : Nat) (ba bb : Buffer) : (s.exchange a b ba bb).ppDst = some a := rfl
@[simp] theorem State.exchange_cscOut (s : State) (a b : Nat) (ba bb : Buffer) : (s.exchange a b ba bb).cscOut = s.cscOut := rfl
@[simp] theorem State.exchange_mem (s : State) (a b : Nat) (ba bb : Buffer) : (s.exchange a b ba bb).mem = (s.mem.put b { bb with owner := .ppSrc }).put a { ba with owner := .ppDst } := rfl
@[simp] theorem State.exchange_nextHandle (s : State) (a b : Nat) (ba bb : Buffer) : (s.exchange a b ba bb).nextHandle = s.nextHandle := rfl
@[simp] theorem State.exchange_ctrl (s : State) (a b : Nat) (ba bb : Buffer) : (s.exchange a b ba bb).ctrl = s.ctrl := rfl
@[simp] theorem State.exchange_status (s : State) (a b : Nat) (ba bb : Buffer) : (s.exchange a b ba bb).status = s.status := rfl
@[simp] theorem State.exchange_inCursor (s : State) (a b : Nat) (ba bb : Buffer) : (s.exchange a b ba bb).inCursor = s.inCursor := rfl
@[simp] theorem State.exchange_outCursor (s : State) (a b : Nat) (ba bb : Buffer) : (s.exchange a b ba bb).outCursor = s.outCursor := rfl
@[simp] theorem State.exchange_total (s : State) (a b : Nat) (ba bb : Buffer) : (s.exchange a b ba bb).total = s.total := rfl
@[simp] theorem State.exchange_phase (s : State) (a b : Nat) (ba bb : Buffer) : (s.exchange a b ba bb).phase = s.phase := rfl
@[simp] theorem State.exchange_tick (s : State) (a b : Nat) (ba bb : Buffer) : (s.exchange a b ba bb).tick = s.tick := rfl
@[simp] theorem State.exchange_pending (s : State) (a b : Nat) (ba bb : Buffer) : (s.exchange a b ba bb).pending = s.pending := rfl
@[simp] theorem State.exchange_running (s : State) (a b : Nat) (ba bb : Buffer) : (s.exchange a b ba bb).running = s.running := rfl
@[simp] theorem State.exchange_params (s : State) (a b : Nat) (ba bb : Buffer) : (s.exchange a b ba bb).params = s.params := rfl
@[simp] theorem State.exchange_ports (s : State) (a b : Nat) (ba bb : Buffer) : (s.exchange a b ba bb).ports = s.ports := rfl
@[simp] theorem State.exchange_rh (s : State) (a b : Nat) (ba bb : Buffer) : (s.exchange a b ba bb).rh = s.rh := rfl
@[simp] theorem State.exchange_rv (s : State) (a b : Nat) (ba bb : Buffer) : (s.exchange a b ba bb).rv = s.rv := rfl
@[simp] theorem State.exchange_rc (s : State) (a b : Nat) (ba bb : Buffer) : (s.exchange a b ba bb).rc = s.rc := rfl
@[simp] theorem State.exchange_crData (s : State) (a b : Nat) (ba bb : Buffer) : (s.exchange a b ba bb).crData = s.crData := rfl
@[simp] theorem State.exchange_host (s : State) (a b : Nat) (ba bb : Buffer) : (s.exchange a b ba bb).host = s.host := rfl
@[simp] theorem State.exchange_env (s : State) (a b : Nat) (ba bb : Buffer) : (s.exchange a b ba bb).env = s.env := rfl

/-! ### State.handTo -/

@[simp] theorem State.handTo_mem (s : State) (h : Nat) (b : Buffer) (o : OwnerTag) : (s.handTo h b o).mem = s.mem.put h { b with owner := o } := by simp [State.handTo]
@[simp] theorem State.handTo_nextHandle (s : State) (h : Nat) (b : Buffer) (o : OwnerTag) : (s.handTo h b o).nextHandle = s.nextHandle := by simp [State.handTo]
@[simp] theorem State.handTo_ctrl (s : State) (h : Nat) (b : Buffer) (o : OwnerTag) : (s.handTo h b o).ctrl = s.ctrl := by simp [State.handTo]
@[simp] theorem State.handTo_status (s : State) (h : Nat) (b : Buffer) (o : OwnerTag) : (s.handTo h b o).status = s.status := by simp [State.handTo]
@[simp] theorem State.handTo_inCursor (s : State) (h : Nat) (b : Buffer) (o : OwnerTag) : (s.handTo h b o).inCursor = s.inCursor := by simp [State.handTo]
@[simp] theorem State.handTo_outCursor (s : State) (h : Nat) (b : Buffer) (o : OwnerTag) : (s.handTo h b o).outCursor = s.outCursor := by simp [State.handTo]
@[simp] theorem State.handTo_total (s : State) (h : Nat) (b : Buffer) (o : OwnerTag) : (s.handTo h b o).total = s.total := by simp [State.handTo]
@[simp] theorem State.handTo_phase (s : State) (h : Nat) (b : Buffer) (o : OwnerTag) : (s.handTo h b o).phase = s.phase := by simp [State.handTo]
@[simp] theorem State.handTo_tick (s : State) (h : Nat) (b : Buffer) (o : OwnerTag) : (s.handTo h b o).tick = s.tick := by simp [State.handTo]
@[simp] theorem State.handTo_pending (s : State) (h : Nat) (b : Buffer) (o : OwnerTag) : (s.handTo h b o).pending = s.pending := by simp [State.handTo]
@[simp] theorem State.handTo_running (s : State) (h : Nat) (b : Buffer) (o : OwnerTag) : (s.handTo h b o).running = s.running := by simp [State.handTo]
@[simp] theorem State.handTo_params (s : State) (h : Nat) (b : Buffer) (o : OwnerTag) : (s.handTo h b o).params = s.params := by simp [State.handTo]
@[simp] theorem State.handTo_ports (s : State) (h : Nat) (b : Buffer) (o : OwnerTag) : (s.handTo h b o).ports = s.ports := by simp [State.handTo]
@[simp] theorem State.handTo_rh (s : State) (h : Nat) (b : Buffer) (o : OwnerTag) : (s.handTo h b o).rh = s.rh := by simp [State.handTo]
@[simp] theorem State.handTo_rv (s : State) (h : Nat) (b : Buffer) (o : OwnerTag) : (s.handTo h b o).rv = s.rv := by simp [State.handTo]
@[simp] theorem State.handTo_rc (s : State) (h : Nat) (b : Buffer) (o : OwnerTag) : (s.handTo h b o).rc = s.rc := by simp [State.handTo]
@[simp] theorem State.handTo_crData (s : State) (h : Nat) (b : Buffer) (o : OwnerTag) : (s.handTo h b o).crData = s.crData := by simp [State.handTo]
@[simp] theorem State.handTo_host (s : State) (h : Nat) (b : Buffer) (o : OwnerTag) : (s.handTo h b o).host = s.host := by simp [State.handTo]
@[simp] theorem State.handTo_env (s : State) (h : Nat) (b : Buffer) (o : OwnerTag) : (s.handTo h b o).env = s.env := by simp [State.handTo]

/-! ### State.install -/

@[simp] theorem State.install_mem (s : State) (b : Buffer) : (s.install b).mem = s.mem.put s.nextHandle b := by simp [State.install]
@[simp] theorem State.install_nextHandle (s : State) (b : Buffer) : (s.install b).nextHandle = s.nextHandle + 1 := by simp [State.install]
@[simp] theorem State.install_ctrl (s : State) (b : Buffer) : (s.install b).ctrl = s.ctrl := by simp [State.install]
@[simp] theorem State.install_status (s : State) (b : Buffer) : (s.install b).status = s.status := by simp [State.install]
@[simp] theorem State.install_inCursor (s : State) (b : Buffer) : (s.install b).inCursor = s.inCursor := by simp [State.install]
@[simp] theorem State.install_outCursor (s : State) (b : Buffer) : (s.install b).outCursor = s.outCursor := by simp [State.install]
@[simp] theorem State.install_total (s : State) (b : Buffer) : (s.install b).total = s.total := by simp [State.install]
@[simp] theorem State.install_phase (s : State) (b : Buffer) : (s.install b).phase = s.phase := by simp [State.install]
@[simp] theorem State.install_tick (s : State) (b : Buffer) : (s.install b).tick = s.tick := by simp [State.install]
@[simp] theorem State.install_pending (s : State) (b : Buffer) : (s.install b).pending = s.pending := by simp [State.install]
@[simp] theorem State.install_running (s : State) (b : Buffer) : (s.install b).running = s.running := by simp [State.install]
@[simp] theorem State.install_params (s : State) (b : Buffer) : (s.install b).params = s.params := by simp [State.install]
@[simp] theorem State.install_ports (s : State) (b : Buffer) : (s.install b).ports = s.ports := by simp [State.install]
@[simp] theorem State.install_rh (s : State) (b : Buffer) : (s.install b).rh = s.rh := by simp [State.install]
@[simp] theorem State.install_rv (s : State) (b : Buffer) : (s.install b).rv = s.rv := by simp [State.install]
@[simp] theorem State.install_rc (s : State) (b : Buffer) : (s.install b).rc = s.rc := by simp [State.install]
@[simp] theorem State.install_crData (s : State) (b : Buffer) : (s.install b).crData = s.crData := by simp [State.install]
@[simp] theorem State.install_host (s : State) (b : Buffer) : (s.install b).host = s.host := by simp [State.install]
@[simp] theorem State.install_env (s : State) (b : Buffer) : (s.install b).env = s.env := by simp [State.install]

/-! ### nestedCode -/

@[simp] theorem nestedCode_raw (b s : State) : (nestedCode b s).raw = s.raw := rfl
@[simp] theorem nestedCode_gray (b s : State) : (nestedCode b s).gray = s.gray := rfl
@[simp] theorem nestedCode_proc (b s : State) : (nestedCode b s).proc = s.proc := rfl
@[simp] theorem nestedCode_ppSrc (b s : State) : (nestedCode b s).ppSrc = s.ppSrc := rfl
@[simp] theorem nestedCode_ppDst (b s : State) : (nestedCode b s).ppDst = s.ppDst := rfl
@[simp] theorem nestedCode_cscOut (b s : State) : (nestedCode b s).cscOut = s.cscOut := rfl
@[simp] theorem nestedCode_mem (b s : State) : (nestedCode b s).mem = s.mem := rfl
@[simp] theorem nestedCode_nextHandle (b s : State) : (nestedCode b s).nextHandle = s.nextHandle := rfl
@[simp] theorem nestedCode_ctrl (b s : State) : (nestedCode b s).ctrl = s.ctrl := rfl
@[simp] theorem nestedCode_status (b s : State) : (nestedCode b s).status = s.status := rfl
@[simp] theorem nestedCode_inCursor (b s : State) : (nestedCode b s).inCursor = s.inCursor := rfl
@[simp] theorem nestedCode_outCursor (b s : State) : (nestedCode b s).outCursor = s.outCursor := rfl
@[simp] theorem nestedCode_total (b s : State) : (nestedCode b s).total = s.total := rfl
@[simp] theorem nestedCode_phase (b s : State) : (nestedCode b s).phase = s.phase := rfl
@[simp] theorem nestedCode_tick (b s : State) : (nestedCode b s).tick = s.tick := rfl
@[simp] theorem nestedCode_pending (b s : State) : (nestedCode b s).pending = s.pending := rfl
@[simp] theorem nestedCode_running (b s : State) : (nestedCode b s).running = s.running := rfl
@[simp] theorem nestedCode_params (b s : State) : (nestedCode b s).params = s.params := rfl
@[simp] theorem nestedCode_ports (b s : State) : (nestedCode b s).ports = s.ports := rfl
@[simp] theorem nestedCode_rh (b s : State) : (nestedCode b s).rh = s.rh := rfl
@[simp] theorem nestedCode_rv (b s : State) : (nestedCode b s).rv = s.rv := rfl
@[simp] theorem nestedCode_crData (b s : State) : (nestedCode b s).crData = s.crData := rfl
@[simp] theorem nestedCode_host (b s : State) : (nestedCode b s).host = s.host := rfl
@[simp] theorem nestedCode_env (b s : State) : (nestedCode b s).env = s.env := rfl

/-! ### State.accepted -/

@[simp] theorem State.accepted_raw (s : State) : (s.accepted).raw = s.raw := rfl
@[simp] theorem State.accepted_gray (s : State) : (s.accepted).gray = s.gray := rfl
@[simp] theorem State.accepted_proc (s : State) : (s.accepted).proc = s.proc := rfl
@[simp] theorem State.accepted_ppSrc (s : State) : (s.accepted).ppSrc = s.ppSrc := rfl
@[simp] theorem State.accepted_ppDst (s : State) : (s.accepted).ppDst = s.ppDst := rfl
@[simp] theorem State.accepted_cscOut (s : State) : (s.accepted).cscOut = s.cscOut := rfl
@[simp] theorem State.accepted_mem (s : State) : (s.accepted).mem = s.mem := rfl
@[simp] theorem State.accepted_nextHandle (s : State) : (s.accepted).nextHandle = s.nextHandle := rfl
@[simp] theorem State.accepted_ctrl (s : State) : (s.accepted).ctrl = s.ctrl := rfl
@[simp] theorem State.accepted_status (s : State) : (s.accepted).status = s.status := rfl
@[simp] theorem State.accepted_inCursor (s : State) : (s.accepted).inCursor = s.inCursor := rfl
@[simp] theorem State.accepted_outCursor (s : State) : (s.accepted).outCursor = s.outCursor := rfl
@[simp] theorem State.accepted_total (s : State) : (s.accepted).total = s.total := rfl
@[simp] theorem State.accepted_phase (s : State) : (s.accepted).phase = s.phase := rfl
@[simp] theorem State.accepted_tick (s : State) : (s.accepted).tick = s.tick := rfl
@[simp] theorem State.accepted_pending (s : State) : (s.accepted).pending = s.pending := rfl
@[simp] theorem State.accepted_running (s : State) : (s.accepted).running = s.running := rfl
@[simp] theorem State.accepted_params (s : State) : (s.accepted).params = s.params := rfl
@[simp] theorem State.accepted_ports (s : State) : (s.accepted).ports = s.ports := rfl
@[simp] theorem State.accepted_rh (s : State) : (s.accepted).rh = s.rh := rfl
@[simp] theorem State.accepted_rv (s : State) : (s.accepted).rv = s.rv := rfl
@[simp] theorem State.accepted_rc (s : State) : (s.accepted).rc = codeNone := rfl
@[simp] theorem State.accepted_crData (s : State) : (s.accepted).crData = s.crData := rfl
@[simp] theorem State.accepted_host (s : State) : (s.accepted).host = s.host := rfl
@[simp] theorem State.accepted_env (s : State) : (s.accepted).env = s.env := rfl

/-! ### State.giveHandle -/

@[simp] theorem State.giveHandle_raw (s : State) (h : Nat) : (s.giveHandle h).raw = s.raw := rfl
@[simp] theorem State.giveHandle_gray (s : State) (h : Nat) : (s.giveHandle h).gray = s.gray := rfl
@[simp] theorem State.giveHandle_proc (s : State) (h : Nat) : (s.giveHandle h).proc = s.proc := rfl
@[simp] theorem State.giveHandle_ppSrc (s : State) (h : Nat) : (s.giveHandle h).ppSrc = s.ppSrc := rfl
@[simp] theorem State.giveHandle_ppDst (s : State) (h : Nat) : (s.giveHandle h).ppDst = s.ppDst := rfl
@[simp] theorem State.giveHandle_cscOut (s : State) (h : Nat) : (s.giveHandle h).cscOut = s.cscOut := rfl
@[simp] theorem State.giveHandle_mem (s : State) (h : Nat) : (s.giveHandle h).mem = s.mem := rfl
@[simp] theorem State.giveHandle_nextHandle (s : State) (h : Nat) : (s.giveHandle h).nextHandle = s.nextHandle := rfl
@[simp] theorem State.giveHandle_ctrl (s : State) (h : Nat) : (s.giveHandle h).ctrl = s.ctrl := rfl
@[simp] theorem State.giveHandle_status (s : State) (h : Nat) : (s.giveHandle h).status = s.status := rfl
@[simp] theorem State.giveHandle_inCursor (s : State) (h : Nat) : (s.giveHandle h).inCursor = s.inCursor := rfl
@[simp] theorem State.giveHandle_outCursor (s : State) (h : Nat) : (s.giveHandle h).outCursor = s.outCursor := rfl
@[simp] theorem State.giveHandle_total (s : State) (h : Nat) : (s.giveHandle h).total = s.total := rfl
@[simp] theorem State.giveHandle_phase (s : State) (h : Nat) : (s.giveHandle h).phase = s.phase := rfl
@[simp] theorem State.giveHandle_tick (s : State) (h : Nat) : (s.giveHandle h).tick = s.tick := rfl
@[simp] theorem State.giveHandle_pending (s : State) (h : Nat) : (s.giveHandle h).pending = s.pending := rfl
@[simp] theorem State.giveHandle_running (s : State) (h : Nat) : (s.giveHandle h).running = s.running := rfl
@[simp] theorem State.giveHandle_params (s : State) (h : Nat) : (s.giveHandle h).params = s.params := rfl
@[simp] theorem State.giveHandle_ports (s : State) (h : Nat) : (s.giveHandle h).ports = s.ports := rfl
@[simp] theorem State.giveHandle_rh (s : State) (h : Nat) : (s.giveHandle h).rh = h := rfl
@[simp] theorem State.giveHandle_rv (s : State) (h : Nat) : (s.giveHandle h).rv = s.rv := rfl
@[simp] theorem State.giveHandle_rc (s : State) (h : Nat) : (s.giveHandle h).rc = s.rc := rfl
@[simp] theorem State.giveHandle_crData (s : State) (h : Nat) : (s.giveHandle h).crData = s.crData := rfl
@[simp] theorem State.giveHandle_host (s : State) (h : Nat) : (s.giveHandle h).host = s.host := rfl
@[simp] theorem State.giveHandle_env (s : State) (h : Nat) : (s.giveHandle h).env = s.env := rfl

/-! ### State.giveValue -/

@[simp] theorem State.giveValue_raw (s : State) (v : BitVec 24) : (s.giveValue v).raw = s.raw := rfl
@[simp] theorem State.giveValue_gray (s : State) (v : BitVec 24) : (s.giveValue v).gray = s.gray := rfl
@[simp] theorem State.giveValue_proc (s : State) (v : BitVec 24) : (s.giveValue v).proc = s.proc := rfl
@[simp] theorem State.giveValue_ppSrc (s : State) (v : BitVec 24) : (s.giveValue v).ppSrc = s.ppSrc := rfl
@[simp] theorem State.giveValue_ppDst (s : State) (v : BitVec 24) : (s.giveValue v).ppDst = s.ppDst := rfl
@[simp] theorem State.giveValue_cscOut (s : State) (v : BitVec 24) : (s.giveValue v).cscOut = s.cscOut := rfl
@[simp] theorem State.giveValue_mem (s : State) (v : BitVec 24) : (s.giveValue v).mem = s.mem := rfl
@[simp] theorem State.giveValue_nextHandle (s : State) (v : BitVec 24) : (s.giveValue v).nextHandle = s.nextHandle := rfl
@[simp] theorem State.giveValue_ctrl (s : State) (v : BitVec 24) : (s.giveValue v).ctrl = s.ctrl := rfl
@[simp] theorem State.giveValue_status (s : State) (v : BitVec 24) : (s.giveValue v).status = s.status := rfl
@[simp] theorem State.giveValue_inCursor (s : State) (v : BitVec 24) : (s.giveValue v).inCursor = s.inCursor := rfl
@[simp] theorem State.giveValue_outCursor (s : State) (v : BitVec 24) : (s.giveValue v).outCursor = s.outCursor := rfl
@[simp] theorem State.giveValue_total (s : State) (v : BitVec 24) : (s.giveValue v).total = s.total := rfl
@[simp] theorem State.giveValue_phase (s : State) (v : BitVec 24) : (s.giveValue v).phase = s.phase := rfl
@[simp] theorem State.giveValue_tick (s : State) (v : BitVec 24) : (s.giveValue v).tick = s.tick := rfl
@[simp] theorem State.giveValue_pending (s : State) (v : BitVec 24) : (s.giveValue v).pending = s.pending := rfl
@[simp] theorem State.giveValue_running (s : State) (v : BitVec 24) : (s.giveValue v).running = s.running := rfl
@[simp] theorem State.giveValue_params (s : State) (v : BitVec 24) : (s.giveValue v).params = s.params := rfl
@[simp] theorem State.giveValue_ports (s : State) (v : BitVec 24) : (s.giveValue v).ports = s.ports := rfl
@[simp] theorem State.giveValue_rh (s : State) (v : BitVec 24) : (s.giveValue v).rh = s.rh := rfl
@[simp] theorem State.giveValue_rv (s : State) (v : BitVec 24) : (s.giveValue v).rv = v := rfl
@[simp] theorem State.giveValue_rc (s : State) (v : BitVec 24) : (s.giveValue v).rc = s.rc := rfl
@[simp] theorem State.giveValue_crData (s : State) (v : BitVec 24) : (s.giveValue v).crData = s.crData := rfl
@[simp] theorem State.giveValue_host (s : State) (v : BitVec 24) : (s.giveValue v).host = s.host := rfl
@[simp] theorem State.giveValue_env (s : State) (v : BitVec 24) : (s.giveValue v).env = s.env := rfl

/-! ### State.countTick -/

@[simp] theorem State.countTick_raw (s : State) : (s.countTick).raw = s.raw := rfl
@[simp] theorem State.countTick_gray (s : State) : (s.countTick).gray = s.gray := rfl
@[simp] theorem State.countTick_proc (s : State) : (s.countTick).proc = s.proc := rfl
@[simp] theorem State.countTick_ppSrc (s : State) : (s.countTick).ppSrc = s.ppSrc := rfl
@[simp] theorem State.countTick_ppDst (s : State) : (s.countTick).ppDst = s.ppDst := rfl
@[simp] theorem State.countTick_cscOut (s : State) : (s.countTick).cscOut = s.cscOut := rfl
@[simp] theorem State.countTick_mem (s : State) : (s.countTick).mem = s.mem := rfl
@[simp] theorem State.countTick_nextHandle (s : State) : (s.countTick).nextHandle = s.nextHandle := rfl
@[simp] theorem State.countTick_ctrl (s : State) : (s.countTick).ctrl = s.ctrl := rfl
@[simp] theorem State.countTick_status (s : State) : (s.countTick).status = s.status := rfl
@[simp] theorem State.countTick_inCursor (s : State) : (s.countTick).inCursor = s.inCursor := rfl
@[simp] theorem State.countTick_outCursor (s : State) : (s.countTick).outCursor = s.outCursor := rfl
@[simp] theorem State.countTick_total (s : State) : (s.countTick).total = s.total := rfl
@[simp] theorem State.countTick_phase (s : State) : (s.countTick).phase = s.phase := rfl
@[simp] theorem State.countTick_tick (s : State) : (s.countTick).tick = s.tick + 1 := rfl
@[simp] theorem State.countTick_pending (s : State) : (s.countTick).pending = s.pending := rfl
@[simp] theorem State.countTick_running (s : State) : (s.countTick).running = s.running := rfl
@[simp] theorem State.countTick_params (s : State) : (s.countTick).params = s.params := rfl
@[simp] theorem State.countTick_ports (s : State) : (s.countTick).ports = s.ports := rfl
@[simp] theorem State.countTick_rh (s : State) : (s.countTick).rh = s.rh := rfl
@[simp] theorem State.countTick_rv (s : State) : (s.countTick).rv = s.rv := rfl
@[simp] theorem State.countTick_rc (s : State) : (s.countTick).rc = s.rc := rfl
@[simp] theorem State.countTick_crData (s : State) : (s.countTick).crData = s.crData := rfl
@[simp] theorem State.countTick_host (s : State) : (s.countTick).host = s.host := rfl
@[simp] theorem State.countTick_env (s : State) : (s.countTick).env = s.env := rfl

/-! ### State.enterPhase -/

@[simp] theorem State.enterPhase_raw (s : State) (p : Phase) : (s.enterPhase p).raw = s.raw := rfl
@[simp] theorem State.enterPhase_gray (s : State) (p : Phase) : (s.enterPhase p).gray = s.gray := rfl
@[simp] theorem State.enterPhase_proc (s : State) (p : Phase) : (s.enterPhase p).proc = s.proc := rfl
@[simp] theorem State.enterPhase_ppSrc (s : State) (p : Phase) : (s.enterPhase p).ppSrc = s.ppSrc := rfl
@[simp] theorem State.enterPhase_ppDst (s : State) (p : Phase) : (s.enterPhase p).ppDst = s.ppDst := rfl
@[simp] theorem State.enterPhase_cscOut (s : State) (p : Phase) : (s.enterPhase p).cscOut = s.cscOut := rfl
@[simp] theorem State.enterPhase_mem (s : State) (p : Phase) : (s.enterPhase p).mem = s.mem := rfl
@[simp] theorem State.enterPhase_nextHandle (s : State) (p : Phase) : (s.enterPhase p).nextHandle = s.nextHandle := rfl
@[simp] theorem State.enterPhase_ctrl (s : State) (p : Phase) : (s.enterPhase p).ctrl = s.ctrl := rfl
@[simp] theorem State.enterPhase_status (s : State) (p : Phase) : (s.enterPhase p).status = s.status := rfl
@[simp] theorem State.enterPhase_inCursor (s : State) (p : Phase) : (s.enterPhase p).inCursor = s.inCursor := rfl
@[simp] theorem State.enterPhase_outCursor (s : State) (p : Phase) : (s.enterPhase p).outCursor = s.outCursor := rfl
@[simp] theorem State.enterPhase_total (s : State) (p : Phase) : (s.enterPhase p).total = s.total := rfl
@[simp] theorem State.enterPhase_phase (s : State) (p : Phase) : (s.enterPhase p).phase = p := rfl
@[simp] theorem State.enterPhase_tick (s : State) (p : Phase) : (s.enterPhase p).tick = s.tick := rfl
@[simp] theorem State.enterPhase_pending (s : State) (p : Phase) : (s.enterPhase p).pending = s.pending := rfl
@[simp] theorem State.enterPhase_running (s : State) (p : Phase) : (s.enterPhase p).running = s.running := rfl
@[simp] theorem State.enterPhase_params (s : State) (p : Phase) : (s.enterPhase p).params = s.params := rfl
@[simp] theorem State.enterPhase_ports (s : State) (p : Phase) : (s.enterPhase p).ports = s.ports := rfl
@[simp] theorem State.enterPhase_rh (s : State) (p : Phase) : (s.enterPhase p).rh = s.rh := rfl
@[simp] theorem State.enterPhase_rv (s : State) (p : Phase) : (s.enterPhase p).rv = s.rv := rfl
@[simp] theorem State.enterPhase_rc (s : State) (p : Phase) : (s.enterPhase p).rc = s.rc := rfl
@[simp] theorem State.enterPhase_crData (s : State) (p : Phase) : (s.enterPhase p).crData = s.crData := rfl
@[simp] theorem State.enterPhase_host (s : State) (p : Phase) : (s.enterPhase p).host = s.host := rfl
@[simp] theorem State.enterPhase_env (s : State) (p : Phase) : (s.enterPhase p).env = s.env := rfl

/-! ### State.startRun -/

@[simp] theorem State.startRun_raw (s : State) : (s.startRun).raw = s.raw := rfl
@[simp] theorem State.startRun_gray (s : State) : (s.startRun).gray = s.gray := rfl
@[simp] theorem State.startRun_proc (s : State) : (s.startRun).proc = s.proc := rfl
@[simp] theorem State.startRun_ppSrc (s : State) : (s.startRun).ppSrc = s.ppSrc := rfl
@[simp] theorem State.startRun_ppDst (s : State) : (s.startRun).ppDst = s.ppDst := rfl
@[simp] theorem State.startRun_cscOut (s : State) : (s.startRun).cscOut = s.cscOut := rfl
@[simp] theorem State.startRun_mem (s : State) : (s.startRun).mem = s.mem := rfl
@[simp] theorem State.startRun_nextHandle (s : State) : (s.startRun).nextHandle = s.nextHandle := rfl
@[simp] theorem State.startRun_ctrl (s : State) : (s.startRun).ctrl = s.ctrl := rfl
@[simp] theorem State.startRun_status (s : State) : (s.startRun).status = s.status := rfl
@[simp] theorem State.startRun_inCursor (s : State) : (s.startRun).inCursor = s.inCursor := rfl
@[simp] theorem State.startRun_outCursor (s : State) : (s.startRun).outCursor = s.outCursor := rfl
@[simp] theorem State.startRun_total (s : State) : (s.startRun).total = s.total := rfl
@[simp] theorem State.startRun_phase (s : State) : (s.startRun).phase = s.phase := rfl
@[simp] theorem State.startRun_tick (s : State) : (s.startRun).tick = s.tick := rfl
@[simp] theorem State.startRun_pending (s : State) : (s.startRun).pending = s.pending := rfl
@[simp] theorem State.startRun_running (s : State) : (s.startRun).running = true := rfl
@[simp] theorem State.startRun_params (s : State) : (s.startRun).params = s.params := rfl
@[simp] theorem State.startRun_ports (s : State) : (s.startRun).ports = s.ports := rfl
@[simp] theorem State.startRun_rh (s : State) : (s.startRun).rh = s.rh := rfl
@[simp] theorem State.startRun_rv (s : State) : (s.startRun).rv = s.rv := rfl
@[simp] theorem State.startRun_rc (s : State) : (s.startRun).rc = codeNone := rfl
@[simp] theorem State.startRun_crData (s : State) : (s.startRun).crData = s.crData := rfl
@[simp] theorem State.startRun_host (s : State) : (s.startRun).host = s.host := rfl
@[simp] theorem State.startRun_env (s : State) : (s.startRun).env = s.env := rfl

/-! ### State.finishRun -/

@[simp] theorem State.finishRun_raw (s : State) : (s.finishRun).raw = s.raw := rfl
@[simp] theorem State.finishRun_gray (s : State) : (s.finishRun).gray = s.gray := rfl
@[simp] theorem State.finishRun_proc (s : State) : (s.finishRun).proc = s.proc := rfl
@[simp] theorem State.finishRun_ppSrc (s : State) : (s.finishRun).ppSrc = s.ppSrc := rfl
@[simp] theorem State.finishRun_ppDst (s : State) : (s.finishRun).ppDst = s.ppDst := rfl
@[simp] theorem State.finishRun_cscOut (s : State) : (s.finishRun).cscOut = s.cscOut := rfl
@[simp] theorem State.finishRun_mem (s : State) : (s.finishRun).mem = s.mem := rfl
@[simp] theorem State.finishRun_nextHandle (s : State) : (s.finishRun).nextHandle = s.nextHandle := rfl
@[simp] theorem State.finishRun_ctrl (s : State) : (s.finishRun).ctrl = s.ctrl := rfl
@[simp] theorem State.finishRun_status (s : State) : (s.finishRun).status = statusDone s.status := rfl
@[simp] theorem State.finishRun_inCursor (s : State) : (s.finishRun).inCursor = s.inCursor := rfl
@[simp] theorem State.finishRun_outCursor (s : State) : (s.finishRun).outCursor = s.outCursor := rfl
@[simp] theorem State.finishRun_total (s : State) : (s.finishRun).total = s.total := rfl
@[simp] theorem State.finishRun_phase (s : State) : (s.finishRun).phase = s.phase := rfl
@[simp] theorem State.finishRun_tick (s : State) : (s.finishRun).tick = s.tick := rfl
@[simp] theorem State.finishRun_pending (s : State) : (s.finishRun).pending = s.pending := rfl
@[simp] theorem State.finishRun_running (s : State) : (s.finishRun).running = false := rfl
@[simp] theorem State.finishRun_params (s : State) : (s.finishRun).params = s.params := rfl
@[simp] theorem State.finishRun_ports (s : State) : (s.finishRun).ports = s.ports := rfl
@[simp] theorem State.finishRun_rh (s : State) : (s.finishRun).rh = s.rh := rfl
@[simp] theorem State.finishRun_rv (s : State) : (s.finishRun).rv = s.rv := rfl
@[simp] theorem State.finishRun_rc (s : State) : (s.finishRun).rc = s.rc := rfl
@[simp] theorem State.finishRun_crData (s : State) : (s.finishRun).crData = s.crData := rfl
@[simp] theorem State.finishRun_host (s : State) : (s.finishRun).host = s.host := rfl
@[simp] theorem State.finishRun_env (s : State) : (s.finishRun).env = s.env := rfl

/-! ### State.presenting -/

@[simp] theorem State.presenting_raw (s : State) (c : BitVec 8) : (s.presenting c).raw = s.raw := rfl
@[simp] theorem State.presenting_gray (s : State) (c : BitVec 8) : (s.presenting c).gray = s.gray := rfl
@[simp] theorem State.presenting_proc (s : State) (c : BitVec 8) : (s.presenting c).proc = s.proc := rfl
@[simp] theorem State.presenting_ppSrc (s : State) (c : BitVec 8) : (s.presenting c).ppSrc = s.ppSrc := rfl
@[simp] theorem State.presenting_ppDst (s : State) (c : BitVec 8) : (s.presenting c).ppDst = s.ppDst := rfl
@[simp] theorem State.presenting_cscOut (s : State) (c : BitVec 8) : (s.presenting c).cscOut = s.cscOut := rfl
@[simp] theorem State.presenting_mem (s : State) (c : BitVec 8) : (s.presenting c).mem = s.mem := rfl
@[simp] theorem State.presenting_nextHandle (s : State) (c : BitVec 8) : (s.presenting c).nextHandle = s.nextHandle := rfl
@[simp] theorem State.presenting_ctrl (s : State) (c : BitVec 8) : (s.presenting c).ctrl = s.ctrl := rfl
@[simp] theorem State.presenting_status (s : State) (c : BitVec 8) : (s.presenting c).status = s.status := rfl
@[simp] theorem State.presenting_inCursor (s : State) (c : BitVec 8) : (s.presenting c).inCursor = s.inCursor := rfl
@[simp] theorem State.presenting_outCursor (s : State) (c : BitVec 8) : (s.presenting c).outCursor = s.outCursor := rfl
@[simp] theorem State.presenting_total (s : State) (c : BitVec 8) : (s.presenting c).total = s.total := rfl
@[simp] theorem State.presenting_phase (s : State) (c : BitVec 8) : (s.presenting c).phase = s.phase := rfl
@[simp] theorem State.presenting_tick (s : State) (c : BitVec 8) : (s.presenting c).tick = s.tick := rfl
@[simp] theorem State.presenting_pending (s : State) (c : BitVec 8) : (s.presenting c).pending = s.pending := rfl
@[simp] theorem State.presenting_running (s : State) (c : BitVec 8) : (s.presenting c).running = false := rfl
@[simp] theorem State.presenting_params (s : State) (c : BitVec 8) : (s.presenting c).params = s.params := rfl
@[simp] theorem State.presenting_ports (s : State) (c : BitVec 8) : (s.presenting c).ports = s.ports := rfl
@[simp] theorem State.presenting_rh (s : State) (c : BitVec 8) : (s.presenting c).rh = s.rh := rfl
@[simp] theorem State.presenting_rv (s : State) (c : BitVec 8) : (s.presenting c).rv = s.rv := rfl
@[simp] theorem State.presenting_rc (s : State) (c : BitVec 8) : (s.presenting c).rc = s.rc := rfl
@[simp] theorem State.presenting_crData (s : State) (c : BitVec 8) : (s.presenting c).crData = s.crData := rfl
@[simp] theorem State.presenting_host (s : State) (c : BitVec 8) : (s.presenting c).host = .command c s.ports :: s.host := rfl
@[simp] theorem State.presenting_env (s : State) (c : BitVec 8) : (s.presenting c).env = s.env := rfl

/-! ### Holders -/

/-- Writing the holder of a tag that has one: that holder changes and no other. -/
@[simp] theorem State.holder_setHolder (s : State) (o p : OwnerTag) (v : Option Nat) :
    (s.setHolder o v).holder p = if o = p ∧ o ≠ .host ∧ o ≠ .free then v else s.holder p := by
  cases o <;> cases p <;> rfl

@[simp] theorem State.holder_host (s : State) : s.holder .host = none := rfl

@[simp] theorem State.holder_free (s : State) : s.holder .free = none := rfl

@[simp] theorem State.holder_putBuffer (s : State) (h : Nat) (b : Buffer) (o : OwnerTag) :
    (s.putBuffer h b).holder o = s.holder o := by cases o <;> rfl

@[simp] theorem State.holder_afterAlloc (s : State) (t : ElemType) (w h : Nat) (o : OwnerTag) :
    (s.afterAlloc t w h).holder o = s.holder o := by cases o <;> rfl

@[simp] theorem State.holder_afterDecode (s : State) (id : Ident) (o : OwnerTag) :
    (s.afterDecode id).holder o = s.holder o := by cases o <;> rfl

@[simp] theorem State.holder_afterEncode (s : State) (id : Nat) (b : Buffer) (o : OwnerTag) :
    (s.afterEncode id b).holder o = s.holder o := by cases o <;> rfl

@[simp] theorem State.holder_install (s : State) (b : Buffer) (p : OwnerTag) :
    (s.install b).holder p
      = if b.owner = p ∧ b.owner ≠ .host ∧ b.owner ≠ .free then some s.nextHandle else s.holder p := by
  have h : (s.install b).holder p = ((s.putBuffer s.nextHandle b).setHolder b.owner (some s.nextHandle)).holder p := by
    cases p <;> rfl
  rw [h, State.holder_setHolder, State.holder_putBuffer]

@[simp] theorem State.holder_removeBuffer (s : State) (h : Nat) (o : OwnerTag) :
    (s.removeBuffer h).holder o = s.holder o := by cases o <;> rfl

@[simp] theorem State.holder_handToEncoder (s : State) (b : Buffer) (o : OwnerTag) :
    (s.handToEncoder b).holder o = s.holder o := by cases o <;> simp [State.holder]

@[simp] theorem State.holder_countInput (s : State) (o : OwnerTag) : s.countInput.holder o = s.holder o := by
  cases o <;> rfl

@[simp] theorem State.holder_countOutput (s : State) (o : OwnerTag) :
    s.countOutput.holder o = if o = .proc then none else s.holder o := by cases o <;> rfl

@[simp] theorem State.holder_exchange (s : State) (a b : Nat) (ba bb : Buffer) (o : OwnerTag) :
    (s.exchange a b ba bb).holder o = if o = .ppSrc then some b else if o = .ppDst then some a else s.holder o := by
  cases o <;> rfl

@[simp] theorem State.holder_handTo (s : State) (h : Nat) (b : Buffer) (o p : OwnerTag) :
    (s.handTo h b o).holder p
      = if o = p ∧ o ≠ .host ∧ o ≠ .free then some h
        else if b.owner = p ∧ b.owner ≠ .host ∧ b.owner ≠ .free then none else s.holder p := by
  simp [State.handTo]

@[simp] theorem State.holder_accepted (s : State) (o : OwnerTag) : s.accepted.holder o = s.holder o := by
  cases o <;> rfl

@[simp] theorem State.holder_giveHandle (s : State) (h : Nat) (o : OwnerTag) : (s.giveHandle h).holder o = s.holder o := by
  cases o <;> rfl

@[simp] theorem State.holder_giveValue (s : State) (v : BitVec 24) (o : OwnerTag) : (s.giveValue v).holder o = s.holder o := by
  cases o <;> rfl

@[simp] theorem State.holder_countTick (s : State) (o : OwnerTag) : s.countTick.holder o = s.holder o := by
  cases o <;> rfl

@[simp] theorem State.holder_enterPhase (s : State) (p : Phase) (o : OwnerTag) : (s.enterPhase p).holder o = s.holder o := by
  cases o <;> rfl

@[simp] theorem State.holder_startRun (s : State) (o : OwnerTag) : s.startRun.holder o = s.holder o := by
  cases o <;> rfl

@[simp] theorem State.holder_finishRun (s : State) (o : OwnerTag) : s.finishRun.holder o = s.holder o := by
  cases o <;> rfl

@[simp] theorem State.holder_nestedCode (b s : State) (o : OwnerTag) : (nestedCode b s).holder o = s.holder o := by
  cases o <;> simp [State.holder]

/-! ### The bits of CTRL and STATUS, through the updates that leave those registers alone -/

@[simp] theorem State.enGauss_accepted (s : State) : s.accepted.enGauss = s.enGauss := rfl
@[simp] theorem State.enSharp_accepted (s : State) : s.accepted.enSharp = s.enSharp := rfl
@[simp] theorem State.enSobel_accepted (s : State) : s.accepted.enSobel = s.enSobel := rfl
@[simp] theorem State.modeFloat_accepted (s : State) : s.accepted.modeFloat = s.modeFloat := rfl
@[simp] theorem State.fatal_accepted (s : State) : s.accepted.fatal = s.fatal := rfl
@[simp] theorem State.done_accepted (s : State) : s.accepted.done = s.done := rfl
@[simp] theorem State.allocAnswer_accepted (s : State) (t : ElemType) (w h : Nat) :
    s.accepted.allocAnswer t w h = s.allocAnswer t w h := rfl

@[simp] theorem State.enGauss_countTick (s : State) : s.countTick.enGauss = s.enGauss := rfl
@[simp] theorem State.enSharp_countTick (s : State) : s.countTick.enSharp = s.enSharp := rfl
@[simp] theorem State.enSobel_countTick (s : State) : s.countTick.enSobel = s.enSobel := rfl
@[simp] theorem State.modeFloat_countTick (s : State) : s.countTick.modeFloat = s.modeFloat := rfl
@[simp] theorem State.fatal_countTick (s : State) : s.countTick.fatal = s.fatal := rfl
@[simp] theorem State.done_countTick (s : State) : s.countTick.done = s.done := rfl
@[simp] theorem State.allocAnswer_countTick (s : State) (t : ElemType) (w h : Nat) :
    s.countTick.allocAnswer t w h = s.allocAnswer t w h := rfl

@[simp] theorem State.enGauss_enterPhase (s : State) (p : Phase) : (s.enterPhase p).enGauss = s.enGauss := rfl
@[simp] theorem State.enSharp_enterPhase (s : State) (p : Phase) : (s.enterPhase p).enSharp = s.enSharp := rfl
@[simp] theorem State.enSobel_enterPhase (s : State) (p : Phase) : (s.enterPhase p).enSobel = s.enSobel := rfl
@[simp] theorem State.modeFloat_enterPhase (s : State) (p : Phase) : (s.enterPhase p).modeFloat = s.modeFloat := rfl
@[simp] theorem State.fatal_enterPhase (s : State) (p : Phase) : (s.enterPhase p).fatal = s.fatal := rfl
@[simp] theorem State.done_enterPhase (s : State) (p : Phase) : (s.enterPhase p).done = s.done := rfl
@[simp] theorem State.allocAnswer_enterPhase (s : State) (p : Phase) (t : ElemType) (w h : Nat) :
    (s.enterPhase p).allocAnswer t w h = s.allocAnswer t w h := rfl

@[simp] theorem State.enGauss_startRun (s : State) : s.startRun.enGauss = s.enGauss := rfl
@[simp] theorem State.enSharp_startRun (s : State) : s.startRun.enSharp = s.enSharp := rfl
@[simp] theorem State.enSobel_startRun (s : State) : s.startRun.enSobel = s.enSobel := rfl
@[simp] theorem State.modeFloat_startRun (s : State) : s.startRun.modeFloat = s.modeFloat := rfl
@[simp] theorem State.fatal_startRun (s : State) : s.startRun.fatal = s.fatal := rfl
@[simp] theorem State.done_startRun (s : State) : s.startRun.done = s.done := rfl
@[simp] theorem State.allocAnswer_startRun (s : State) (t : ElemType) (w h : Nat) :
    s.startRun.allocAnswer t w h = s.allocAnswer t w h := rfl

end Sys2Proof.Machine
end

