-- ==== Sys2Proof/Laws/Memory.lean ====
section
/-!
SUPPORT. Reading after writing, for the bytes of a store, the elements of a buffer and the frame-buffer store; and
that every memory operation keeps the canonical form.
-/
namespace Sys2Proof.Machine

/-! ### Bytes of a store -/

theorem Store.canonical_cons (c : Host.Cell) (r : Store) :
    Store.canonical (c :: r) = true ↔ c.2 ≠ 0#8 ∧ (∀ d ∈ r, c.1 < d.1) ∧ Store.canonical r = true := by
  simp [Store.canonical, and_assoc]

/-- An offset below every listed one reads 0. -/
theorem Store.read_below (m : Store) (a : Nat) (h : ∀ d ∈ m, a < d.1) : Store.read m a = 0#8 := by
  induction m with
  | nil => rfl
  | cons c r ih =>
    have hc : ¬ c.1 = a := by have := h c (by simp); omega
    simp only [Store.read, if_neg hc]
    exact ih fun d hd => h d (by simp [hd])

theorem Store.read_write_other (m : Store) (a b : Nat) (v : Byte) (h : b ≠ a) :
    Store.read (Store.write m a v) b = Store.read m b := by
  induction m with
  | nil => by_cases hv : v = 0#8 <;> simp [Store.write, Store.read, hv, h.symm]
  | cons c r ih =>
    unfold Store.write
    by_cases h1 : a < c.1
    · by_cases hv : v = 0#8 <;> simp [h1, hv, Store.read, h.symm]
    · by_cases h2 : a = c.1
      · by_cases hv : v = 0#8
        · have : ¬ c.1 = b := by omega
          simp [← h2, hv, Store.read, h.symm]
        · simp [← h2, hv, Store.read, h.symm]
      · simp [h1, h2, Store.read, ih]

theorem Store.read_write_same (m : Store) (a : Nat) (v : Byte) (hm : Store.canonical m = true) :
    Store.read (Store.write m a v) a = v := by
  induction m with
  | nil => by_cases hv : v = 0#8 <;> simp [Store.write, Store.read, hv]
  | cons c r ih =>
    obtain ⟨-, hlt, hr⟩ := (Store.canonical_cons c r).1 hm
    unfold Store.write
    by_cases h1 : a < c.1
    · by_cases hv : v = 0#8
      · have hall : ∀ d ∈ c :: r, a < d.1 := by
          intro d hd
          rcases List.mem_cons.1 hd with rfl | hd
          · exact h1
          · have := hlt d hd; omega
        simp [h1, hv, Store.read_below _ _ hall]
      · simp [h1, hv, Store.read]
    · by_cases h2 : a = c.1
      · by_cases hv : v = 0#8
        · have hall : ∀ d ∈ r, a < d.1 := fun d hd => h2 ▸ hlt d hd
          simp [← h2, hv, Store.read_below _ _ hall]
        · simp [← h2, hv, Store.read]
      · have : ¬ c.1 = a := fun e => h2 e.symm
        simp [h1, h2, Store.read, this, ih hr]

/-- The one law of a byte write (R69): the written offset reads the value, every other offset as before. -/
theorem Store.read_write (m : Store) (a b : Nat) (v : Byte) (hm : Store.canonical m = true) :
    Store.read (Store.write m a v) b = if b = a then v else Store.read m b := by
  by_cases h : b = a
  · subst h; simp [Store.read_write_same m b v hm]
  · simp [h, Store.read_write_other m a b v h]

theorem Store.mem_write (m : Store) (a : Nat) (v : Byte) (d : Host.Cell) (hd : d ∈ Store.write m a v) :
    d = (a, v) ∨ d ∈ m := by
  induction m with
  | nil => by_cases hv : v = 0#8 <;> simp_all [Store.write]
  | cons c r ih =>
    unfold Store.write at hd
    split at hd
    · split at hd <;> simp_all
    · split at hd
      · split at hd
        · exact .inr (List.mem_cons_of_mem _ hd)
        · rcases List.mem_cons.1 hd with h | h
          · exact .inl h
          · exact .inr (List.mem_cons_of_mem _ h)
      · rcases List.mem_cons.1 hd with h | h
        · exact .inr (by simp [h])
        · exact (ih h).imp_right (List.mem_cons_of_mem _)

theorem Store.canonical_write (m : Store) (a : Nat) (v : Byte) (hm : Store.canonical m = true) :
    Store.canonical (Store.write m a v) = true := by
  induction m with
  | nil => by_cases hv : v = 0#8 <;> simp [Store.write, Store.canonical, hv]
  | cons c r ih =>
    obtain ⟨hc, hlt, hr⟩ := (Store.canonical_cons c r).1 hm
    unfold Store.write
    split
    · rename_i h1
      split
      · exact hm
      · rename_i hv
        refine (Store.canonical_cons _ _).2 ⟨hv, ?_, hm⟩
        intro d hd
        rcases List.mem_cons.1 hd with rfl | hd
        · exact h1
        · exact Nat.lt_trans h1 (hlt d hd)
    · split
      · rename_i h1 h2
        split
        · exact hr
        · rename_i hv
          exact (Store.canonical_cons _ _).2 ⟨hv, fun d hd => by have := hlt d hd; simp only; omega, hr⟩
      · rename_i h1 h2
        refine (Store.canonical_cons _ _).2 ⟨hc, ?_, ih hr⟩
        intro d hd
        rcases Store.mem_write r a v d hd with rfl | hd
        · simp only; omega
        · exact hlt d hd

theorem Store.write_bounded (m : Store) (a n : Nat) (v : Byte) (ha : a < n) (hm : ∀ d ∈ m, d.1 < n) :
    ∀ d ∈ Store.write m a v, d.1 < n := by
  intro d hd
  rcases Store.mem_write m a v d hd with rfl | hd
  · exact ha
  · exact hm d hd

theorem Store.mem_ofBytes (l : List Byte) : ∀ (a : Nat), ∀ d ∈ Store.ofBytes a l, a ≤ d.1 ∧ d.1 < a + l.length := by
  induction l with
  | nil => intro a d hd; simp [Store.ofBytes] at hd
  | cons b r ih =>
    intro a d hd
    unfold Store.ofBytes at hd
    simp only [List.length_cons]
    split at hd
    · have := ih (a + 1) d hd; omega
    · rcases List.mem_cons.1 hd with rfl | hd
      · simp
      · have := ih (a + 1) d hd; omega

theorem Store.canonical_ofBytes (l : List Byte) : ∀ a, Store.canonical (Store.ofBytes a l) = true := by
  induction l with
  | nil => intro a; rfl
  | cons b r ih =>
    intro a
    unfold Store.ofBytes
    split
    · exact ih _
    · rename_i hb
      exact (Store.canonical_cons _ _).2
        ⟨hb, fun d hd => by have := (Store.mem_ofBytes r (a + 1) d hd).1; simp only; omega, ih _⟩

/-- A store made of bytes reads them back, and 0 past their end. -/
theorem Store.read_ofBytes (l : List Byte) : ∀ (a i : Nat), Store.read (Store.ofBytes a l) (a + i) = l.getD i 0#8 := by
  induction l with
  | nil => intro a i; simp [Store.ofBytes, Store.read]
  | cons b r ih =>
    intro a i
    have hlow : Store.read (Store.ofBytes (a + 1) r) a = 0#8 :=
      Store.read_below _ _ fun d hd => by have := (Store.mem_ofBytes r (a + 1) d hd).1; omega
    unfold Store.ofBytes
    cases i with
    | zero =>
      by_cases hb : b = 0#8
      · simp [hb, hlow]
      · simp [hb, Store.read]
    | succ i =>
      have e : a + (i + 1) = a + 1 + i := by omega
      by_cases hb : b = 0#8
      · simp [hb, e, ih]
      · have : ¬ a = a + 1 + i := by omega
        simp [hb, e, Store.read, ih, this]

/-! ### The frame-buffer store -/

theorem Memory.wf_cons (e : Nat × Buffer) (r : Memory) :
    Memory.wf (e :: r) = true ↔ e.2.wf = true ∧ (∀ d ∈ r, e.1 < d.1) ∧ Memory.wf r = true := by
  simp [Memory.wf, and_assoc]

/-- The one law of making or replacing a record. -/
theorem Memory.find_put (m : Memory) (h k : Nat) (b : Buffer) :
    Memory.find (Memory.put m h b) k = if k = h then some b else Memory.find m k := by
  induction m with
  | nil => by_cases hk : k = h <;> simp [Memory.put, Memory.find, hk]; intro e; exact absurd e.symm hk
  | cons e r ih =>
    unfold Memory.put
    by_cases h1 : h < e.1
    · by_cases hk : k = h
      · simp [h1, Memory.find, hk]
      · have : ¬ h = k := fun e => hk e.symm
        simp [h1, Memory.find, hk, this]
    · by_cases h2 : h = e.1
      · by_cases hk : k = h
        · simp [← h2, Memory.find, hk]
        · have : ¬ h = k := fun e => hk e.symm
          simp [← h2, Memory.find, hk, this]
      · by_cases hk : k = h
        · have : ¬ e.1 = h := fun e => h2 e.symm
          subst hk
          simp [h1, h2, Memory.find, this, ih]
        · simp [h1, h2, Memory.find, ih, hk]

theorem Memory.find_below (m : Memory) (h : Nat) (hm : ∀ d ∈ m, h < d.1) : Memory.find m h = none := by
  induction m with
  | nil => rfl
  | cons e r ih =>
    have : ¬ e.1 = h := by have := hm e (by simp); omega
    simp only [Memory.find, if_neg this]
    exact ih fun d hd => hm d (by simp [hd])

/-- The one law of destroying. -/
theorem Memory.find_remove (m : Memory) (h k : Nat) (hm : Memory.wf m = true) :
    Memory.find (Memory.remove m h) k = if k = h then none else Memory.find m k := by
  induction m with
  | nil => simp [Memory.remove, Memory.find]
  | cons e r ih =>
    obtain ⟨-, hlt, hr⟩ := (Memory.wf_cons e r).1 hm
    unfold Memory.remove
    by_cases h1 : e.1 = h
    · by_cases hk : k = h
      · subst hk
        simp [h1, Memory.find_below r k (fun d hd => h1 ▸ hlt d hd)]
      · have : ¬ e.1 = k := fun e' => hk (e'.symm.trans h1)
        simp [h1, hk, Memory.find]
        intro e'; exact absurd e'.symm hk
    · by_cases hk : k = h
      · subst hk
        simp [h1, Memory.find, ih hr]
      · simp [h1, Memory.find, ih hr, hk]

theorem Memory.mem_put (m : Memory) (h : Nat) (b : Buffer) (d : Nat × Buffer) (hd : d ∈ Memory.put m h b) :
    d = (h, b) ∨ d ∈ m := by
  induction m with
  | nil => simpa [Memory.put] using hd
  | cons e r ih =>
    unfold Memory.put at hd
    split at hd
    · rcases List.mem_cons.1 hd with h' | h'
      · exact .inl h'
      · exact .inr h'
    · split at hd
      · rcases List.mem_cons.1 hd with h' | h'
        · exact .inl h'
        · exact .inr (List.mem_cons_of_mem _ h')
      · rcases List.mem_cons.1 hd with h' | h'
        · exact .inr (by simp [h'])
        · exact (ih h').imp_right (List.mem_cons_of_mem _)

theorem Memory.mem_remove (m : Memory) (h : Nat) (d : Nat × Buffer) (hd : d ∈ Memory.remove m h) : d ∈ m := by
  induction m with
  | nil => simp [Memory.remove] at hd
  | cons e r ih =>
    unfold Memory.remove at hd
    split at hd
    · exact List.mem_cons_of_mem _ hd
    · rcases List.mem_cons.1 hd with h' | h'
      · simp [h']
      · exact List.mem_cons_of_mem _ (ih h')

theorem Memory.wf_put (m : Memory) (h : Nat) (b : Buffer) (hm : Memory.wf m = true) (hb : b.wf = true) :
    Memory.wf (Memory.put m h b) = true := by
  induction m with
  | nil => simp [Memory.put, Memory.wf, hb]
  | cons e r ih =>
    obtain ⟨he, hlt, hr⟩ := (Memory.wf_cons e r).1 hm
    unfold Memory.put
    split
    · rename_i h1
      refine (Memory.wf_cons _ _).2 ⟨hb, ?_, hm⟩
      intro d hd
      rcases List.mem_cons.1 hd with rfl | hd
      · exact h1
      · exact Nat.lt_trans h1 (hlt d hd)
    · split
      · rename_i h1 h2
        exact (Memory.wf_cons _ _).2 ⟨hb, fun d hd => by have := hlt d hd; simp only; omega, hr⟩
      · rename_i h1 h2
        refine (Memory.wf_cons _ _).2 ⟨he, ?_, ih hr⟩
        intro d hd
        rcases Memory.mem_put r h b d hd with rfl | hd
        · simp only; omega
        · exact hlt d hd

theorem Memory.wf_remove (m : Memory) (h : Nat) (hm : Memory.wf m = true) :
    Memory.wf (Memory.remove m h) = true := by
  induction m with
  | nil => rfl
  | cons e r ih =>
    obtain ⟨he, hlt, hr⟩ := (Memory.wf_cons e r).1 hm
    unfold Memory.remove
    split
    · exact hr
    · exact (Memory.wf_cons _ _).2 ⟨he, fun d hd => hlt d (Memory.mem_remove r h d hd), ih hr⟩

/-- A live record of a well-formed store is well formed. -/
theorem Memory.wf_find (m : Memory) (h : Nat) (b : Buffer) (hm : Memory.wf m = true)
    (hf : Memory.find m h = some b) : b.wf = true := by
  induction m with
  | nil => simp [Memory.find] at hf
  | cons e r ih =>
    obtain ⟨he, -, hr⟩ := (Memory.wf_cons e r).1 hm
    unfold Memory.find at hf
    split at hf
    · cases hf; exact he
    · exact ih hr hf

theorem Memory.mem_of_find (m : Memory) (h : Nat) (b : Buffer) (hf : Memory.find m h = some b) : (h, b) ∈ m := by
  induction m with
  | nil => simp [Memory.find] at hf
  | cons e r ih =>
    unfold Memory.find at hf
    split at hf
    · rename_i h1; cases hf; subst h1; simp
    · exact List.mem_cons_of_mem _ (ih hf)

theorem Memory.find_of_mem (m : Memory) (h : Nat) (b : Buffer) (hm : Memory.wf m = true) (hb : (h, b) ∈ m) :
    Memory.find m h = some b := by
  induction m with
  | nil => simp at hb
  | cons e r ih =>
    obtain ⟨-, hlt, hr⟩ := (Memory.wf_cons e r).1 hm
    unfold Memory.find
    rcases List.mem_cons.1 hb with h' | h'
    · subst h'; simp
    · have := hlt _ h'
      have hne : ¬ e.1 = h := by simp only at this; omega
      simp [hne, ih hr h']

/-- The canonical form: two well-formed stores with the same content are the same list. -/
theorem Memory.ext_find (m n : Memory) (hm : Memory.wf m = true) (hn : Memory.wf n = true)
    (h : ∀ k, Memory.find m k = Memory.find n k) : m = n := by
  induction m generalizing n with
  | nil =>
    cases n with
    | nil => rfl
    | cons e r => have := h e.1; simp [Memory.find] at this
  | cons e r ih =>
    obtain ⟨-, hlt, hr⟩ := (Memory.wf_cons e r).1 hm
    cases n with
    | nil => have := h e.1; simp [Memory.find] at this
    | cons e' r' =>
      obtain ⟨-, hlt', hr'⟩ := (Memory.wf_cons e' r').1 hn
      have hkey : e.1 = e'.1 := by
        rcases Nat.lt_trichotomy e.1 e'.1 with hl | hl | hl
        · have h1 := h e.1
          have hb : Memory.find (e' :: r') e.1 = none := Memory.find_below _ _ fun d hd => by
            rcases List.mem_cons.1 hd with rfl | hd
            · exact hl
            · exact Nat.lt_trans hl (hlt' d hd)
          rw [hb] at h1; simp [Memory.find] at h1
        · exact hl
        · have h1 := h e'.1
          have hb : Memory.find (e :: r) e'.1 = none := Memory.find_below _ _ fun d hd => by
            rcases List.mem_cons.1 hd with rfl | hd
            · exact hl
            · exact Nat.lt_trans hl (hlt d hd)
          rw [hb] at h1; simp [Memory.find] at h1
      have hval : e.2 = e'.2 := by have h1 := h e.1; simpa [Memory.find, hkey] using h1
      have he : e = e' := Prod.ext hkey hval
      subst he
      congr 1
      refine ih r' hr hr' fun k => ?_
      by_cases hk : k = e.1
      · rw [hk, Memory.find_below r e.1 hlt, Memory.find_below r' e.1 hlt']
      · have h1 := h k
        have hk' : ¬ e.1 = k := fun e' => hk e'.symm
        simpa [Memory.find, hk'] using h1

end Sys2Proof.Machine
end

