-- ==== Sys2Proof/Laws/Buffer.lean ====
section
/-!
SUPPORT. Elements of a buffer: Get after Set (R64, R65), what painting a list of positions leaves, and that both keep
a record well formed.
-/
namespace Sys2Proof.Machine

/-! ### Ranges and indices -/

theorem Buffer.inRange_iff (b : Buffer) (x y : Int) :
    b.inRange x y = true ↔ 0 ≤ x ∧ x < b.width.toNat ∧ 0 ≤ y ∧ y < b.height.toNat := by
  simp [Buffer.inRange, and_assoc]

/-- Row-major indices of in-range positions are distinct (R61). -/
theorem Buffer.index_inj (b : Buffer) (x y x' y' : Int) (h : b.inRange x y = true) (h' : b.inRange x' y' = true)
    (e : b.index x y = b.index x' y') : x = x' ∧ y = y' := by
  obtain ⟨hx, hx', hy, -⟩ := (b.inRange_iff x y).1 h
  obtain ⟨kx, kx', ky, -⟩ := (b.inRange_iff x' y').1 h'
  unfold Buffer.index at e
  have hxn : x.toNat < b.width.toNat := by omega
  have kxn : x'.toNat < b.width.toNat := by omega
  have hxe : x.toNat = x'.toNat := by
    have h1 := congrArg (· % b.width.toNat) e
    simpa [Nat.mul_comm _ b.width.toNat, Nat.mul_add_mod, Nat.mod_eq_of_lt hxn, Nat.mod_eq_of_lt kxn] using h1
  have hye : y.toNat = y'.toNat := by
    have hpos : 0 < b.width.toNat := by omega
    have h2 : y.toNat * b.width.toNat = y'.toNat * b.width.toNat := by omega
    exact Nat.eq_of_mul_eq_mul_right hpos h2
  omega

/-- An in-range index is below W·H (R63). -/
theorem Buffer.index_lt (b : Buffer) (x y : Int) (h : b.inRange x y = true) :
    b.index x y < b.width.toNat * b.height.toNat := by
  obtain ⟨hx, hx', hy, hy'⟩ := (b.inRange_iff x y).1 h
  have h1 : y.toNat + 1 ≤ b.height.toNat := by omega
  have h2 : (y.toNat + 1) * b.width.toNat ≤ b.height.toNat * b.width.toNat := Nat.mul_le_mul_right _ h1
  have h3 : x.toNat < b.width.toNat := by omega
  unfold Buffer.index
  rw [Nat.mul_comm b.width.toNat]
  rw [Nat.add_mul] at h2
  omega

theorem Buffer.wf_iff (b : Buffer) :
    b.wf = true ↔ b.width ≠ 0#16 ∧ b.height ≠ 0#16 ∧ b.owner ≠ .free ∧ Store.canonical b.data = true
      ∧ ∀ c ∈ b.data, c.1 < b.bytes := by
  simp [Buffer.wf, and_assoc]

/-! ### GRAY elements -/

@[simp] theorem Buffer.setGray_elem (b : Buffer) (x y : Int) (v : Byte) : (b.setGray x y v).elem = b.elem := by
  unfold Buffer.setGray; split <;> rfl

@[simp] theorem Buffer.setGray_width (b : Buffer) (x y : Int) (v : Byte) : (b.setGray x y v).width = b.width := by
  unfold Buffer.setGray; split <;> rfl

@[simp] theorem Buffer.setGray_height (b : Buffer) (x y : Int) (v : Byte) : (b.setGray x y v).height = b.height := by
  unfold Buffer.setGray; split <;> rfl

@[simp] theorem Buffer.setGray_owner (b : Buffer) (x y : Int) (v : Byte) : (b.setGray x y v).owner = b.owner := by
  unfold Buffer.setGray; split <;> rfl

@[simp] theorem Buffer.setGray_inRange (b : Buffer) (x y x' y' : Int) (v : Byte) :
    (b.setGray x y v).inRange x' y' = b.inRange x' y' := by simp [Buffer.inRange]

theorem Buffer.setGray_canonical (b : Buffer) (x y : Int) (v : Byte) (hb : Store.canonical b.data = true) :
    Store.canonical (b.setGray x y v).data = true := by
  unfold Buffer.setGray
  split
  · exact Store.canonical_write _ _ _ hb
  · exact hb

/-- Get after Set on a GRAY buffer (R64, R65): exactly the element at (x, y) changes, and only in range. -/
theorem Buffer.getGray_setGray (b : Buffer) (x y x' y' : Int) (v : Byte) (hb : Store.canonical b.data = true) :
    (b.setGray x y v).getGray x' y' = if b.inRange x y = true ∧ x' = x ∧ y' = y then v else b.getGray x' y' := by
  by_cases h : b.inRange x y = true
  · by_cases h' : b.inRange x' y' = true
    · have hi : (b.setGray x y v).index x' y' = b.index x' y' := by simp [Buffer.index]
      have hd : (b.setGray x y v).data = Store.write b.data (b.index x y) v := by simp [Buffer.setGray, h]
      unfold Buffer.getGray
      rw [Buffer.setGray_inRange, hi, hd, Store.read_write _ _ _ _ hb]
      by_cases e : b.index x' y' = b.index x y
      · obtain ⟨rfl, rfl⟩ := b.index_inj x' y' x y h' h e
        simp [h]
      · have : ¬ (b.inRange x y = true ∧ x' = x ∧ y' = y) := by rintro ⟨-, rfl, rfl⟩; exact e rfl
        simp [e, h', this]
    · have : ¬ (b.inRange x y = true ∧ x' = x ∧ y' = y) := by rintro ⟨hh, rfl, rfl⟩; exact h' hh
      simp [Buffer.getGray, h', this]
  · simp [Buffer.setGray, h]

theorem Buffer.setGray_wf (b : Buffer) (x y : Int) (v : Byte) (hg : b.elem = .gray) (hb : b.wf = true) :
    (b.setGray x y v).wf = true := by
  obtain ⟨h1, h2, h3, h4, h5⟩ := (b.wf_iff).1 hb
  refine (Buffer.wf_iff _).2 ⟨by simpa, by simpa, by simpa, b.setGray_canonical x y v h4, ?_⟩
  have hbytes : (b.setGray x y v).bytes = b.bytes := by simp [Buffer.bytes]
  rw [hbytes]
  unfold Buffer.setGray
  split
  · rename_i h
    refine Store.write_bounded _ _ _ _ ?_ h5
    have := b.index_lt x y h
    simpa [Buffer.bytes, hg, elemSize] using this
  · exact h5

/-! ### Painting -/

@[simp] theorem Buffer.paint_nil (b : Buffer) (f : Nat → Nat → Byte) : b.paint [] f = b := rfl

theorem Buffer.paint_cons (b : Buffer) (p : Nat × Nat) (r : List (Nat × Nat)) (f : Nat → Nat → Byte) :
    b.paint (p :: r) f = (b.setGray p.1 p.2 (f p.1 p.2)).paint r f := rfl

@[simp] theorem Buffer.paint_elem (l : List (Nat × Nat)) (f : Nat → Nat → Byte) (b : Buffer) :
    (b.paint l f).elem = b.elem := by
  induction l generalizing b with
  | nil => rfl
  | cons p r ih => rw [Buffer.paint_cons, ih]; simp

@[simp] theorem Buffer.paint_width (l : List (Nat × Nat)) (f : Nat → Nat → Byte) (b : Buffer) :
    (b.paint l f).width = b.width := by
  induction l generalizing b with
  | nil => rfl
  | cons p r ih => rw [Buffer.paint_cons, ih]; simp

@[simp] theorem Buffer.paint_height (l : List (Nat × Nat)) (f : Nat → Nat → Byte) (b : Buffer) :
    (b.paint l f).height = b.height := by
  induction l generalizing b with
  | nil => rfl
  | cons p r ih => rw [Buffer.paint_cons, ih]; simp

@[simp] theorem Buffer.paint_owner (l : List (Nat × Nat)) (f : Nat → Nat → Byte) (b : Buffer) :
    (b.paint l f).owner = b.owner := by
  induction l generalizing b with
  | nil => rfl
  | cons p r ih => rw [Buffer.paint_cons, ih]; simp

theorem Buffer.paint_canonical (l : List (Nat × Nat)) (f : Nat → Nat → Byte) (b : Buffer)
    (hb : Store.canonical b.data = true) : Store.canonical (b.paint l f).data = true := by
  induction l generalizing b with
  | nil => exact hb
  | cons p r ih => rw [Buffer.paint_cons]; exact ih _ (b.setGray_canonical _ _ _ hb)

theorem Buffer.paint_wf (l : List (Nat × Nat)) (f : Nat → Nat → Byte) (b : Buffer) (hg : b.elem = .gray)
    (hb : b.wf = true) : (b.paint l f).wf = true := by
  induction l generalizing b with
  | nil => exact hb
  | cons p r ih => rw [Buffer.paint_cons]; exact ih _ (by simpa) (b.setGray_wf _ _ _ hg hb)

/-- What painting leaves: the listed in-range positions hold `f`, every other element is as before. -/
theorem Buffer.getGray_paint (l : List (Nat × Nat)) (f : Nat → Nat → Byte) (b : Buffer) (x y : Nat)
    (hb : Store.canonical b.data = true) :
    (b.paint l f).getGray x y = if (x, y) ∈ l ∧ b.inRange x y = true then f x y else b.getGray x y := by
  induction l generalizing b with
  | nil => simp
  | cons p r ih =>
    rw [Buffer.paint_cons, ih _ (b.setGray_canonical _ _ _ hb), Buffer.setGray_inRange,
      Buffer.getGray_setGray b _ _ _ _ _ hb]
    by_cases hr : b.inRange x y = true
    · by_cases hp : (x, y) = p
      · subst hp
        simp [hr]
      · have hne : ¬ (b.inRange p.1 p.2 = true ∧ (x : Int) = p.1 ∧ (y : Int) = p.2) := by
          rintro ⟨-, h1, h2⟩
          exact hp (Prod.ext (by exact_mod_cast h1) (by exact_mod_cast h2))
        rw [if_neg hne]
        simp [hr, hp]
    · have hne : ¬ (b.inRange p.1 p.2 = true ∧ (x : Int) = p.1 ∧ (y : Int) = p.2) := by
        rintro ⟨h0, h1, h2⟩
        rw [← h1, ← h2] at h0
        exact hr h0
      rw [if_neg hne]
      simp [hr]

/-- Painting writes no element at a coordinate that is no natural number, since none is in range. -/
theorem Buffer.getGray_outside (b : Buffer) (x y : Int) (h : b.inRange x y = false) : b.getGray x y = 0#8 := by
  simp [Buffer.getGray, h]

@[simp] theorem Buffer.paint_inRange (l : List (Nat × Nat)) (f : Nat → Nat → Byte) (b : Buffer) (x y : Int) :
    (b.paint l f).inRange x y = b.inRange x y := by simp [Buffer.inRange]

theorem mem_raster (w h x y : Nat) : (x, y) ∈ raster w h ↔ x < w ∧ y < h := by
  simp only [raster, List.mem_flatMap, List.mem_map, List.mem_range, Prod.mk.injEq]
  constructor
  · rintro ⟨a, ha, b, hb, rfl, rfl⟩; exact ⟨hb, ha⟩
  · rintro ⟨hx, hy⟩; exact ⟨y, hy, x, hx, rfl, rfl⟩

/-- The interior of R169: no position when W < 3 or H < 3. -/
theorem mem_interior (w h x y : Nat) : (x, y) ∈ interior w h ↔ 1 ≤ x ∧ x + 2 ≤ w ∧ 1 ≤ y ∧ y + 2 ≤ h := by
  simp only [interior, List.mem_flatMap, List.mem_map, List.mem_range'_1, Prod.mk.injEq]
  constructor
  · rintro ⟨a, ha, b, hb, rfl, rfl⟩; omega
  · rintro ⟨h1, h2, h3, h4⟩; exact ⟨y, by omega, x, by omega, rfl, rfl⟩

/-! ### RGB elements -/

@[simp] theorem Buffer.setRgb_elem (b : Buffer) (x y : Int) (p : Pixel) : (b.setRgb x y p).elem = b.elem := by
  unfold Buffer.setRgb; split <;> rfl

@[simp] theorem Buffer.setRgb_width (b : Buffer) (x y : Int) (p : Pixel) : (b.setRgb x y p).width = b.width := by
  unfold Buffer.setRgb; split <;> rfl

@[simp] theorem Buffer.setRgb_height (b : Buffer) (x y : Int) (p : Pixel) : (b.setRgb x y p).height = b.height := by
  unfold Buffer.setRgb; split <;> rfl

@[simp] theorem Buffer.setRgb_owner (b : Buffer) (x y : Int) (p : Pixel) : (b.setRgb x y p).owner = b.owner := by
  unfold Buffer.setRgb; split <;> rfl

@[simp] theorem Buffer.setRgb_inRange (b : Buffer) (x y x' y' : Int) (p : Pixel) :
    (b.setRgb x y p).inRange x' y' = b.inRange x' y' := by simp [Buffer.inRange]

theorem Buffer.setRgb_canonical (b : Buffer) (x y : Int) (p : Pixel) (hb : Store.canonical b.data = true) :
    Store.canonical (b.setRgb x y p).data = true := by
  unfold Buffer.setRgb
  split
  · exact Store.canonical_write _ _ _ (Store.canonical_write _ _ _ (Store.canonical_write _ _ _ hb))
  · exact hb

/-- Get after Set on an RGB buffer (R62, R64, R65). -/
theorem Buffer.getRgb_setRgb (b : Buffer) (x y x' y' : Int) (p : Pixel) (hb : Store.canonical b.data = true) :
    (b.setRgb x y p).getRgb x' y' = if b.inRange x y = true ∧ x' = x ∧ y' = y then p else b.getRgb x' y' := by
  by_cases h : b.inRange x y = true
  · by_cases h' : b.inRange x' y' = true
    · have hi : (b.setRgb x y p).index x' y' = b.index x' y' := by simp [Buffer.index]
      have c1 := Store.canonical_write b.data (3 * b.index x y) p.r hb
      have c2 := Store.canonical_write _ (3 * b.index x y + 1) p.g c1
      have hd : ∀ a, Store.read (b.setRgb x y p).data a
          = if a = 3 * b.index x y + 2 then p.b else if a = 3 * b.index x y + 1 then p.g
            else if a = 3 * b.index x y then p.r else Store.read b.data a := by
        intro a
        simp only [Buffer.setRgb, h, if_true]
        rw [Store.read_write _ _ _ _ c2, Store.read_write _ _ _ _ c1, Store.read_write _ _ _ _ hb]
      unfold Buffer.getRgb
      rw [Buffer.setRgb_inRange, hi, hd, hd, hd]
      by_cases e : b.index x' y' = b.index x y
      · obtain ⟨rfl, rfl⟩ := b.index_inj x' y' x y h' h e
        simp [h]
      · have hne : ¬ (b.inRange x y = true ∧ x' = x ∧ y' = y) := by rintro ⟨-, rfl, rfl⟩; exact e rfl
        have a1 : ¬ 3 * b.index x' y' = 3 * b.index x y + 2 := by omega
        have a2 : ¬ 3 * b.index x' y' = 3 * b.index x y + 1 := by omega
        have a3 : ¬ 3 * b.index x' y' = 3 * b.index x y := by omega
        have b1 : ¬ 3 * b.index x' y' + 1 = 3 * b.index x y + 2 := by omega
        have b2 : ¬ 3 * b.index x' y' + 1 = 3 * b.index x y + 1 := by omega
        have b3 : ¬ 3 * b.index x' y' + 1 = 3 * b.index x y := by omega
        have d1 : ¬ 3 * b.index x' y' + 2 = 3 * b.index x y + 2 := by omega
        have d2 : ¬ 3 * b.index x' y' + 2 = 3 * b.index x y + 1 := by omega
        have d3 : ¬ 3 * b.index x' y' + 2 = 3 * b.index x y := by omega
        simp only [h', if_true, a1, a2, a3, b1, b2, b3, d1, d2, d3, if_false, hne]
    · have hne : ¬ (b.inRange x y = true ∧ x' = x ∧ y' = y) := by rintro ⟨hh, rfl, rfl⟩; exact h' hh
      simp [Buffer.getRgb, h', hne]
  · simp [Buffer.setRgb, h]

theorem Buffer.setRgb_wf (b : Buffer) (x y : Int) (p : Pixel) (hg : b.elem = .rgb) (hb : b.wf = true) :
    (b.setRgb x y p).wf = true := by
  obtain ⟨h1, h2, h3, h4, h5⟩ := (b.wf_iff).1 hb
  refine (Buffer.wf_iff _).2 ⟨by simpa, by simpa, by simpa, b.setRgb_canonical x y p h4, ?_⟩
  have hbytes : (b.setRgb x y p).bytes = b.bytes := by simp [Buffer.bytes]
  rw [hbytes]
  unfold Buffer.setRgb
  split
  · rename_i h
    have hlt := b.index_lt x y h
    have hb3 : b.bytes = b.width.toNat * b.height.toNat * 3 := by simp [Buffer.bytes, hg, elemSize]
    exact Store.write_bounded _ _ _ _ (by omega)
      (Store.write_bounded _ _ _ _ (by omega) (Store.write_bounded _ _ _ _ (by omega) h5))
  · exact h5

/-! ### Either element type -/

theorem Buffer.setPort_wf (b : Buffer) (x y : Int) (v : BitVec 24) (hb : b.wf = true) : (b.setPort x y v).wf = true := by
  unfold Buffer.setPort
  split
  · exact b.setGray_wf _ _ _ ‹_› hb
  · exact b.setRgb_wf _ _ _ ‹_› hb

@[simp] theorem Buffer.setPort_elem (b : Buffer) (x y : Int) (v : BitVec 24) : (b.setPort x y v).elem = b.elem := by
  unfold Buffer.setPort; split <;> simp

@[simp] theorem Buffer.setPort_width (b : Buffer) (x y : Int) (v : BitVec 24) : (b.setPort x y v).width = b.width := by
  unfold Buffer.setPort; split <;> simp

@[simp] theorem Buffer.setPort_height (b : Buffer) (x y : Int) (v : BitVec 24) :
    (b.setPort x y v).height = b.height := by unfold Buffer.setPort; split <;> simp

@[simp] theorem Buffer.setPort_owner (b : Buffer) (x y : Int) (v : BitVec 24) : (b.setPort x y v).owner = b.owner := by
  unfold Buffer.setPort; split <;> simp

/-! ### Fresh and decoded records -/

/-- A fresh buffer has every element zero (R27). -/
@[simp] theorem Buffer.fresh_getGray (t : ElemType) (w h : BitVec 16) (o : OwnerTag) (x y : Int) :
    (Buffer.fresh t w h o).getGray x y = 0#8 := by
  simp [Buffer.getGray, Buffer.fresh, Store.read]

theorem Buffer.fresh_wf (t : ElemType) (w h : BitVec 16) (o : OwnerTag) (hw : w ≠ 0#16) (hh : h ≠ 0#16)
    (ho : o ≠ .free) : (Buffer.fresh t w h o).wf = true := by
  refine (Buffer.wf_iff _).2 ⟨hw, hh, ho, rfl, ?_⟩
  simp [Buffer.fresh]

theorem pixelBytes_length (px : List Pixel) : (pixelBytes px).length = 3 * px.length := by
  induction px with
  | nil => rfl
  | cons p r ih => simp only [pixelBytes, List.flatMap_cons] at ih ⊢; simp [ih]; omega

theorem Buffer.decoded_wf (w h : BitVec 16) (px : List Pixel) (hw : w ≠ 0#16) (hh : h ≠ 0#16)
    (hl : px.length = w.toNat * h.toNat) : (Buffer.decoded w h px).wf = true := by
  refine (Buffer.wf_iff _).2 ⟨hw, hh, by simp [Buffer.decoded], Store.canonical_ofBytes _ _, ?_⟩
  intro c hc
  have hc' : c ∈ Store.ofBytes 0 (pixelBytes px) := hc
  have h1 := (Store.mem_ofBytes _ 0 c hc').2
  rw [pixelBytes_length, hl] at h1
  simp only [Buffer.bytes, Buffer.decoded, elemSize]
  omega

end Sys2Proof.Machine
end

