-- ==== Sys2Proof/Laws/Ops.lean ====
section
/-!
SUPPORT. One lemma per shared operation that says once when it answers a next state and which one.
-/
namespace Sys2Proof.Machine

/-! ### Sequencing -/

@[simp] theorem bindNext_next (s : State) (k : State → Result) : bindNext (.next s) k = k s := rfl

@[simp] theorem bindNext_fault (f : Fault) (k : State → Result) : bindNext (.fault f) k = .fault f := rfl

@[simp] theorem bindNext_refused (q : Refusal) (k : State → Result) : bindNext (.refused q) k = .refused q := rfl

theorem bindNext_eq_next (r : Result) (k : State → Result) (t : State) :
    bindNext r k = .next t ↔ ∃ s, r = .next s ∧ k s = .next t := by
  cases r <;> simp

theorem withBuffer_eq_next (s : State) (h : Nat) (k : Buffer → Result) (t : State) :
    withBuffer s h k = .next t ↔ ∃ b, s.mem.find h = some b ∧ k b = .next t := by
  unfold withBuffer; cases s.mem.find h <;> simp

theorem withBuffer_live (s : State) (h : Nat) (k : Buffer → Result) (b : Buffer) (hb : s.mem.find h = some b) :
    withBuffer s h k = k b := by simp [withBuffer, hb]

theorem withBuffer_dead (s : State) (h : Nat) (k : Buffer → Result) (hb : s.mem.find h = none) :
    withBuffer s h k = .refused (.deadHandle h) := by simp [withBuffer, hb]

theorem withHostBuffer_eq_next (s : State) (h : Nat) (k : Buffer → Result) (t : State) :
    withHostBuffer s h k = .next t ↔ ∃ b, s.mem.find h = some b ∧ b.owner = .host ∧ k b = .next t := by
  unfold withHostBuffer
  rw [withBuffer_eq_next]
  constructor
  · rintro ⟨b, hb, hk⟩
    by_cases ho : b.owner = .host
    · exact ⟨b, hb, ho, by simpa [ho] using hk⟩
    · simp [ho] at hk
  · rintro ⟨b, hb, ho, hk⟩
    exact ⟨b, hb, by simpa [ho] using hk⟩

theorem withHostBuffer_live (s : State) (h : Nat) (k : Buffer → Result) (b : Buffer) (hb : s.mem.find h = some b)
    (ho : b.owner = .host) : withHostBuffer s h k = k b := by simp [withHostBuffer, withBuffer, hb, ho]

theorem onPort_eq_next (s : State) (f : State → Result) (t : State) :
    onPort s f = .next t ↔ s.running = false ∧ s.fatal = false ∧ f s.accepted = .next t := by
  unfold onPort; cases s.running <;> cases s.fatal <;> simp

theorem onPort_open (s : State) (f : State → Result) (hr : s.running = false) (hf : s.fatal = false) :
    onPort s f = f s.accepted := by simp [onPort, hr, hf]

theorem onPort_running (s : State) (f : State → Result) (hr : s.running = true) :
    onPort s f = .refused .runActive := by simp [onPort, hr]

theorem onPort_fatal (s : State) (f : State → Result) (hr : s.running = false) (hf : s.fatal = true) :
    onPort s f = .refused .afterFatal := by simp [onPort, hr, hf]

/-! ### Frame-buffer operations -/

theorem fbCreate_eq_next (t : ElemType) (w h : BitVec 16) (o : OwnerTag) (s u : State) :
    fbCreate t w h o s = .next u ↔
      w ≠ 0#16 ∧ h ≠ 0#16 ∧ s.holder o = none ∧ s.allocAnswer t w.toNat h.toNat = true
        ∧ u = (s.afterAlloc t w.toNat h.toNat).install (Buffer.fresh t w h o) := by
  unfold fbCreate
  split
  · rename_i hz; simp only [reduceCtorEq, false_iff]; tauto
  · rename_i hz
    split
    · rename_i hh; simp only [reduceCtorEq, false_iff]; tauto
    · rename_i hh
      split
      · rename_i ha
        simp only [Host.Outcome.next.injEq]
        push Not at hz hh
        simp [hz, hh, ha, eq_comm]
      · rename_i ha; simp [raiseAllocation, ha]

theorem fbDestroy_eq_next (h : Nat) (s u : State) :
    fbDestroy h s = .next u ↔ (∃ b, s.mem.find h = some b) ∧ u = s.removeBuffer h := by
  unfold fbDestroy
  rw [withBuffer_eq_next]
  simp [eq_comm]

theorem fbMove_eq_next (h : Nat) (o : OwnerTag) (s u : State) :
    fbMove h o s = .next u ↔ ∃ b, s.mem.find h = some b ∧ o ≠ .free ∧ acceptsType o b.elem = true
      ∧ s.holder o = none ∧ u = s.handTo h b o := by
  unfold fbMove
  rw [withBuffer_eq_next]
  refine exists_congr fun b => and_congr_right fun _ => ?_
  by_cases h1 : o = .free
  · simp [h1]
  · by_cases h2 : acceptsType o b.elem = false
    · simp [h1, h2]
    · by_cases h3 : s.holder o = none
      · simp [h1, h2, h3, eq_comm]
      · simp [h1, h2, h3]

theorem ppSwap_eq_next (s u : State) :
    ppSwap s = .next u ↔ ∃ a b ba bb, s.ppSrc = some a ∧ s.ppDst = some b ∧ s.mem.find a = some ba
      ∧ s.mem.find b = some bb ∧ u = s.exchange a b ba bb := by
  unfold ppSwap
  split
  · rename_i a b ha hb
    simp only [withBuffer_eq_next]
    constructor
    · rintro ⟨ba, hba, bb, hbb, he⟩
      exact ⟨a, b, ba, bb, ha, hb, hba, hbb, (Host.Outcome.next.inj he).symm⟩
    · rintro ⟨a', b', ba, bb, ha', hb', hba, hbb, rfl⟩
      cases ha.symm.trans ha'
      cases hb.symm.trans hb'
      exact ⟨ba, hba, bb, hbb, rfl⟩
  · rename_i ha; simp [ha]
  · rename_i hb; simp [hb]

/-! ### Datapath operations -/

theorem cscConvert_eq_next (hr hg : Nat) (s u : State) :
    cscConvert hr hg s = .next u ↔ ∃ rgb gray, s.mem.find hr = some rgb ∧ s.mem.find hg = some gray
      ∧ rgb.elem = .rgb ∧ gray.elem = .gray
      ∧ u = if dimsDiffer rgb gray then raiseDimensionMismatch s
            else s.putBuffer hg (convertBuffer s.params s.modeFloat rgb gray) := by
  unfold cscConvert
  simp only [withBuffer_eq_next, ← exists_and_left]
  refine exists_congr fun rgb => exists_congr fun gray => and_congr_right fun _ => and_congr_right fun _ => ?_
  by_cases h1 : rgb.elem = .rgb
  · by_cases h2 : gray.elem = .gray
    · by_cases h3 : dimsDiffer rgb gray = true
      · simp [h1, h2, h3, eq_comm]
      · simp [h1, h2, h3, eq_comm]
    · simp [h1, h2]
  · simp [h1]

theorem convApply_eq_next (pix : Buffer → Nat → Nat → Byte) (hin hout : Nat) (s u : State) :
    convApply pix hin hout s = .next u ↔ ∃ src dst, s.mem.find hin = some src ∧ s.mem.find hout = some dst
      ∧ src.elem = .gray ∧ dst.elem = .gray ∧ hin ≠ hout ∧ src.width = dst.width ∧ src.height = dst.height
      ∧ u = s.putBuffer hout (filterBuffer pix src dst) := by
  unfold convApply
  rw [withBuffer_eq_next]
  constructor
  · rintro ⟨src, h1, h2⟩
    obtain ⟨dst, h3, h4⟩ := (withBuffer_eq_next _ _ _ _).1 h2
    refine ⟨src, dst, h1, h3, ?_⟩
    split at h4
    · simp at h4
    · split at h4
      · simp at h4
      · split at h4
        · simp at h4
        · split at h4
          · simp at h4
          · simp_all
  · rintro ⟨src, dst, h1, h2, h3, h4, h5, h6, h7, rfl⟩
    refine ⟨src, h1, ?_⟩
    rw [withBuffer_live _ _ _ _ h2]
    simp [h3, h4, h5, h6, h7]

/-! ### The scheduler's pieces -/

theorem filterPass_eq_next (op : Nat → Nat → State → Result) (s u : State) :
    filterPass op s = .next u ↔ ∃ a b t, s.ppSrc = some a ∧ s.ppDst = some b ∧ op a b s = .next t
      ∧ ppSwap t = .next u := by
  unfold filterPass
  split
  · rename_i a b ha hb
    rw [bindNext_eq_next]
    constructor
    · rintro ⟨t, h1, h2⟩; exact ⟨a, b, t, ha, hb, h1, h2⟩
    · rintro ⟨a', b', t, ha', hb', h1, h2⟩
      cases ha.symm.trans ha'
      cases hb.symm.trans hb'
      exact ⟨t, h1, h2⟩
  · rename_i ha; simp [ha]
  · rename_i hb; simp [hb]

theorem dropScratch_eq_next (s u : State) :
    dropScratch s = .next u ↔ ∃ h b, s.ppDst = some h ∧ s.mem.find h = some b
      ∧ u = (s.removeBuffer h).setHolder .ppDst none := by
  unfold dropScratch
  split
  · rename_i hd; simp [hd]
  · rename_i h hd
    rw [bindNext_eq_next]
    constructor
    · rintro ⟨t, h1, h2⟩
      obtain ⟨⟨b, hb⟩, rfl⟩ := (fbDestroy_eq_next _ _ _).1 h1
      exact ⟨h, b, hd, hb, (Host.Outcome.next.inj h2).symm⟩
    · rintro ⟨h', b, hd', hb, rfl⟩
      cases hd.symm.trans hd'
      exact ⟨_, (fbDestroy_eq_next _ _ _).2 ⟨⟨b, hb⟩, rfl⟩, rfl⟩

theorem moveHeld_eq_next (slot : Option Nat) (o : OwnerTag) (s u : State) :
    moveHeld slot o s = .next u ↔ ∃ h, slot = some h ∧ fbMove h o s = .next u := by
  unfold moveHeld; cases slot <;> simp

theorem convertHeld_eq_next (r : Nat) (s u : State) :
    convertHeld r s = .next u ↔ ∃ g, s.cscOut = some g ∧ cscConvert r g s = .next u := by
  unfold convertHeld; cases s.cscOut <;> simp

theorem actOutput_empty (s : State) (h : s.proc = none) : actOutput s = .next s := by simp [actOutput, h]

theorem actFilter_empty (s : State) (h : s.gray = none) : actFilter s = .next s := by simp [actFilter, h]

theorem actConvert_empty (s : State) (h : s.raw = none) : actConvert s = .next s := by simp [actConvert, h]

theorem actOutput_eq_next (s u : State) (h : Nat) (hp : s.proc = some h) :
    actOutput s = .next u ↔ ∃ b, s.mem.find h = some b ∧ u = ((s.handToEncoder b).removeBuffer h).countOutput := by
  unfold actOutput
  rw [hp]
  simp only [withBuffer_eq_next, bindNext_eq_next, fbDestroy_eq_next]
  refine exists_congr fun b => and_congr_right fun hb => ?_
  constructor
  · rintro ⟨t, ⟨-, rfl⟩, he⟩
    exact (Host.Outcome.next.inj he).symm
  · rintro rfl
    exact ⟨_, ⟨⟨b, by simpa using hb⟩, rfl⟩, rfl⟩

/-- When a grid is one that every rule covers. -/
theorem gridOk_iff (w h : Nat) (px : List Pixel) : gridOk w h px = true ↔
    1 ≤ w ∧ w ≤ 65535 ∧ 1 ≤ h ∧ h ≤ 65535 ∧ px.length = w * h := by
  have hp : (2 : Nat) ^ hardware.wBits = 65536 ∧ (2 : Nat) ^ hardware.hBits = 65536 := by decide
  simp only [gridOk, hp.1, hp.2, Bool.and_eq_true, decide_eq_true_eq]
  omega

theorem acceptGrid_eq_next (w h : Nat) (px : List Pixel) (s u : State) :
    acceptGrid w h px s = .next u ↔ gridOk w h px = true ∧ s.raw = none ∧ s.allocAnswer .rgb w h = true
      ∧ u = ((s.afterAlloc .rgb w h).install
              (Buffer.decoded (BitVec.ofNat 16 w) (BitVec.ofNat 16 h) px)).countInput := by
  unfold acceptGrid
  by_cases h1 : gridOk w h px = false
  · simp [h1]
  · by_cases h2 : s.raw = none
    · by_cases h3 : s.allocAnswer .rgb w h = true
      · simp [h1, h2, h3, eq_comm]
      · simp [h1, h2, h3, raiseAllocation]
    · simp [h1, h2]

theorem actInput_eq_next (s u : State) :
    actInput s = .next u ↔
      (¬ s.inCursor.toNat < s.total.toNat ∧ u = s) ∨
      (s.inCursor.toNat < s.total.toNat ∧ ∃ id, s.pending[s.inCursor.toNat]? = some id ∧
        ((∃ cause, s.decodeAnswer id = .error cause ∧ u = raiseDecodeFailure (s.afterDecode id) cause) ∨
         (∃ w h px, s.decodeAnswer id = .grid w h px ∧ acceptGrid w h px (s.afterDecode id) = .next u))) := by
  unfold actInput
  split
  · rename_i hlt
    split
    · rename_i hn; simp [hlt, hn]
    · rename_i id hid
      split
      · rename_i w h px hd; simp [hlt, hid, hd]
      · rename_i c hd; simp [hlt, hid, hd, eq_comm]
  · rename_i hlt; simp [hlt, eq_comm]

end Sys2Proof.Machine
end

