-- ==== Sys2Proof/Laws/Datapath.lean ====
section
/-!
SUPPORT. What the two datapath operations leave in their destination buffer, element by element.
-/
namespace Sys2Proof.Machine

/-! ### CSC.CONVERT -/

@[simp] theorem convertBuffer_elem (p : Params) (f : Bool) (r g : Buffer) : (convertBuffer p f r g).elem = g.elem := by
  simp [convertBuffer]

@[simp] theorem convertBuffer_width (p : Params) (f : Bool) (r g : Buffer) :
    (convertBuffer p f r g).width = g.width := by simp [convertBuffer]

@[simp] theorem convertBuffer_height (p : Params) (f : Bool) (r g : Buffer) :
    (convertBuffer p f r g).height = g.height := by simp [convertBuffer]

@[simp] theorem convertBuffer_owner (p : Params) (f : Bool) (r g : Buffer) :
    (convertBuffer p f r g).owner = g.owner := by simp [convertBuffer]

theorem convertBuffer_wf (p : Params) (f : Bool) (r g : Buffer) (hg : g.elem = .gray) (hw : g.wf = true) :
    (convertBuffer p f r g).wf = true := Buffer.paint_wf _ _ _ hg hw

theorem dimsDiffer_false (a b : Buffer) : dimsDiffer a b = false ↔ a.width = b.width ∧ a.height = b.height := by
  simp [dimsDiffer]

/-- Every pixel is converted, border included (R140). -/
theorem getGray_convertBuffer (p : Params) (f : Bool) (r g : Buffer) (x y : Nat) (hw : g.wf = true)
    (hd : dimsDiffer r g = false) (h : g.inRange x y = true) :
    (convertBuffer p f r g).getGray x y = lumaPixel p f (r.getRgb x y) := by
  obtain ⟨h1, h2⟩ := (dimsDiffer_false r g).1 hd
  obtain ⟨-, hx, -, hy⟩ := (g.inRange_iff x y).1 h
  unfold convertBuffer
  rw [Buffer.getGray_paint _ _ _ _ _ ((Buffer.wf_iff g).1 hw).2.2.2.1, if_pos]
  exact ⟨(mem_raster _ _ _ _).2 (by rw [h1, h2]; omega), h⟩

/-! ### CONV.* and SOBEL.MAG -/

@[simp] theorem filterBuffer_elem (pix : Buffer → Nat → Nat → Byte) (s d : Buffer) :
    (filterBuffer pix s d).elem = d.elem := by simp [filterBuffer]

@[simp] theorem filterBuffer_width (pix : Buffer → Nat → Nat → Byte) (s d : Buffer) :
    (filterBuffer pix s d).width = d.width := by simp [filterBuffer]

@[simp] theorem filterBuffer_height (pix : Buffer → Nat → Nat → Byte) (s d : Buffer) :
    (filterBuffer pix s d).height = d.height := by simp [filterBuffer]

@[simp] theorem filterBuffer_owner (pix : Buffer → Nat → Nat → Byte) (s d : Buffer) :
    (filterBuffer pix s d).owner = d.owner := by simp [filterBuffer]

theorem filterBuffer_wf (pix : Buffer → Nat → Nat → Byte) (s d : Buffer) (hg : d.elem = .gray) (hw : d.wf = true) :
    (filterBuffer pix s d).wf = true := Buffer.paint_wf _ _ _ hg hw

/-- The interior is written, every other element is as it was (R169, R193). -/
theorem getGray_filterBuffer (pix : Buffer → Nat → Nat → Byte) (s d : Buffer) (x y : Nat) (hw : d.wf = true)
    (h1 : s.width = d.width) (h2 : s.height = d.height) :
    (filterBuffer pix s d).getGray x y
      = if 1 ≤ x ∧ x + 2 ≤ d.width.toNat ∧ 1 ≤ y ∧ y + 2 ≤ d.height.toNat then pix s x y else d.getGray x y := by
  unfold filterBuffer
  rw [Buffer.getGray_paint _ _ _ _ _ ((Buffer.wf_iff d).1 hw).2.2.2.1]
  have hm := mem_interior s.width.toNat s.height.toNat x y
  rw [h1, h2] at hm
  by_cases h : 1 ≤ x ∧ x + 2 ≤ d.width.toNat ∧ 1 ≤ y ∧ y + 2 ≤ d.height.toNat
  · have hr : d.inRange x y = true := (d.inRange_iff x y).2 (by omega)
    rw [if_pos ⟨by rw [h1, h2]; exact hm.2 h, hr⟩, if_pos h]
  · rw [if_neg h, if_neg (fun hh => h (hm.1 (by rw [← h1, ← h2]; exact hh.1)))]

/-- A buffer with no interior is left as it was (R178). -/
theorem filterBuffer_small (pix : Buffer → Nat → Nat → Byte) (s d : Buffer)
    (h : s.width.toNat < 3 ∨ s.height.toNat < 3) : filterBuffer pix s d = d := by
  unfold filterBuffer
  have : interior s.width.toNat s.height.toNat = [] := by
    apply List.eq_nil_iff_forall_not_mem.2
    rintro ⟨x, y⟩ hm
    have := (mem_interior _ _ _ _).1 hm
    omega
  rw [this, Buffer.paint_nil]

/-! ### From elements to bytes -/

/-- No listed byte lies beyond a record's offsets (R63). -/
theorem Buffer.read_beyond (b : Buffer) (a : Nat) (hw : b.wf = true) (ha : b.bytes ≤ a) : Store.read b.data a = 0#8 := by
  have hb := ((Buffer.wf_iff b).1 hw).2.2.2.2
  generalize b.data = m at hb
  induction m with
  | nil => rfl
  | cons c r ih =>
    have hc := hb c (List.mem_cons_self)
    unfold Store.read
    rw [if_neg (by omega)]
    exact ih (fun d hd => hb d (List.mem_cons_of_mem _ hd))

/-- Byte `y·W + x` of a GRAY buffer is element (x, y) (R61, R62). -/
theorem Buffer.read_element (b : Buffer) (x y : Nat) (hx : x < b.width.toNat) (hy : y < b.height.toNat) :
    Store.read b.data (y * b.width.toNat + x) = b.getGray x y := by
  have h : b.inRange x y = true := (b.inRange_iff x y).2 (by omega)
  simp [Buffer.getGray, h, Buffer.index]

/-- Every byte offset below W·H is that of an element. -/
theorem offset_element (w h a : Nat) (ha : a < w * h) : a % w < w ∧ a / w < h ∧ a / w * w + a % w = a := by
  have hw : 0 < w := by rcases Nat.eq_zero_or_pos w with e | e <;> simp_all
  refine ⟨Nat.mod_lt _ hw, Nat.div_lt_of_lt_mul ha, ?_⟩
  rw [Nat.mul_comm]; exact Nat.div_add_mod a w

theorem Buffer.setGray_record (b : Buffer) (x y : Int) (v : Byte) : ∃ d, b.setGray x y v = { b with data := d } := by
  unfold Buffer.setGray; split
  · exact ⟨_, rfl⟩
  · exact ⟨b.data, rfl⟩

/-- Painting changes nothing of a record but its bytes (R126). -/
theorem Buffer.paint_record (l : List (Nat × Nat)) (f : Nat → Nat → Byte) (b : Buffer) :
    ∃ d, b.paint l f = { b with data := d } := by
  induction l generalizing b with
  | nil => exact ⟨b.data, rfl⟩
  | cons p r ih =>
    obtain ⟨d, hd⟩ := b.setGray_record p.1 p.2 (f p.1 p.2)
    obtain ⟨e, he⟩ := ih { b with data := d }
    exact ⟨e, by rw [Buffer.paint_cons, hd, he]⟩

/-- What a convolution leaves when its result stands at H1, in the terms of the statements. -/
theorem interiorWritten_filterBuffer (s : State) (src dst : Buffer) (pix : Buffer → Nat → Nat → Byte)
    (h : ConvOperands s src dst) :
    InteriorWritten s (s.accepted.putBuffer s.ports.h1 (filterBuffer pix src dst)) dst (pix src) := by
  have hw : dst.wf = true := Memory.wf_find _ _ _ h.memory h.dest
  have hw' := filterBuffer_wf pix src dst h.grayDest hw
  have hf : ∀ k, (s.accepted.putBuffer s.ports.h1 (filterBuffer pix src dst)).mem.find k
      = if k = s.ports.h1 then some (filterBuffer pix src dst) else s.mem.find k := by
    intro k; rw [State.putBuffer_mem, Memory.find_put]; rfl
  have hby : ∀ a, (s.accepted.putBuffer s.ports.h1 (filterBuffer pix src dst)).byteAt s.ports.h1 a
      = Store.read (filterBuffer pix src dst).data a := by intro a; unfold State.byteAt; rw [hf, if_pos rfl]
  have hby0 : ∀ a, s.byteAt s.ports.h1 a = Store.read dst.data a := by intro a; simp [State.byteAt, h.dest]
  have hel : ∀ x y : Nat, x < dst.width.toNat → y < dst.height.toNat →
      Store.read (filterBuffer pix src dst).data (y * dst.width.toNat + x) = (filterBuffer pix src dst).getGray x y := by
    intro x y hx hy
    have := Buffer.read_element (filterBuffer pix src dst) x y (by simpa using hx) (by simpa using hy)
    simpa using this
  refine ⟨rfl, ?_, ?_, ?_, ?_⟩
  · intro k hk; rw [hf, if_neg hk]
  · obtain ⟨d, hd⟩ := Buffer.paint_record (interior src.width.toNat src.height.toNat) (pix src) dst
    exact ⟨d, by rw [hf, if_pos rfl]; exact congrArg some hd⟩
  · intro x y h1 h2 h3 h4
    rw [hby, hel x y (by omega) (by omega), getGray_filterBuffer pix src dst x y hw h.sameWidth h.sameHeight,
      if_pos ⟨h1, h2, h3, h4⟩]
  · intro a ha
    rw [hby, hby0]
    by_cases hlt : a < dst.width.toNat * dst.height.toNat
    · obtain ⟨h1, h2, h3⟩ := offset_element _ _ _ hlt
      rw [← h3, hel _ _ h1 h2, getGray_filterBuffer pix src dst _ _ hw h.sameWidth h.sameHeight, if_neg,
        Buffer.read_element _ _ _ h1 h2]
      rintro ⟨k1, k2, k3, k4⟩
      exact ha _ _ k1 k2 k3 k4 h3.symm
    · rw [Buffer.read_beyond _ _ hw', Buffer.read_beyond _ _ hw]
      · simpa [Buffer.bytes, h.grayDest, elemSize] using hlt
      · simpa [Buffer.bytes, h.grayDest, elemSize] using hlt

/-- What a conversion leaves when its result stands at H1, in the terms of the statements. -/
theorem lumaWritten_convertBuffer (s : State) (rgb gray : Buffer) (h : CscOperands s rgb gray)
    (hd : dimsDiffer rgb gray = false) :
    LumaWritten s (s.accepted.putBuffer s.ports.h1 (convertBuffer s.params s.modeFloat rgb gray)) gray
      (lumaPixel s.params s.modeFloat) := by
  have hw : gray.wf = true := Memory.wf_find _ _ _ h.memory h.dest
  have hw' := convertBuffer_wf s.params s.modeFloat rgb gray h.grayDest hw
  obtain ⟨d1, d2⟩ := (dimsDiffer_false rgb gray).1 hd
  generalize hc : convertBuffer s.params s.modeFloat rgb gray = c at *
  have hcw : c.width = gray.width := by rw [← hc]; simp
  have hch : c.height = gray.height := by rw [← hc]; simp
  have hce : c.elem = .gray := by rw [← hc]; simpa using h.grayDest
  have hf : ∀ k, (s.accepted.putBuffer s.ports.h1 c).mem.find k = if k = s.ports.h1 then some c else s.mem.find k := by
    intro k; rw [State.putBuffer_mem, Memory.find_put]; rfl
  have hby : ∀ a, (s.accepted.putBuffer s.ports.h1 c).byteAt s.ports.h1 a = Store.read c.data a := by
    intro a; unfold State.byteAt; rw [hf, if_pos rfl]
  have hby1 : ∀ a, s.byteAt s.ports.h1 a = Store.read gray.data a := by intro a; simp [State.byteAt, h.dest]
  have hby0 : ∀ a, s.byteAt s.ports.h0 a = Store.read rgb.data a := by intro a; simp [State.byteAt, h.source]
  refine ⟨rfl, ?_, ?_, ?_, ?_⟩
  · intro k hk; rw [hf, if_neg hk]
  · obtain ⟨d, hd⟩ := Buffer.paint_record (raster rgb.width.toNat rgb.height.toNat)
      (fun x y => lumaPixel s.params s.modeFloat (rgb.getRgb x y)) gray
    exact ⟨d, by rw [hf, if_pos rfl, ← hc]; exact congrArg some hd⟩
  · intro x y hx hy
    have hr : gray.inRange x y = true := (gray.inRange_iff x y).2 (by omega)
    have hr' : rgb.inRange x y = true := (rgb.inRange_iff x y).2 (by rw [d1, d2]; omega)
    have e1 := Buffer.read_element c x y (by rw [hcw]; exact hx) (by rw [hch]; exact hy)
    rw [hcw] at e1
    rw [hby, e1, ← hc, getGray_convertBuffer _ _ _ _ _ _ hw hd hr]
    unfold State.rgbAt Buffer.getRgb Buffer.index
    simp [hby0, hr', d1]
  · intro a ha
    rw [hby, hby1, Buffer.read_beyond _ _ hw', Buffer.read_beyond _ _ hw]
    · simpa [Buffer.bytes, h.grayDest, elemSize] using ha
    · simpa [Buffer.bytes, hce, hcw, hch, elemSize] using ha

/-- CSC.CONVERT reads no Kernel Table, and of the parameters FLOAT only, in FLOAT mode (R140, R148). -/
theorem convertBuffer_congr : ∀ (p q : Params) (m : Bool), sameEntries .cscConvert m p q →
    convertBuffer q m = convertBuffer p m := by
  intro p q m h
  have l : lumaPixel q m = lumaPixel p m := by
    funext x
    cases m
    · simp only [lumaPixel, Bool.false_eq_true, if_false]
    · simp only [sameEntries, if_true] at h
      simp only [lumaPixel, h.1]
  funext a b
  simp only [convertBuffer, l]

/-- CONV.k reads entry k of the active mode's table, and FLOAT in FLOAT mode (R169, R148). -/
theorem convPixel_congr : ∀ k (i : Instr), entriesRead i = [k] →
    ∀ (p q : Params) (m : Bool), sameEntries i m p q → convPixel q m k = convPixel p m k := by
  intro k i hk p q m h
  funext b x y
  cases m <;> simp [sameEntries, hk] at h <;> simp [convPixel, h]

/-- SOBEL.MAG reads the two Sobel entries of the active mode's table, and FLOAT in FLOAT mode (R190, R148). -/
theorem sobelPixel_congr : ∀ (p q : Params) (m : Bool), sameEntries .sobelMag m p q →
    sobelPixel q m = sobelPixel p m := by
  intro p q m h
  funext b x y
  cases m <;> simp [sameEntries, entriesRead, KernelTable.entry] at h <;> simp [sobelPixel, sobelFloat, sobelFixed, h]

end Sys2Proof.Machine
end

