-- ==== Sys2Proof/Laws/Owned.lean ====
section
/-!
SUPPORT. Each shared operation keeps the ownership invariant `Owned` (R128), stated once per operation.
-/
namespace Sys2Proof.Machine

/-- Owned speaks of the store, NEXT_HANDLE and the holders only. -/
theorem Owned.congr {s t : State} (h : Owned s) (hm : t.mem = s.mem) (hn : t.nextHandle = s.nextHandle)
    (hh : ∀ o, t.holder o = s.holder o) : Owned t where
  wf := hm ▸ h.wf
  fresh := by rw [hm, hn]; exact h.fresh
  held := by intro k b hb ho; rw [hh]; rw [hm] at hb; exact h.held k b hb ho
  named := by intro o k hk; rw [hh] at hk; rw [hm]; exact h.named o k hk

/-- A live buffer's record is well formed. -/
theorem Owned.recordWf {s : State} (h : Owned s) {k : Nat} {b : Buffer} (hb : s.mem.find k = some b) : b.wf = true :=
  Memory.wf_find _ _ _ h.wf hb

/-- The next handle is dead. -/
theorem Owned.next_dead {s : State} (h : Owned s) : s.mem.find s.nextHandle = none := by
  cases hf : s.mem.find s.nextHandle with
  | none => rfl
  | some b => exact absurd (h.fresh _ _ hf) (Nat.lt_irrefl _)

/-- No holder names the next handle. -/
theorem Owned.next_unheld {s : State} (h : Owned s) (o : OwnerTag) : s.holder o ≠ some s.nextHandle := by
  intro hh
  obtain ⟨b, hb, -⟩ := h.named o _ hh
  rw [h.next_dead] at hb
  cases hb

/-- Changing only a record's contents keeps ownership. -/
theorem Owned.putSame {s : State} (h : Owned s) {k : Nat} {b c : Buffer} (hb : s.mem.find k = some b)
    (ho : c.owner = b.owner) (he : c.elem = b.elem) (hc : c.wf = true) : Owned (s.putBuffer k c) where
  wf := Memory.wf_put _ _ _ h.wf hc
  fresh := by
    intro j d hd
    simp only [State.putBuffer_mem, Memory.find_put] at hd
    split at hd
    · rename_i e; subst e; exact h.fresh _ _ hb
    · exact h.fresh _ _ hd
  held := by
    intro j d hd hne
    simp only [State.putBuffer_mem, Memory.find_put] at hd
    rw [State.holder_putBuffer]
    split at hd
    · rename_i e; subst e; cases hd; rw [ho] at hne ⊢; exact h.held _ _ hb hne
    · exact h.held _ _ hd hne
  named := by
    intro o j hj
    rw [State.holder_putBuffer] at hj
    obtain ⟨d, hd, h1, h2⟩ := h.named o j hj
    simp only [State.putBuffer_mem, Memory.find_put]
    split
    · rename_i e; subst e
      cases hb.symm.trans hd
      exact ⟨c, rfl, by rw [ho]; exact h1, by rw [he]; exact h2⟩
    · exact ⟨d, hd, h1, h2⟩

/-- Installing a new well-formed buffer under an owner whose holder is EMPTY keeps ownership. -/
theorem Owned.install {s : State} (h : Owned s) {b : Buffer} (hb : b.wf = true) (hh : s.holder b.owner = none)
    (ht : acceptsType b.owner b.elem = true) : Owned (s.install b) where
  wf := by rw [State.install_mem]; exact Memory.wf_put _ _ _ h.wf hb
  fresh := by
    intro j d hd
    simp only [State.install_mem, State.install_nextHandle, Memory.find_put] at hd ⊢
    split at hd
    · omega
    · exact Nat.lt_succ_of_lt (h.fresh _ _ hd)
  held := by
    intro j d hd hne
    have hfree := ((Buffer.wf_iff b).1 hb).2.2.1
    simp only [State.install_mem, Memory.find_put] at hd
    rw [State.holder_install]
    split at hd
    · rename_i e; cases hd; rw [if_pos ⟨rfl, hne, hfree⟩, e]
    · have h1 := h.held _ _ hd hne
      rw [if_neg]
      · exact h1
      · rintro ⟨e, -⟩
        rw [← e, hh] at h1
        cases h1
  named := by
    intro o j hj
    rw [State.holder_install] at hj
    simp only [State.install_mem, Memory.find_put]
    split at hj
    · rename_i e
      cases hj
      exact ⟨b, by simp, e.1, by rw [← e.1]; exact ht⟩
    · obtain ⟨d, hd, h1, h2⟩ := h.named o j hj
      have : ¬ j = s.nextHandle := by rintro rfl; exact h.next_unheld o hj
      exact ⟨d, by simp [this, hd], h1, h2⟩

/-- Freeing the buffer a holder names, and clearing the holder, keeps ownership. -/
theorem Owned.drop {s : State} (h : Owned s) {o : OwnerTag} {k : Nat} (hk : s.holder o = some k) :
    Owned ((s.removeBuffer k).setHolder o none) where
  wf := by simp only [State.setHolder_mem, State.removeBuffer_mem]; exact Memory.wf_remove _ _ h.wf
  fresh := by
    intro j d hd
    simp only [State.setHolder_mem, State.removeBuffer_mem, Memory.find_remove _ _ _ h.wf] at hd
    split at hd
    · cases hd
    · simpa using h.fresh _ _ hd
  held := by
    intro j d hd hne
    simp only [State.setHolder_mem, State.removeBuffer_mem, Memory.find_remove _ _ _ h.wf] at hd
    split at hd
    · cases hd
    · rename_i hjk
      have h1 := h.held _ _ hd hne
      rw [State.holder_setHolder, if_neg, State.holder_removeBuffer]
      · exact h1
      · rintro ⟨e, -⟩
        rw [← e, hk] at h1
        exact hjk (Option.some.inj h1).symm
  named := by
    intro p j hj
    rw [State.holder_setHolder] at hj
    split at hj
    · cases hj
    · rename_i hne
      rw [State.holder_removeBuffer] at hj
      obtain ⟨d, hd, h1, h2⟩ := h.named p j hj
      simp only [State.setHolder_mem, State.removeBuffer_mem, Memory.find_remove _ _ _ h.wf]
      have hjk : ¬ j = k := by
        rintro rfl
        obtain ⟨d', hd', h1', -⟩ := h.named o j hk
        cases hd.symm.trans hd'
        have hop : o = p := h1'.symm.trans h1
        refine hne ⟨hop, ?_, ?_⟩
        · rintro rfl; simp at hk
        · rintro rfl; simp at hk
      exact ⟨d, by simp [hjk, hd], h1, h2⟩

/-- Freeing a HOST buffer keeps ownership. -/
theorem Owned.dropHost {s : State} (h : Owned s) {k : Nat} {b : Buffer} (hb : s.mem.find k = some b)
    (ho : b.owner = .host) : Owned (s.removeBuffer k) where
  wf := Memory.wf_remove _ _ h.wf
  fresh := by
    intro j d hd
    simp only [State.removeBuffer_mem, Memory.find_remove _ _ _ h.wf] at hd
    split at hd
    · cases hd
    · exact h.fresh _ _ hd
  held := by
    intro j d hd hne
    simp only [State.removeBuffer_mem, Memory.find_remove _ _ _ h.wf] at hd
    split at hd
    · cases hd
    · rw [State.holder_removeBuffer]; exact h.held _ _ hd hne
  named := by
    intro p j hj
    rw [State.holder_removeBuffer] at hj
    obtain ⟨d, hd, h1, h2⟩ := h.named p j hj
    simp only [State.removeBuffer_mem, Memory.find_remove _ _ _ h.wf]
    have hjk : ¬ j = k := by
      rintro rfl
      cases hd.symm.trans hb
      rw [← h1, ho] at hj
      simp at hj
    exact ⟨d, by simp [hjk, hd], h1, h2⟩

/-- FB.MOVE keeps ownership (R124, R128). -/
theorem Owned.handTo {s : State} (h : Owned s) {k : Nat} {b : Buffer} {o : OwnerTag} (hb : s.mem.find k = some b)
    (hf : o ≠ .free) (ht : acceptsType o b.elem = true) (hh : s.holder o = none) : Owned (s.handTo k b o) where
  wf := by
    rw [State.handTo_mem]
    refine Memory.wf_put _ _ _ h.wf ?_
    obtain ⟨h1, h2, -, h4, h5⟩ := (Buffer.wf_iff b).1 (h.recordWf hb)
    exact (Buffer.wf_iff _).2 ⟨h1, h2, hf, h4, h5⟩
  fresh := by
    intro j d hd
    simp only [State.handTo_mem, State.handTo_nextHandle, Memory.find_put] at hd ⊢
    split at hd
    · rename_i e; subst e; exact h.fresh _ _ hb
    · exact h.fresh _ _ hd
  held := by
    intro j d hd hne
    simp only [State.handTo_mem, Memory.find_put] at hd
    rw [State.holder_handTo]
    split at hd
    · rename_i e; cases hd; simp only at hne ⊢; rw [if_pos ⟨trivial, hne, hf⟩, e]
    · rename_i hjk
      have h1 := h.held _ _ hd hne
      rw [if_neg, if_neg]
      · exact h1
      · rintro ⟨e, hbo, -⟩
        have h2 := h.held _ _ hb hbo
        rw [e, h1] at h2
        exact hjk (Option.some.inj h2)
      · rintro ⟨e, -⟩
        rw [← e, hh] at h1
        cases h1
  named := by
    intro p j hj
    rw [State.holder_handTo] at hj
    simp only [State.handTo_mem, Memory.find_put]
    split at hj
    · rename_i e
      cases hj
      exact ⟨{ b with owner := o }, by simp, e.1, by rw [← e.1]; exact ht⟩
    · split at hj
      · cases hj
      · rename_i hne
        obtain ⟨d, hd, h1, h2⟩ := h.named p j hj
        have hjk : ¬ j = k := by
          rintro rfl
          cases hd.symm.trans hb
          refine hne ⟨h1, ?_, ?_⟩
          · intro e; rw [← h1, e] at hj; simp at hj
          · intro e; rw [← h1, e] at hj; simp at hj
        exact ⟨d, by simp [hjk, hd], h1, h2⟩

/-- PP.SWAP keeps ownership (R125, R128). -/
theorem Owned.exchange {s : State} (h : Owned s) {a b : Nat} {ba bb : Buffer} (hs : s.ppSrc = some a)
    (hd : s.ppDst = some b) (ha : s.mem.find a = some ba) (hb : s.mem.find b = some bb) :
    Owned (s.exchange a b ba bb) := by
  obtain ⟨ba', ha', hoa, hta⟩ := h.named .ppSrc a hs
  obtain ⟨bb', hb', hob, htb⟩ := h.named .ppDst b hd
  cases ha.symm.trans ha'
  cases hb.symm.trans hb'
  have hab : a ≠ b := by
    rintro rfl
    cases ha.symm.trans hb
    rw [hoa] at hob
    cases hob
  have hfind : ∀ j, (s.exchange a b ba bb).mem.find j
      = if j = a then some { ba with owner := .ppDst } else if j = b then some { bb with owner := .ppSrc }
        else s.mem.find j := by
    intro j; simp only [State.exchange_mem, Memory.find_put]
  have wfa : ({ ba with owner := .ppDst } : Buffer).wf = true := by
    obtain ⟨h1, h2, -, h4, h5⟩ := (Buffer.wf_iff ba).1 (h.recordWf ha)
    exact (Buffer.wf_iff _).2 ⟨h1, h2, by simp, h4, h5⟩
  have wfb : ({ bb with owner := .ppSrc } : Buffer).wf = true := by
    obtain ⟨h1, h2, -, h4, h5⟩ := (Buffer.wf_iff bb).1 (h.recordWf hb)
    exact (Buffer.wf_iff _).2 ⟨h1, h2, by simp, h4, h5⟩
  refine ⟨?_, ?_, ?_, ?_⟩
  · rw [State.exchange_mem]; exact Memory.wf_put _ _ _ (Memory.wf_put _ _ _ h.wf wfb) wfa
  · intro j d hj
    rw [hfind] at hj
    rw [State.exchange_nextHandle]
    split at hj
    · rename_i e; subst e; exact h.fresh _ _ ha
    · split at hj
      · rename_i e; subst e; exact h.fresh _ _ hb
      · exact h.fresh _ _ hj
  · intro j d hj hne
    rw [hfind] at hj
    rw [State.holder_exchange]
    split at hj
    · rename_i e; cases hj; simp [e]
    · split at hj
      · rename_i e; cases hj; simp [e]
      · rename_i n1 n2
        have h1 := h.held _ _ hj hne
        rw [if_neg, if_neg]
        · exact h1
        · intro e; rw [e] at h1; exact n2 (Option.some.inj (h1.symm.trans hd))
        · intro e; rw [e] at h1; exact n1 (Option.some.inj (h1.symm.trans hs))
  · intro o j hj
    rw [State.holder_exchange] at hj
    rw [hfind]
    split at hj
    · rename_i e; cases hj
      exact ⟨{ bb with owner := .ppSrc }, by simp [hab.symm], e.symm, by rw [e]; simpa [acceptsType] using htb⟩
    · split at hj
      · rename_i n e; cases hj
        exact ⟨{ ba with owner := .ppDst }, by simp, e.symm, by rw [e]; simpa [acceptsType] using hta⟩
      · rename_i n1 n2
        obtain ⟨d, h1, h2, h3⟩ := h.named o j hj
        have ja : ¬ j = a := by rintro rfl; cases h1.symm.trans ha; exact n1 (h2.symm.trans hoa)
        have jb : ¬ j = b := by rintro rfl; cases h1.symm.trans hb; exact n2 (h2.symm.trans hob)
        exact ⟨d, by simp [ja, jb, h1], h2, h3⟩

/-! ### The shared operations -/

theorem Owned.afterAlloc {s : State} (h : Owned s) (t : ElemType) (w k : Nat) : Owned (s.afterAlloc t w k) :=
  h.congr (by simp) (by simp) (by simp)

theorem Owned.afterDecode {s : State} (h : Owned s) (id : Ident) : Owned (s.afterDecode id) :=
  h.congr (by simp) (by simp) (by simp)

theorem Owned.fbCreate {s u : State} (h : Owned s) {t : ElemType} {w k : BitVec 16} {o : OwnerTag} (hf : o ≠ .free)
    (ht : acceptsType o t = true) (he : fbCreate t w k o s = .next u) : Owned u := by
  obtain ⟨hw, hk, hh, -, rfl⟩ := (fbCreate_eq_next _ _ _ _ _ _).1 he
  exact (h.afterAlloc _ _ _).install (Buffer.fresh_wf _ _ _ _ hw hk hf) (by simpa [Buffer.fresh] using hh) ht

theorem Owned.fbMove {s u : State} (h : Owned s) {k : Nat} {o : OwnerTag} (he : fbMove k o s = .next u) : Owned u := by
  obtain ⟨b, hb, hf, ht, hh, rfl⟩ := (fbMove_eq_next _ _ _ _).1 he
  exact h.handTo hb hf ht hh

theorem Owned.ppSwap {s u : State} (h : Owned s) (he : ppSwap s = .next u) : Owned u := by
  obtain ⟨a, b, ba, bb, h1, h2, h3, h4, rfl⟩ := (ppSwap_eq_next _ _).1 he
  exact h.exchange h1 h2 h3 h4

theorem Owned.cscConvert {s u : State} (h : Owned s) {r g : Nat} (he : cscConvert r g s = .next u) : Owned u := by
  obtain ⟨rgb, gray, h1, h2, h3, h4, rfl⟩ := (cscConvert_eq_next _ _ _ _).1 he
  split
  · exact h.congr (by simp) (by simp) (fun o => by cases o <;> rfl)
  · exact h.putSame h2 (by simp) (by simp) (convertBuffer_wf _ _ _ _ h4 (h.recordWf h2))

theorem Owned.convApply {s u : State} (h : Owned s) {pix : Buffer → Nat → Nat → Byte} {i o : Nat}
    (he : convApply pix i o s = .next u) : Owned u := by
  obtain ⟨src, dst, h1, h2, h3, h4, h5, h6, h7, rfl⟩ := (convApply_eq_next _ _ _ _ _).1 he
  exact h.putSame h2 (by simp) (by simp) (filterBuffer_wf _ _ _ h4 (h.recordWf h2))

theorem Owned.convKernel {s u : State} (h : Owned s) {k : KernelId} {i o : Nat}
    (he : convKernel k i o s = .next u) : Owned u := Owned.convApply h he

theorem Owned.sobelMag {s u : State} (h : Owned s) {i o : Nat} (he : sobelMag i o s = .next u) : Owned u :=
  Owned.convApply h he

theorem Owned.filterPass {s u : State} (h : Owned s) {op : Nat → Nat → State → Result}
    (hop : ∀ {a b s u}, Owned s → op a b s = .next u → Owned u) (he : filterPass op s = .next u) : Owned u := by
  obtain ⟨a, b, t, -, -, h3, h4⟩ := (filterPass_eq_next _ _ _).1 he
  exact (hop h h3).ppSwap h4

theorem Owned.filterPassIf {s u : State} (h : Owned s) {on : Bool} {op : Nat → Nat → State → Result}
    (hop : ∀ {a b s u}, Owned s → op a b s = .next u → Owned u) (he : filterPassIf on op s = .next u) : Owned u := by
  unfold Sys2Proof.Machine.filterPassIf at he
  split at he
  · exact h.filterPass hop he
  · cases he; exact h

theorem Owned.filterPasses {s u : State} (h : Owned s) (he : filterPasses s = .next u) : Owned u := by
  unfold Sys2Proof.Machine.filterPasses at he
  simp only [bindNext_eq_next] at he
  obtain ⟨s1, h1, s2, h2, s3, h3, h4⟩ := he
  exact (((h.filterPass (fun k e => k.convKernel e) h1).filterPassIf (fun k e => k.convKernel e) h2).filterPassIf
    (fun k e => k.convKernel e) h3).filterPassIf (fun k e => k.sobelMag e) h4

theorem Owned.moveHeld {s u : State} (h : Owned s) {slot : Option Nat} {o : OwnerTag}
    (he : moveHeld slot o s = .next u) : Owned u := by
  obtain ⟨k, -, hk⟩ := (moveHeld_eq_next _ _ _ _).1 he
  exact h.fbMove hk

theorem Owned.actOutput {s u : State} (h : Owned s) (he : actOutput s = .next u) : Owned u := by
  cases hp : s.proc with
  | none => rw [actOutput_empty s hp] at he; cases he; exact h
  | some k =>
    obtain ⟨b, hb, rfl⟩ := (actOutput_eq_next _ _ _ hp).1 he
    have h1 : Owned (s.handToEncoder b) := h.congr (by simp) (by simp) (by simp)
    have h2 : (s.handToEncoder b).holder .proc = some k := by simpa [State.holder] using hp
    exact (h1.drop h2).congr rfl rfl (fun o => by cases o <;> rfl)

theorem Owned.actFilter {s u : State} (h : Owned s) (he : actFilter s = .next u) : Owned u := by
  cases hg : s.gray with
  | none => rw [actFilter_empty s hg] at he; cases he; exact h
  | some g =>
    unfold Sys2Proof.Machine.actFilter at he
    simp only [hg, withBuffer_eq_next, bindNext_eq_next] at he
    obtain ⟨b, hb, s1, h1, s2, h2, s3, h3, s4, h4, h5⟩ := he
    have k3 := ((h.fbMove h1).fbCreate (by simp) (by simp [acceptsType]) h2).filterPasses h3
    obtain ⟨k, d, hk, hd, rfl⟩ := (dropScratch_eq_next _ _).1 h4
    exact (k3.drop (o := .ppDst) hk).moveHeld h5

theorem Owned.actConvert {s u : State} (h : Owned s) (he : actConvert s = .next u) : Owned u := by
  cases hr : s.raw with
  | none => rw [actConvert_empty s hr] at he; cases he; exact h
  | some r =>
    unfold Sys2Proof.Machine.actConvert at he
    simp only [hr, withBuffer_eq_next, bindNext_eq_next, fbDestroy_eq_next] at he
    obtain ⟨b, hb, s1, h1, s2, h2, s3, ⟨⟨-, -⟩, rfl⟩, h5⟩ := he
    have k1 := h.fbCreate (by simp) (by simp [acceptsType]) h1
    obtain ⟨g, hg, h2'⟩ := (convertHeld_eq_next _ _ _).1 h2
    have k2 := k1.cscConvert h2'
    have hraw : s2.holder .raw = some r := by
      obtain ⟨-, -, -, -, rfl⟩ := (fbCreate_eq_next _ _ _ _ _ _).1 h1
      obtain ⟨_, _, -, -, -, -, rfl⟩ := (cscConvert_eq_next _ _ _ _).1 h2'
      have : ((s.afterAlloc .gray b.width.toNat b.height.toNat).install
          (Buffer.fresh .gray b.width b.height .cscOut)).holder .raw = some r := by
        rw [State.holder_install]
        simpa [Buffer.fresh, State.holder] using hr
      split
      · exact this
      · simpa using this
    exact (k2.drop hraw).moveHeld h5

theorem Owned.acceptGrid {s u : State} (h : Owned s) {w k : Nat} {px : List Pixel}
    (he : acceptGrid w k px s = .next u) : Owned u := by
  obtain ⟨h1, h2, -, rfl⟩ := (acceptGrid_eq_next _ _ _ _ _).1 he
  obtain ⟨w1, w2, k1, k2, hl⟩ := (gridOk_iff _ _ _).1 h1
  have hw : (BitVec.ofNat 16 w).toNat = w := by simp; omega
  have hk : (BitVec.ofNat 16 k).toNat = k := by simp; omega
  have hwf : (Buffer.decoded (BitVec.ofNat 16 w) (BitVec.ofNat 16 k) px).wf = true := by
    refine Buffer.decoded_wf _ _ _ ?_ ?_ (by rw [hw, hk, hl])
    · intro e; rw [e] at hw; simp at hw; omega
    · intro e; rw [e] at hk; simp at hk; omega
  have hi := (h.afterAlloc .rgb w k).install hwf
    (by simpa [Buffer.decoded, State.holder] using h2) (by simp [Buffer.decoded, acceptsType])
  exact hi.congr rfl rfl (fun o => by simp)

theorem Owned.actInput {s u : State} (h : Owned s) (he : actInput s = .next u) : Owned u := by
  rcases (actInput_eq_next _ _).1 he with ⟨-, rfl⟩ | ⟨-, id, -, ⟨c, -, rfl⟩ | ⟨w, k, px, -, h1⟩⟩
  · exact h
  · exact (h.afterDecode id).congr (by simp) (by simp) (fun o => by cases o <;> rfl)
  · exact (h.afterDecode id).acceptGrid h1

theorem Owned.schedTick {s u : State} (h : Owned s) (he : schedTick s = .next u) : Owned u := by
  unfold Sys2Proof.Machine.schedTick at he
  simp only [bindNext_eq_next] at he
  obtain ⟨s1, h1, s2, h2, s3, h3, s4, h4, h5⟩ := he
  have k1 : Owned s1 :=
    (h.congr (t := { s with tick := s.tick + 1, phase := .output }) rfl rfl (fun o => by cases o <;> rfl)).actOutput h1
  have k2 : Owned s2 :=
    (k1.congr (t := { s1 with phase := .filter }) rfl rfl (fun o => by cases o <;> rfl)).actFilter h2
  have k3 : Owned s3 :=
    (k2.congr (t := { s2 with phase := .convert }) rfl rfl (fun o => by cases o <;> rfl)).actConvert h3
  have k4 : Owned s4 :=
    (k3.congr (t := { s3 with phase := .input }) rfl rfl (fun o => by cases o <;> rfl)).actInput h4
  cases h5
  exact k4.congr rfl rfl (fun o => by cases o <;> rfl)

end Sys2Proof.Machine
end

