-- ==== Sys2Proof/Laws/Port.lean ====
section
/-!
SUPPORT. Every operation but RUN goes through the command port's acceptance rule: its body, named once per instruction.
-/
namespace Sys2Proof.Machine

/-- What each operation does once the port has accepted it (R92); RUN has its own acceptance rule (R207). -/
def portBody (i : Instr) (s : State) : Result :=
  match i with
  | .fbCreate t => bindNext (fbCreate t s.ports.dw s.ports.dh .host s) fun s' => .next (s'.giveHandle s.nextHandle)
  | .fbGet => withHostBuffer s s.ports.h0 fun b => .next (s.giveValue (b.getPort s.ports.xInt s.ports.yInt))
  | .fbSet => withHostBuffer s s.ports.h0 fun b =>
      .next (s.putBuffer s.ports.h0 (b.setPort s.ports.xInt s.ports.yInt s.ports.v))
  | .fbDestroy => withHostBuffer s s.ports.h0 fun _ => fbDestroy s.ports.h0 s
  | .fbMove o => withBuffer s s.ports.h0 fun b =>
      if b.owner = .host ∨ o = .host then fbMove s.ports.h0 o s else .refused (.notHostOwned s.ports.h0)
  | .ppSwap => ppSwap s
  | .cscConvert => withHostBuffer s s.ports.h0 fun _ => withHostBuffer s s.ports.h1 fun _ =>
      cscConvert s.ports.h0 s.ports.h1 s
  | .convBlur => withHostBuffer s s.ports.h0 fun _ => withHostBuffer s s.ports.h1 fun _ =>
      convKernel .blur s.ports.h0 s.ports.h1 s
  | .convSharpen => withHostBuffer s s.ports.h0 fun _ => withHostBuffer s s.ports.h1 fun _ =>
      convKernel .sharpen s.ports.h0 s.ports.h1 s
  | .convGaussian => withHostBuffer s s.ports.h0 fun _ => withHostBuffer s s.ports.h1 fun _ =>
      convKernel .gaussian s.ports.h0 s.ports.h1 s
  | .convSobelX => withHostBuffer s s.ports.h0 fun _ => withHostBuffer s s.ports.h1 fun _ =>
      convKernel .sobelX s.ports.h0 s.ports.h1 s
  | .convSobelY => withHostBuffer s s.ports.h0 fun _ => withHostBuffer s s.ports.h1 fun _ =>
      convKernel .sobelY s.ports.h0 s.ports.h1 s
  | .sobelMag => withHostBuffer s s.ports.h0 fun _ => withHostBuffer s s.ports.h1 fun _ =>
      sobelMag s.ports.h0 s.ports.h1 s
  | .actOutput => actOutput s
  | .actFilter => actFilter s
  | .actConvert => actConvert s
  | .actInput => actInput s
  | .tick => bindNext (schedTick s) fun t => .next (nestedCode s t)
  | .run => .next s

theorem exec_port (i : Instr) (hi : i ≠ .run) (s : State) : exec i s = onPort s (portBody i) := by
  cases i <;> first | rfl | exact absurd rfl hi

theorem exec_open (i : Instr) (hi : i ≠ .run) (s : State) (hr : s.running = false) (hf : s.fatal = false) :
    exec i s = portBody i s.accepted := by
  rw [exec_port i hi, onPort_open _ _ hr hf]

theorem exec_eq_next (i : Instr) (hi : i ≠ .run) (s t : State) :
    exec i s = .next t ↔ s.running = false ∧ s.fatal = false ∧ portBody i s.accepted = .next t := by
  rw [exec_port i hi, onPort_eq_next]

theorem exec_run (s : State) : exec .run s = execRun s := rfl

end Sys2Proof.Machine
end

