-- ==== Sys2Proof/Laws/Scheduler.lean ====
section
/-!
SUPPORT. What ACT.FILTER and ACT.CONVERT leave, stated once each: the ping-pong chain as repeated application on the
pair of buffers (R209), and the frame of both actions.
-/
namespace Sys2Proof.Machine

/-! ### The registers the frame-buffer manager does not touch -/

theorem SameControls.refl (s : State) : SameControls s s := by constructor <;> rfl

theorem SameControls.trans {s t u : State} (h1 : SameControls s t) (h2 : SameControls t u) : SameControls s u := by
  constructor
  · exact h2.ctrl.trans h1.ctrl
  · exact h2.status.trans h1.status
  · exact h2.inCursor.trans h1.inCursor
  · exact h2.outCursor.trans h1.outCursor
  · exact h2.total.trans h1.total
  · exact h2.phase.trans h1.phase
  · exact h2.tick.trans h1.tick
  · exact h2.pending.trans h1.pending
  · exact h2.running.trans h1.running
  · exact h2.params.trans h1.params
  · exact h2.ports.trans h1.ports
  · exact h2.rh.trans h1.rh
  · exact h2.rv.trans h1.rv
  · exact h2.rc.trans h1.rc
  · exact h2.crData.trans h1.crData
  · exact h2.host.trans h1.host

theorem SameControls.putBuffer (s : State) (h : Nat) (b : Buffer) : SameControls s (s.putBuffer h b) := by
  constructor <;> rfl

theorem SameControls.setHolder (s : State) (o : OwnerTag) (v : Option Nat) : SameControls s (s.setHolder o v) := by
  constructor <;> simp

theorem SameControls.removeBuffer (s : State) (h : Nat) : SameControls s (s.removeBuffer h) := by constructor <;> rfl

theorem SameControls.exchange (s : State) (a b : Nat) (ba bb : Buffer) : SameControls s (s.exchange a b ba bb) := by
  constructor <;> rfl

theorem SameControls.handTo (s : State) (h : Nat) (b : Buffer) (o : OwnerTag) : SameControls s (s.handTo h b o) := by
  constructor <;> simp

theorem SameControls.install (s : State) (b : Buffer) : SameControls s (s.install b) := by constructor <;> simp

theorem SameControls.afterAlloc (s : State) (t : ElemType) (w h : Nat) : SameControls s (s.afterAlloc t w h) := by
  constructor <;> rfl

theorem SameControls.modeFloat {s u : State} (h : SameControls s u) : u.modeFloat = s.modeFloat := by
  simp [State.modeFloat, h.ctrl]

theorem SameControls.fbCreate {s u : State} {t : ElemType} {w k : BitVec 16} {o : OwnerTag}
    (he : fbCreate t w k o s = .next u) : SameControls s u := by
  obtain ⟨-, -, -, -, rfl⟩ := (fbCreate_eq_next _ _ _ _ _ _).1 he
  exact (SameControls.afterAlloc _ _ _ _).trans (SameControls.install _ _)

theorem SameControls.fbMove {s u : State} {k : Nat} {o : OwnerTag} (he : fbMove k o s = .next u) :
    SameControls s u := by
  obtain ⟨b, -, -, -, -, rfl⟩ := (fbMove_eq_next _ _ _ _).1 he
  exact SameControls.handTo _ _ _ _

theorem SameControls.ppSwap {s u : State} (he : ppSwap s = .next u) : SameControls s u := by
  obtain ⟨a, b, ba, bb, -, -, -, -, rfl⟩ := (ppSwap_eq_next _ _).1 he
  exact SameControls.exchange _ _ _ _ _

theorem SameControls.convApply {s u : State} {pix : Buffer → Nat → Nat → Byte} {i o : Nat}
    (he : convApply pix i o s = .next u) : SameControls s u := by
  obtain ⟨_, _, -, -, -, -, -, -, -, rfl⟩ := (convApply_eq_next _ _ _ _ _).1 he
  exact SameControls.putBuffer _ _ _

theorem SameControls.filterPass {s u : State} {op : Nat → Nat → State → Result}
    (hop : ∀ {a b s u}, op a b s = .next u → SameControls s u) (he : filterPass op s = .next u) :
    SameControls s u := by
  obtain ⟨a, b, t, -, -, h3, h4⟩ := (filterPass_eq_next _ _ _).1 he
  exact (hop h3).trans (SameControls.ppSwap h4)

theorem SameControls.filterPassIf {s u : State} {on : Bool} {op : Nat → Nat → State → Result}
    (hop : ∀ {a b s u}, op a b s = .next u → SameControls s u) (he : filterPassIf on op s = .next u) :
    SameControls s u := by
  unfold Sys2Proof.Machine.filterPassIf at he
  split at he
  · exact SameControls.filterPass hop he
  · cases he; exact SameControls.refl _

theorem SameControls.filterPasses {s u : State} (he : filterPasses s = .next u) : SameControls s u := by
  unfold Sys2Proof.Machine.filterPasses at he
  simp only [bindNext_eq_next] at he
  obtain ⟨s1, h1, s2, h2, s3, h3, h4⟩ := he
  have conv : ∀ {k : KernelId} {a b : Nat} {s u : State}, convKernel k a b s = .next u → SameControls s u :=
    fun e => SameControls.convApply e
  have sob : ∀ {a b : Nat} {s u : State}, sobelMag a b s = .next u → SameControls s u :=
    fun e => SameControls.convApply e
  exact (((SameControls.filterPass conv h1).trans (SameControls.filterPassIf conv h2)).trans
    (SameControls.filterPassIf conv h3)).trans (SameControls.filterPassIf sob h4)

theorem SameControls.moveHeld {s u : State} {slot : Option Nat} {o : OwnerTag} (he : moveHeld slot o s = .next u) :
    SameControls s u := by
  obtain ⟨k, -, hk⟩ := (moveHeld_eq_next _ _ _ _).1 he
  exact SameControls.fbMove hk

/-- ACT.FILTER writes no control register (R203). -/
theorem SameControls.actFilter {s u : State} (he : actFilter s = .next u) : SameControls s u := by
  cases hg : s.gray with
  | none => rw [actFilter_empty s hg] at he; cases he; exact SameControls.refl _
  | some g =>
    unfold Sys2Proof.Machine.actFilter at he
    simp only [hg, withBuffer_eq_next, bindNext_eq_next] at he
    obtain ⟨b, hb, s1, h1, s2, h2, s3, h3, s4, h4, h5⟩ := he
    obtain ⟨k, d, hk, hd, rfl⟩ := (dropScratch_eq_next _ _).1 h4
    exact ((((SameControls.fbMove h1).trans (SameControls.fbCreate h2)).trans (SameControls.filterPasses h3)).trans
      ((SameControls.removeBuffer _ _).trans (SameControls.setHolder _ _ _))).trans (SameControls.moveHeld h5)

/-- ACT.CONVERT writes no control register: its two buffers have equal dimensions, so DimensionMismatch cannot arise
(R204). -/
theorem SameControls.actConvert {s u : State} (he : actConvert s = .next u) : SameControls s u := by
  cases hr : s.raw with
  | none => rw [actConvert_empty s hr] at he; cases he; exact SameControls.refl _
  | some r =>
    unfold Sys2Proof.Machine.actConvert at he
    simp only [hr, withBuffer_eq_next, bindNext_eq_next, fbDestroy_eq_next] at he
    obtain ⟨b, hb, s1, h1, s2, h2, s3, ⟨⟨-, -⟩, rfl⟩, h5⟩ := he
    have k1 := SameControls.fbCreate h1
    obtain ⟨g, hg, h2'⟩ := (convertHeld_eq_next _ _ _).1 h2
    obtain ⟨-, -, -, -, rfl⟩ := (fbCreate_eq_next _ _ _ _ _ _).1 h1
    obtain ⟨rgb, gray, f1, f2, e1, e2, rfl⟩ := (cscConvert_eq_next _ _ _ _).1 h2'
    have hgn : g = s.nextHandle := by
      have hh : ((s.afterAlloc .gray b.width.toNat b.height.toNat).install
          (Buffer.fresh .gray b.width b.height .cscOut)).holder .cscOut = some g := hg
      rw [State.holder_install] at hh
      simpa [Buffer.fresh] using hh.symm
    simp only [State.install_mem, State.afterAlloc_mem, State.afterAlloc_nextHandle, Memory.find_put] at f1 f2
    rw [if_pos hgn] at f2
    cases f2
    split at f1
    · cases f1; cases e1
    · cases f1.symm.trans hb
      rw [if_neg (by simp [dimsDiffer, Buffer.fresh])] at h5
      exact (k1.trans ((SameControls.putBuffer _ _ _).trans ((SameControls.removeBuffer _ _).trans
        (SameControls.setHolder _ _ _)))).trans (SameControls.moveHeld h5)

/-! ### The ping-pong pair (R203, R209) -/

/-- The owner tag of the operands plays no part in a pixel's value. -/
def Untagged (pix : Buffer → Nat → Nat → Byte) : Prop :=
  ∀ (b : Buffer) (o : OwnerTag) (x y : Nat), pix { b with owner := o } x y = pix b x y

theorem untagged_convPixel (p : Params) (f : Bool) (k : KernelId) : Untagged (convPixel p f k) := fun _ _ _ _ => rfl

theorem untagged_sobelPixel (p : Params) (f : Bool) : Untagged (sobelPixel p f) := fun _ _ _ _ => rfl

theorem setGray_tag (b : Buffer) (o : OwnerTag) (x y : Int) (v : Byte) :
    ({ b with owner := o } : Buffer).setGray x y v = { b.setGray x y v with owner := o } := by
  unfold Buffer.setGray
  have : ({ b with owner := o } : Buffer).inRange x y = b.inRange x y := rfl
  rw [this]
  split <;> rfl

theorem paint_tag (l : List (Nat × Nat)) (f : Nat → Nat → Byte) (b : Buffer) (o : OwnerTag) :
    ({ b with owner := o } : Buffer).paint l f = { b.paint l f with owner := o } := by
  induction l generalizing b with
  | nil => rfl
  | cons p r ih => rw [Buffer.paint_cons, Buffer.paint_cons, setGray_tag, ih]

theorem filterBuffer_tag (pix : Buffer → Nat → Nat → Byte) (hp : Untagged pix) (s d : Buffer) (o q : OwnerTag) :
    filterBuffer pix { s with owner := q } { d with owner := o } = { filterBuffer pix s d with owner := o } := by
  have : pix { s with owner := q } = pix s := funext fun x => funext fun y => hp s q x y
  unfold filterBuffer
  rw [this, paint_tag]

/-- The slots hold the pair `P`: PP.SRC names `a` with contents `P.1`, PP.DST names `b` with contents `P.2`. -/
structure Pair (s : State) (a b : Nat) (P : Buffer × Buffer) : Prop where
  src : s.ppSrc = some a
  dst : s.ppDst = some b
  ne : a ≠ b
  findSrc : s.mem.find a = some { P.1 with owner := .ppSrc }
  findDst : s.mem.find b = some { P.2 with owner := .ppDst }
  graySrc : P.1.elem = .gray
  grayDst : P.2.elem = .gray
  width : P.1.width = P.2.width
  height : P.1.height = P.2.height

/-- What the passes of the chain leave alone: everything but the slots and the two buffers. -/
structure ChainFrame (s u : State) (a b : Nat) : Prop where
  controls : SameControls s u
  raw : u.raw = s.raw
  gray : u.gray = s.gray
  proc : u.proc = s.proc
  cscOut : u.cscOut = s.cscOut
  nextHandle : u.nextHandle = s.nextHandle
  env : u.env = s.env
  others : ∀ k, k ≠ a → k ≠ b → u.mem.find k = s.mem.find k

theorem ChainFrame.refl (s : State) (a b : Nat) : ChainFrame s s a b :=
  ⟨SameControls.refl s, rfl, rfl, rfl, rfl, rfl, rfl, fun _ _ _ => rfl⟩

theorem ChainFrame.trans {s t u : State} {a b : Nat} (h1 : ChainFrame s t a b) (h2 : ChainFrame t u a b) :
    ChainFrame s u a b :=
  ⟨h1.controls.trans h2.controls, h2.raw.trans h1.raw, h2.gray.trans h1.gray, h2.proc.trans h1.proc,
    h2.cscOut.trans h1.cscOut, h2.nextHandle.trans h1.nextHandle, h2.env.trans h1.env,
    fun k ha hb => (h2.others k ha hb).trans (h1.others k ha hb)⟩

theorem ChainFrame.symm {s u : State} {a b : Nat} (h : ChainFrame s u a b) : ChainFrame s u b a :=
  ⟨h.controls, h.raw, h.gray, h.proc, h.cscOut, h.nextHandle, h.env, fun k hb ha => h.others k ha hb⟩

/-- One pass: it completes, the slots change places, and the contents are those of `chainStep` (R203, R209). -/
theorem filterPass_pair (s : State) (a b : Nat) (P : Buffer × Buffer) (pix : Buffer → Nat → Nat → Byte)
    (hpix : Untagged pix) (h : Pair s a b P) :
    ∃ u, filterPass (convApply pix) s = .next u ∧ Pair u b a (chainStep pix P) ∧ ChainFrame s u a b := by
  have hb' : s.mem.find b = some { P.2 with owner := .ppDst } := h.findDst
  have e1 : convApply pix a b s = .next (s.putBuffer b { filterBuffer pix P.1 P.2 with owner := .ppDst }) := by
    exact (convApply_eq_next _ _ _ _ _).2 ⟨_, _, h.findSrc, h.findDst, h.graySrc, h.grayDst, h.ne, h.width, h.height,
      congrArg (s.putBuffer b) (filterBuffer_tag pix hpix P.1 P.2 .ppDst .ppSrc).symm⟩
  have e2 : ppSwap (s.putBuffer b { filterBuffer pix P.1 P.2 with owner := .ppDst })
      = .next ((s.putBuffer b { filterBuffer pix P.1 P.2 with owner := .ppDst }).exchange a b
          { P.1 with owner := .ppSrc } { filterBuffer pix P.1 P.2 with owner := .ppDst }) := by
    refine (ppSwap_eq_next _ _).2 ⟨a, b, _, _, h.src, h.dst, ?_, ?_, rfl⟩
    · rw [State.putBuffer_mem, Memory.find_put, if_neg h.ne]; exact h.findSrc
    · rw [State.putBuffer_mem, Memory.find_put, if_pos rfl]
  refine ⟨_, (filterPass_eq_next _ _ _).2 ⟨a, b, _, h.src, h.dst, e1, e2⟩, ?_, ?_⟩
  · refine ⟨rfl, rfl, h.ne.symm, ?_, ?_, ?_, h.graySrc, ?_, ?_⟩
    · rw [State.exchange_mem, Memory.find_put, if_neg h.ne.symm, Memory.find_put, if_pos rfl]; rfl
    · rw [State.exchange_mem, Memory.find_put, if_pos rfl]; rfl
    · simpa [chainStep] using h.grayDst
    · simpa [chainStep] using h.width.symm
    · simpa [chainStep] using h.height.symm
  · refine ⟨(SameControls.putBuffer _ _ _).trans (SameControls.exchange _ _ _ _ _), rfl, rfl, rfl, rfl, rfl, rfl, ?_⟩
    intro k ha hb
    rw [State.exchange_mem, Memory.find_put, if_neg ha, Memory.find_put, if_neg hb, State.putBuffer_mem,
      Memory.find_put, if_neg hb]

/-- A pass that may be left out. -/
theorem filterPassIf_pair (s : State) (a b : Nat) (P : Buffer × Buffer) (pix : Buffer → Nat → Nat → Byte) (on : Bool)
    (hpix : Untagged pix) (h : Pair s a b P) :
    ∃ u, filterPassIf on (convApply pix) s = .next u
      ∧ Pair u (if on then b else a) (if on then a else b) (chainStepIf on pix P) ∧ ChainFrame s u a b := by
  cases on with
  | false => exact ⟨s, rfl, h, ChainFrame.refl _ _ _⟩
  | true => exact filterPass_pair s a b P pix hpix h

/-- The handle that holds the chain's result: the scratch when the number of passes is odd (R208). -/
def chainHandle (gauss sharp sobel : Bool) (g scratch : Nat) : Nat :=
  if passCount gauss sharp sobel % 2 = 1 then scratch else g

/-- The pairs of the chain, one definition per pass, so that none is unfolded by accident. -/
def chainBlur (p : Params) (f : Bool) (g : Buffer) : Buffer × Buffer :=
  chainStep (convPixel p f .blur) (g, Buffer.fresh .gray g.width g.height .ppDst)

/-- The pair after GAUSSIAN. -/
def chainGauss (p : Params) (f gauss : Bool) (g : Buffer) : Buffer × Buffer :=
  chainStepIf gauss (convPixel p f .gaussian) (chainBlur p f g)

/-- The pair after SHARPEN. -/
def chainSharp (p : Params) (f gauss sharp : Bool) (g : Buffer) : Buffer × Buffer :=
  chainStepIf sharp (convPixel p f .sharpen) (chainGauss p f gauss g)

/-- The pair after SOBEL.MAG: the end of the chain. -/
def chainPair (p : Params) (f gauss sharp sobel : Bool) (g : Buffer) : Buffer × Buffer :=
  chainStepIf sobel (sobelPixel p f) (chainSharp p f gauss sharp g)

theorem filterChain_eq (p : Params) (f gauss sharp sobel : Bool) (g : Buffer) :
    filterChain p f gauss sharp sobel g = (chainPair p f gauss sharp sobel g).1 := rfl

theorem ite_swap (on : Bool) (a b : Nat) (P : Nat → Nat → Prop) (h : P a b) (h' : P b a) :
    P (if on then b else a) (if on then a else b) := by cases on <;> simpa

theorem chainHandle_steps (gauss sharp sobel : Bool) (a b : Nat) :
    (if sobel then (if sharp then (if gauss then b else a) else (if gauss then a else b))
      else (if sharp then (if gauss then a else b) else (if gauss then b else a))) =
    chainHandle gauss sharp sobel b a := by
  cases gauss <;> cases sharp <;> cases sobel <;> simp [chainHandle, passCount]

/-- A pass whose operation reads parameters and mode from a state with the controls of `s`. -/
theorem convKernel_controls {s t : State} (h : SameControls s t) (k : KernelId) (on on' : Bool) (ho : on' = on) :
    filterPassIf on' (convKernel k) t = filterPassIf on (convApply (convPixel s.params s.modeFloat k)) t := by
  rw [ho]
  unfold filterPassIf filterPass convKernel
  rw [h.params, h.modeFloat]

theorem sobelMag_controls {s t : State} (h : SameControls s t) (on on' : Bool) (ho : on' = on) :
    filterPassIf on' sobelMag t = filterPassIf on (convApply (sobelPixel s.params s.modeFloat)) t := by
  rw [ho]
  unfold filterPassIf filterPass sobelMag
  rw [h.params, h.modeFloat]

/-- The whole chain on the pair (R203, R208, R209). -/
theorem filterPasses_pair (s : State) (a b : Nat) (g : Buffer)
    (h : Pair s a b (g, Buffer.fresh .gray g.width g.height .ppDst)) :
    ∃ u, filterPasses s = .next u
      ∧ Pair u (chainHandle s.enGauss s.enSharp s.enSobel a b) (chainHandle s.enGauss s.enSharp s.enSobel b a)
          (chainPair s.params s.modeFloat s.enGauss s.enSharp s.enSobel g)
      ∧ ChainFrame s u a b := by
  obtain ⟨s1, e1, p1, f1⟩ := filterPass_pair s a b _ (convPixel s.params s.modeFloat .blur) (untagged_convPixel _ _ _) h
  have c1 := f1.controls
  obtain ⟨s2, e2, p2, f2⟩ := filterPassIf_pair s1 b a (chainBlur s.params s.modeFloat g)
    (convPixel s.params s.modeFloat .gaussian) s.enGauss (untagged_convPixel _ _ _) p1
  have c2 := c1.trans f2.controls
  obtain ⟨s3, e3, p3, f3⟩ := filterPassIf_pair s2 _ _ (chainGauss s.params s.modeFloat s.enGauss g)
    (convPixel s.params s.modeFloat .sharpen) s.enSharp (untagged_convPixel _ _ _) p2
  have c3 := c2.trans f3.controls
  obtain ⟨s4, e4, p4, f4⟩ := filterPassIf_pair s3 _ _ (chainSharp s.params s.modeFloat s.enGauss s.enSharp g)
    (sobelPixel s.params s.modeFloat) s.enSobel (untagged_sobelPixel _ _) p3
  refine ⟨s4, ?_, ?_, ?_⟩
  · have k0 : filterPass (convKernel .blur) s = .next s1 := by
      rw [← e1]; unfold filterPass convKernel; rfl
    have g1 : s1.enGauss = s.enGauss := by simp [State.enGauss, c1.ctrl]
    have g2 : s2.enSharp = s.enSharp := by simp [State.enSharp, c2.ctrl]
    have g3 : s3.enSobel = s.enSobel := by simp [State.enSobel, c3.ctrl]
    unfold filterPasses
    rw [k0, bindNext_next, convKernel_controls c1 .gaussian _ _ g1, e2, bindNext_next,
      convKernel_controls c2 .sharpen _ _ g2, e3, bindNext_next, sobelMag_controls c3 _ _ g3, e4]
  · rw [chainHandle_steps, chainHandle_steps] at p4
    exact p4
  · have f3' : ChainFrame s2 s3 a b :=
      ite_swap s.enGauss b a (fun x y => ChainFrame s2 s3 x y → ChainFrame s2 s3 a b) ChainFrame.symm id f3
    have f4' : ChainFrame s3 s4 a b := by
      clear p4 e4 p3 e3 f3 p2 e2 e1 p1
      revert f4
      cases s.enGauss <;> cases s.enSharp <;> intro f4
      · exact f4.symm
      · exact f4
      · exact f4
      · exact f4.symm
    exact ((f1.trans f2.symm).trans f3').trans f4'

/-! ### ACT.FILTER and ACT.CONVERT complete -/

/-- The state in which ACT.FILTER's chain starts: the gray buffer in PP.SRC, a fresh scratch in PP.DST (R203). -/
def filterStart (s : State) (g : Nat) (b : Buffer) : State :=
  ((s.handTo g b .ppSrc).afterAlloc .gray b.width.toNat b.height.toNat).install
    (Buffer.fresh .gray b.width b.height .ppDst)

theorem filterStart_holder (s : State) (g : Nat) (b : Buffer) (hb : b.owner = .gray) (o : OwnerTag) :
    (filterStart s g b).holder o = if o = .ppDst then some s.nextHandle else if o = .ppSrc then some g
      else if o = .gray then none else s.holder o := by
  unfold filterStart
  rw [State.holder_install, State.holder_afterAlloc, State.holder_handTo]
  cases o <;> simp [Buffer.fresh, hb]

theorem filterStart_find (s : State) (g : Nat) (b : Buffer) (k : Nat) :
    (filterStart s g b).mem.find k = if k = s.nextHandle then some (Buffer.fresh .gray b.width b.height .ppDst)
      else if k = g then some { b with owner := .ppSrc } else s.mem.find k := by
  unfold filterStart
  rw [State.install_mem, Memory.find_put, State.afterAlloc_mem, State.afterAlloc_nextHandle, State.handTo_mem,
    Memory.find_put, State.handTo_nextHandle]

theorem filterStart_env (s : State) (g : Nat) (b : Buffer) :
    (filterStart s g b).env = (s.afterAlloc .gray b.width.toNat b.height.toNat).env := by
  unfold filterStart State.afterAlloc State.allocAnswer
  simp

theorem filterStart_controls (s : State) (g : Nat) (b : Buffer) : SameControls s (filterStart s g b) :=
  ((SameControls.handTo _ _ _ _).trans (SameControls.afterAlloc _ _ _ _)).trans (SameControls.install _ _)

theorem Buffer.owner_eta (b : Buffer) (o : OwnerTag) (h : b.owner = o) : { b with owner := o } = b := by
  subst h; rfl

/-- ACT.FILTER on a frame, in a sound state with the slots and PROC EMPTY, completes (R203). -/
theorem actFilter_next (s : State) (hs : Owned s) (g : Nat) (b : Buffer) (hg : s.gray = some g)
    (hb : s.mem.find g = some b) (h1 : s.ppSrc = none) (h2 : s.ppDst = none) (h3 : s.proc = none)
    (ha : s.allocAnswer .gray b.width.toNat b.height.toNat = true) :
    ∃ t, actFilter s = .next t ∧ SameControls s t
      ∧ (∀ o, t.holder o = if o = .proc then some (chainHandle s.enGauss s.enSharp s.enSobel g s.nextHandle)
          else if o = .gray then none else s.holder o)
      ∧ t.nextHandle = s.nextHandle + 1
      ∧ t.env = (s.afterAlloc .gray b.width.toNat b.height.toNat).env
      ∧ (∀ k, t.mem.find k =
          if k = chainHandle s.enGauss s.enSharp s.enSobel g s.nextHandle then
            some { filterChain s.params s.modeFloat s.enGauss s.enSharp s.enSobel b with owner := .proc }
          else if k = chainHandle s.enGauss s.enSharp s.enSobel s.nextHandle g then none
          else s.mem.find k) := by
  obtain ⟨b', hb', ho, ht⟩ := hs.named .gray g hg
  cases hb.symm.trans hb'
  have hgray : b.elem = .gray := by simpa [acceptsType] using ht
  have hwf := (Buffer.wf_iff b).1 (hs.recordWf hb)
  have hlt : g < s.nextHandle := hs.fresh g b hb
  have e1 : fbMove g .ppSrc s = .next (s.handTo g b .ppSrc) :=
    (fbMove_eq_next _ _ _ _).2 ⟨b, hb, by simp, by simp [acceptsType, hgray], h1, rfl⟩
  have e2 : fbCreate .gray b.width b.height .ppDst (s.handTo g b .ppSrc) = .next (filterStart s g b) := by
    refine (fbCreate_eq_next _ _ _ _ _ _).2 ⟨hwf.1, hwf.2.1, ?_, ?_, rfl⟩
    · rw [State.holder_handTo]; simp [State.holder, h2]
    · rw [← ha]; simp [State.allocAnswer]
  have own2 : Owned (filterStart s g b) := (hs.fbMove e1).fbCreate (by simp) (by simp [acceptsType]) e2
  have hold := filterStart_holder s g b ho
  have pr : Pair (filterStart s g b) g s.nextHandle (b, Buffer.fresh .gray b.width b.height .ppDst) := by
    refine ⟨?_, ?_, by omega, ?_, ?_, hgray, rfl, rfl, rfl⟩
    · exact hold .ppSrc
    · exact hold .ppDst
    · rw [filterStart_find, if_neg (by omega), if_pos rfl]
    · rw [filterStart_find, if_pos rfl]; rfl
  obtain ⟨u, e3, pu, fu⟩ := filterPasses_pair _ _ _ _ pr
  have c1 : SameControls s (filterStart s g b) := filterStart_controls s g b
  have g1 : (filterStart s g b).enGauss = s.enGauss := by simp [State.enGauss, c1.ctrl]
  have g2 : (filterStart s g b).enSharp = s.enSharp := by simp [State.enSharp, c1.ctrl]
  have g3 : (filterStart s g b).enSobel = s.enSobel := by simp [State.enSobel, c1.ctrl]
  rw [g1, g2, g3, c1.params, c1.modeFloat] at pu
  have own3 : Owned u := own2.filterPasses e3
  generalize hR : chainHandle s.enGauss s.enSharp s.enSobel g s.nextHandle = R at *
  generalize hD : chainHandle s.enGauss s.enSharp s.enSobel s.nextHandle g = D at *
  have hRD : R ≠ D := pu.ne
  have hset : (R = g ∧ D = s.nextHandle) ∨ (R = s.nextHandle ∧ D = g) := by
    subst hR hD; unfold chainHandle; split <;> simp
  have e4 : dropScratch u = .next ((u.removeBuffer D).setHolder .ppDst none) :=
    (dropScratch_eq_next _ _).2 ⟨D, _, pu.dst, pu.findDst, rfl⟩
  have uproc : u.proc = none := by rw [fu.proc]; exact (hold .proc).trans (by simpa [State.holder] using h3)
  generalize hC : chainPair s.params s.modeFloat s.enGauss s.enSharp s.enSobel b = C at *
  have e5 : moveHeld ((u.removeBuffer D).setHolder .ppDst none).ppSrc .proc ((u.removeBuffer D).setHolder .ppDst none)
      = .next (((u.removeBuffer D).setHolder .ppDst none).handTo R { C.1 with owner := .ppSrc } .proc) := by
    refine (moveHeld_eq_next _ _ _ _).2 ⟨R, pu.src, (fbMove_eq_next _ _ _ _).2 ⟨_, ?_, by simp, ?_, ?_, rfl⟩⟩
    · rw [State.setHolder_mem, State.removeBuffer_mem, Memory.find_remove _ _ _ own3.wf, if_neg hRD]; exact pu.findSrc
    · simp [acceptsType, pu.graySrc]
    · exact uproc
  refine ⟨((u.removeBuffer D).setHolder .ppDst none).handTo R { C.1 with owner := .ppSrc } .proc, ?_, ?_, ?_, ?_, ?_, ?_⟩
  · unfold actFilter
    simp only [hg]
    rw [withBuffer_live _ _ _ _ hb, e1, bindNext_next, e2, bindNext_next, e3, bindNext_next, e4, bindNext_next, e5]
  · exact ((c1.trans fu.controls).trans ((SameControls.removeBuffer _ _).trans (SameControls.setHolder _ _ _))).trans
      (SameControls.handTo _ _ _ _)
  · have hu : ∀ o, u.holder o = if o = .ppSrc then some R else if o = .ppDst then some D
        else (filterStart s g b).holder o := by
      intro o
      cases o
      · rfl
      · exact fu.raw
      · exact fu.gray
      · exact fu.proc
      · exact pu.src
      · exact pu.dst
      · exact fu.cscOut
      · rfl
    intro o
    rw [State.holder_handTo, State.holder_setHolder, State.holder_removeBuffer, hu, hold]
    cases o <;> simp [State.holder, h1, h2]
  · rw [State.handTo_nextHandle, State.setHolder_nextHandle, State.removeBuffer_nextHandle, fu.nextHandle]
    simp [filterStart]
  · rw [State.handTo_env, State.setHolder_env, State.removeBuffer_env, fu.env, filterStart_env]
  · intro k
    rw [State.handTo_mem, Memory.find_put, State.setHolder_mem, State.removeBuffer_mem,
      Memory.find_remove _ _ _ own3.wf]
    by_cases hk : k = R
    · rw [if_pos hk, if_pos hk, filterChain_eq, hC]
    · rw [if_neg hk, if_neg hk]
      by_cases hk' : k = D
      · rw [if_pos hk', if_pos hk']
      · rw [if_neg hk', if_neg hk', fu.others, filterStart_find]
        · rw [if_neg, if_neg] <;> omega
        · omega
        · omega

/-- ACT.CONVERT on a frame, in a sound state with CSC.OUT and GRAY EMPTY, completes (R204). -/
theorem actConvert_next (s : State) (hs : Owned s) (r : Nat) (b : Buffer) (hr : s.raw = some r)
    (hb : s.mem.find r = some b) (h1 : s.cscOut = none) (h2 : s.gray = none)
    (ha : s.allocAnswer .gray b.width.toNat b.height.toNat = true) :
    ∃ t, actConvert s = .next t ∧ SameControls s t
      ∧ (∀ o, t.holder o = if o = .gray then some s.nextHandle else if o = .raw then none else s.holder o)
      ∧ t.nextHandle = s.nextHandle + 1
      ∧ t.env = (s.afterAlloc .gray b.width.toNat b.height.toNat).env
      ∧ (∀ k, t.mem.find k =
          if k = s.nextHandle then
            some { convertBuffer s.params s.modeFloat b (Buffer.fresh .gray b.width b.height .cscOut) with owner := .gray }
          else if k = r then none else s.mem.find k) := by
  obtain ⟨b', hb', ho, ht⟩ := hs.named .raw r hr
  cases hb.symm.trans hb'
  have hrgb : b.elem = .rgb := by simpa [acceptsType] using ht
  have hwf := (Buffer.wf_iff b).1 (hs.recordWf hb)
  have hlt : r < s.nextHandle := hs.fresh r b hb
  have hne : r ≠ s.nextHandle := by omega
  generalize hF : Buffer.fresh .gray b.width b.height .cscOut = F at *
  have hFo : F.owner = .cscOut := by rw [← hF]; rfl
  have hFe : F.elem = .gray := by rw [← hF]; rfl
  generalize hS1 : (s.afterAlloc .gray b.width.toNat b.height.toNat).install F = s1
  have e1 : fbCreate .gray b.width b.height .cscOut s = .next s1 := by
    refine (fbCreate_eq_next _ _ _ _ _ _).2 ⟨hwf.1, hwf.2.1, h1, ha, ?_⟩
    rw [hF, hS1]
  have own1 : Owned s1 := hs.fbCreate (by simp) (by simp [acceptsType]) e1
  have find1 : ∀ k, s1.mem.find k = if k = s.nextHandle then some F else s.mem.find k := by
    intro k; rw [← hS1, State.install_mem, Memory.find_put]; rfl
  have hold1 : ∀ o, s1.holder o = if o = .cscOut then some s.nextHandle else s.holder o := by
    intro o
    rw [← hS1, State.holder_install, State.holder_afterAlloc]
    cases o <;> simp [hFo]
  have c1 : SameControls s s1 := SameControls.fbCreate e1
  generalize hG : convertBuffer s.params s.modeFloat b F = G at *
  have hGe : G.elem = .gray := by rw [← hG]; simpa using hFe
  have hGo : G.owner = .cscOut := by rw [← hG]; simpa using hFo
  have fr : s1.mem.find r = some b := by rw [find1, if_neg hne]; exact hb
  have e2 : convertHeld r s1 = .next (s1.putBuffer s.nextHandle G) := by
    refine (convertHeld_eq_next _ _ _).2 ⟨s.nextHandle, hold1 .cscOut, (cscConvert_eq_next _ _ _ _).2
      ⟨b, F, fr, ?_, hrgb, hFe, ?_⟩⟩
    · rw [find1, if_pos rfl]
    · rw [if_neg, c1.params, c1.modeFloat, hG]
      rw [← hF]; simp [dimsDiffer, Buffer.fresh]
  have own2 : Owned (s1.putBuffer s.nextHandle G) := by
    obtain ⟨g, hg, e⟩ := (convertHeld_eq_next _ _ _).1 e2
    exact own1.cscConvert e
  have e3 : fbDestroy r (s1.putBuffer s.nextHandle G) = .next ((s1.putBuffer s.nextHandle G).removeBuffer r) := by
    refine (fbDestroy_eq_next _ _ _).2 ⟨⟨b, ?_⟩, rfl⟩
    rw [State.putBuffer_mem, Memory.find_put, if_neg hne]; exact fr
  generalize hS3 : ((s1.putBuffer s.nextHandle G).removeBuffer r).setHolder .raw none = s3
  have find3 : ∀ k, s3.mem.find k = if k = r then none else if k = s.nextHandle then some G else s1.mem.find k := by
    intro k
    rw [← hS3, State.setHolder_mem, State.removeBuffer_mem, Memory.find_remove _ _ _ own2.wf, State.putBuffer_mem,
      Memory.find_put]
  have hold3 : ∀ o, s3.holder o = if o = .raw then none else s1.holder o := by
    intro o
    rw [← hS3, State.holder_setHolder, State.holder_removeBuffer, State.holder_putBuffer]
    cases o <;> simp
  have e4 : moveHeld s3.cscOut .gray s3 = .next (s3.handTo s.nextHandle G .gray) := by
    refine (moveHeld_eq_next _ _ _ _).2 ⟨s.nextHandle, ?_, (fbMove_eq_next _ _ _ _).2 ⟨G, ?_, by simp, ?_, ?_, rfl⟩⟩
    · have := hold3 .cscOut; rw [hold1] at this; exact this
    · rw [find3, if_neg hne.symm, if_pos rfl]
    · simp [acceptsType, hGe]
    · have := hold3 .gray; rw [hold1] at this; exact this.trans h2
  refine ⟨s3.handTo s.nextHandle G .gray, ?_, ?_, ?_, ?_, ?_, ?_⟩
  · unfold actConvert
    simp only [hr]
    rw [withBuffer_live _ _ _ _ hb, e1, bindNext_next, e2, bindNext_next, e3, bindNext_next, hS3, ← e4, ← hS3]
    rfl
  · rw [← hS3]
    exact (c1.trans ((SameControls.putBuffer _ _ _).trans ((SameControls.removeBuffer _ _).trans
      (SameControls.setHolder _ _ _)))).trans (SameControls.handTo _ _ _ _)
  · intro o
    rw [State.holder_handTo, hold3, hold1]
    cases o <;> simp [hGo]
    exact h1.symm
  · rw [State.handTo_nextHandle, ← hS3, ← hS1]; simp
  · rw [State.handTo_env, ← hS3, ← hS1]; simp
  · intro k
    rw [State.handTo_mem, Memory.find_put, find3, find1]
    by_cases hk : k = s.nextHandle
    · rw [if_pos hk, if_pos hk]
    · rw [if_neg hk, if_neg hk, if_neg hk, if_neg hk]

end Sys2Proof.Machine
end

