-- ==== Sys2Proof/Laws/Tick.lean ====
section
/-!
SUPPORT. A tick, action by action: what each action of a tick leaves, from a sound state with the allocations answered
yes, and the whole tick as the simultaneous assignment of R210.
-/
namespace Sys2Proof.Machine

/-! ### One tick, action by action -/

/-- A holder's buffer in a sound state: none exactly when the holder is EMPTY. -/
theorem Owned.heldBuffer_cases {s : State} (h : Owned s) (o : OwnerTag) :
    (s.holder o = none ∧ s.heldBuffer o = none) ∨
      ∃ k b, s.holder o = some k ∧ s.mem.find k = some b ∧ b.owner = o ∧ s.heldBuffer o = some b := by
  cases hk : s.holder o with
  | none => exact .inl ⟨rfl, by simp [State.heldBuffer, hk]⟩
  | some k =>
    obtain ⟨b, hb, ho, -⟩ := h.named o k hk
    exact .inr ⟨k, b, rfl, hb, ho, by simp [State.heldBuffer, hk, hb]⟩

/-- What the OUTPUT, FILTER, CONVERT and INPUT actions leave to the rest of the tick: the buffers of the owners `keep`
are as before. -/
def Keeps (s t : State) (drop : OwnerTag) : Prop :=
  ∀ k b, s.mem.find k = some b → b.owner ≠ drop → t.mem.find k = some b

/-- The fields no action of a tick writes. -/
structure TickFrame (s t : State) : Prop where
  ctrl : t.ctrl = s.ctrl
  pending : t.pending = s.pending
  params : t.params = s.params
  ports : t.ports = s.ports
  rh : t.rh = s.rh
  rv : t.rv = s.rv
  crData : t.crData = s.crData
  host : t.host = s.host
  running : t.running = s.running
  tick : t.tick = s.tick

theorem TickFrame.trans {s t u : State} (h : TickFrame s t) (k : TickFrame t u) : TickFrame s u :=
  ⟨k.ctrl.trans h.ctrl, k.pending.trans h.pending, k.params.trans h.params, k.ports.trans h.ports, k.rh.trans h.rh,
    k.rv.trans h.rv, k.crData.trans h.crData, k.host.trans h.host, k.running.trans h.running, k.tick.trans h.tick⟩

theorem SameControls.tickFrame {s t : State} (h : SameControls s t) : TickFrame s t :=
  ⟨h.ctrl, h.pending, h.params, h.ports, h.rh, h.rv, h.crData, h.host, h.running, h.tick⟩

theorem TickFrame.enGauss {s t : State} (h : TickFrame s t) : t.enGauss = s.enGauss := by simp [State.enGauss, h.ctrl]
theorem TickFrame.enSharp {s t : State} (h : TickFrame s t) : t.enSharp = s.enSharp := by simp [State.enSharp, h.ctrl]
theorem TickFrame.enSobel {s t : State} (h : TickFrame s t) : t.enSobel = s.enSobel := by simp [State.enSobel, h.ctrl]
theorem TickFrame.modeFloat {s t : State} (h : TickFrame s t) : t.modeFloat = s.modeFloat := by
  simp [State.modeFloat, h.ctrl]

/-- ACT.OUTPUT in a sound state completes (R202). -/
theorem actOutput_next (s : State) (hs : Owned s) :
    ∃ t, actOutput s = .next t ∧ Owned t ∧ TickFrame s t ∧ Keeps s t .proc
      ∧ (∀ o, t.holder o = if o = .proc then none else s.holder o)
      ∧ (∀ h, s.proc = some h → t.mem.find h = none)
      ∧ t.phase = s.phase ∧ t.inCursor = s.inCursor ∧ t.total = s.total ∧ t.nextHandle = s.nextHandle
      ∧ t.outCursor = (if s.proc = none then s.outCursor else s.outCursor + 1)
      ∧ t.status = s.statusAfterOutput ∧ t.env.allocs = s.env.allocs ∧ t.env.decodes = s.env.decodes
      ∧ t.env.calls = s.env.calls ++ (match s.heldBuffer .proc with
         | none => []
         | some b => [.encode s.outCursor.toNat b.width.toNat b.height.toNat b.grid
             (s.encodeAnswer s.outCursor.toNat b)]) := by
  rcases hs.heldBuffer_cases .proc with ⟨h1, h2⟩ | ⟨k, b, h1, hb, ho, h2⟩
  · have h1' : s.proc = none := h1
    refine ⟨s, actOutput_empty s h1', hs, ⟨rfl, rfl, rfl, rfl, rfl, rfl, rfl, rfl, rfl, rfl⟩, fun _ _ h _ => h, ?_, ?_, rfl, rfl, rfl,
      rfl, ?_, ?_, rfl, rfl, ?_⟩
    · intro o; split
      · rename_i e; rw [e]; exact h1
      · rfl
    · intro h hh; rw [h1'] at hh; cases hh
    · rw [if_pos h1']
    · simp [State.statusAfterOutput, h2]
    · simp [h2]
  · have h1' : s.proc = some k := h1
    have e := (actOutput_eq_next s _ k h1').2 ⟨b, hb, rfl⟩
    have hfind : ∀ j, ((s.handToEncoder b).removeBuffer k).countOutput.mem.find j
        = if j = k then none else s.mem.find j := by
      intro j; simp [Memory.find_remove _ _ _ hs.wf]
    refine ⟨_, e, hs.actOutput e, ⟨by simp, by simp, by simp, by simp, by simp, by simp, by simp, by simp, by simp, by simp⟩, ?_, ?_, ?_, by simp,
      by simp, by simp, by simp, ?_, ?_, ?_, ?_, ?_⟩
    · intro j d hd hne
      rw [hfind, if_neg]
      · exact hd
      · rintro rfl; cases hd.symm.trans hb; exact hne ho
    · intro o; simp
    · intro h hh; rw [h1'] at hh; cases hh; rw [hfind, if_pos rfl]
    · simp [h1']
    · simp only [State.countOutput_status, State.removeBuffer_status, State.statusAfterOutput, h2,
        State.handToEncoder]
      cases s.encodeAnswer s.outCursor.toNat b <;> rfl
    all_goals
      simp only [State.countOutput_env, State.removeBuffer_env, State.handToEncoder, h2]
      cases hq : s.encodeAnswer s.outCursor.toNat b <;> simp [State.afterEncode, hq]

/-- ACT.FILTER in a sound state with PROC and the slots EMPTY and the next allocation answered yes completes (R203). -/
theorem actFilter_tick (s : State) (hs : Owned s) (h1 : s.ppSrc = none) (h2 : s.ppDst = none) (h3 : s.proc = none)
    (rest : List Bool) (ha : s.env.allocs = true :: rest) :
    ∃ t, actFilter s = .next t ∧ Owned t ∧ SameControls s t ∧ Keeps s t .gray
      ∧ (∀ o, o ≠ .proc → t.holder o = if o = .gray then none else s.holder o)
      ∧ (∀ k, s.mem.find k = none → k ≠ s.nextHandle → t.mem.find k = none)
      ∧ s.nextHandle ≤ t.nextHandle
      ∧ (match s.heldBuffer .gray with
          | none => t.proc = none
          | some b => ∃ h, t.proc = some h ∧ t.mem.find h =
              some { filterChain s.params s.modeFloat s.enGauss s.enSharp s.enSobel b with owner := .proc })
      ∧ t.env.allocs = (match s.heldBuffer .gray with | none => true :: rest | some _ => rest)
      ∧ t.env.decodes = s.env.decodes
      ∧ t.env.calls = s.env.calls ++ (match s.heldBuffer .gray with
         | none => []
         | some b => [.allocOk .gray b.width.toNat b.height.toNat true]) := by
  rcases hs.heldBuffer_cases .gray with ⟨g1, g2⟩ | ⟨k, b, g1, hb, ho, g2⟩
  · have g1' : s.gray = none := g1
    refine ⟨s, actFilter_empty s g1', hs, SameControls.refl s, fun _ _ h _ => h, ?_, fun _ h _ => h, le_refl _, ?_, ?_, rfl, ?_⟩
    · intro o _; split
      · rename_i e; rw [e]; exact g1
      · rfl
    · rw [g2]; exact h3
    · rw [g2]; exact ha
    · simp [g2]
  · have hya : s.allocAnswer .gray b.width.toNat b.height.toNat = true := by simp [State.allocAnswer, ha]
    obtain ⟨t, e, c, hold, hn, henv, hfind⟩ := actFilter_next s hs k b g1 hb h1 h2 h3 hya
    have hlt := hs.fresh k b hb
    have hset : ∀ x y, chainHandle s.enGauss s.enSharp s.enSobel x y = x ∨
        chainHandle s.enGauss s.enSharp s.enSobel x y = y := by
      intro x y; unfold chainHandle; split <;> simp
    refine ⟨t, e, hs.actFilter e, c, ?_, ?_, ?_, by omega, ?_, ?_, ?_, ?_⟩
    · intro j d hd hne
      have jk : j ≠ k := by rintro rfl; cases hd.symm.trans hb; exact hne ho
      have jn : j < s.nextHandle := hs.fresh j d hd
      rw [hfind, if_neg, if_neg]
      · exact hd
      · rcases hset s.nextHandle k with e | e <;> rw [e] <;> omega
      · rcases hset k s.nextHandle with e | e <;> rw [e] <;> omega
    · intro o hop; rw [hold, if_neg hop]
    · intro j hj hjn
      rw [hfind]
      have jk : j ≠ k := by rintro rfl; rw [hj] at hb; cases hb
      rw [if_neg, if_neg]
      · exact hj
      · rcases hset s.nextHandle k with e | e <;> rw [e] <;> assumption
      · rcases hset k s.nextHandle with e | e <;> rw [e] <;> assumption
    · rw [g2]
      refine ⟨chainHandle s.enGauss s.enSharp s.enSobel k s.nextHandle, hold .proc, ?_⟩
      rw [hfind, if_pos rfl]
    · rw [henv, g2]; simp [State.afterAlloc, ha]
    · rw [henv]; simp [State.afterAlloc]
    · rw [henv, g2]; simp [State.afterAlloc, hya]

/-- ACT.CONVERT in a sound state with GRAY and CSC.OUT EMPTY and the next allocation answered yes completes (R204). -/
theorem actConvert_tick (s : State) (hs : Owned s) (h1 : s.cscOut = none) (h2 : s.gray = none)
    (rest : List Bool) (ha : s.env.allocs = true :: rest) :
    ∃ t, actConvert s = .next t ∧ Owned t ∧ SameControls s t ∧ Keeps s t .raw
      ∧ (∀ o, o ≠ .gray → t.holder o = if o = .raw then none else s.holder o)
      ∧ (∀ k, s.mem.find k = none → k ≠ s.nextHandle → t.mem.find k = none)
      ∧ s.nextHandle ≤ t.nextHandle
      ∧ (match s.heldBuffer .raw with
          | none => t.gray = none
          | some b => ∃ h, t.gray = some h ∧ t.mem.find h =
              some { convertBuffer s.params s.modeFloat b (Buffer.fresh .gray b.width b.height .cscOut) with owner := .gray })
      ∧ t.env.allocs = (match s.heldBuffer .raw with | none => true :: rest | some _ => rest)
      ∧ t.env.decodes = s.env.decodes
      ∧ t.env.calls = s.env.calls ++ (match s.heldBuffer .raw with
         | none => []
         | some b => [.allocOk .gray b.width.toNat b.height.toNat true]) := by
  rcases hs.heldBuffer_cases .raw with ⟨g1, g2⟩ | ⟨k, b, g1, hb, ho, g2⟩
  · have g1' : s.raw = none := g1
    refine ⟨s, actConvert_empty s g1', hs, SameControls.refl s, fun _ _ h _ => h, ?_, fun _ h _ => h, le_refl _, ?_, ?_, rfl, ?_⟩
    · intro o _; split
      · rename_i e; rw [e]; exact g1
      · rfl
    · rw [g2]; exact h2
    · rw [g2]; exact ha
    · simp [g2]
  · have hya : s.allocAnswer .gray b.width.toNat b.height.toNat = true := by simp [State.allocAnswer, ha]
    obtain ⟨t, e, c, hold, hn, henv, hfind⟩ := actConvert_next s hs k b g1 hb h1 h2 hya
    refine ⟨t, e, hs.actConvert e, c, ?_, ?_, ?_, by omega, ?_, ?_, ?_, ?_⟩
    · intro j d hd hne
      have jk : j ≠ k := by rintro rfl; cases hd.symm.trans hb; exact hne ho
      have jn : j < s.nextHandle := hs.fresh j d hd
      rw [hfind, if_neg (by omega), if_neg jk]
      exact hd
    · intro o hop; rw [hold, if_neg hop]
    · intro j hj hjn
      rw [hfind, if_neg hjn]
      split
      · rfl
      · exact hj
    · rw [g2]
      exact ⟨s.nextHandle, hold .gray, by rw [hfind, if_pos rfl]⟩
    · rw [henv, g2]; simp [State.afterAlloc, ha]
    · rw [henv]; simp [State.afterAlloc]
    · rw [henv, g2]; simp [State.afterAlloc, hya]

/-- ACT.INPUT with RAW EMPTY, a listed answer of Decode and the next allocation answered yes completes (R205). -/
theorem actInput_tick (s : State) (hs : Owned s) (h1 : s.raw = none) (rest : List Bool)
    (ha : s.env.allocs = true :: rest)
    (hi : s.inCursor.toNat < s.total.toNat → ∃ id, s.pending[s.inCursor.toNat]? = some id ∧
      ((∃ c rest, s.env.decodes = .error c :: rest) ∨
        (∃ w h px rest, s.env.decodes = .grid w h px :: rest ∧ gridOk w h px = true))) :
    ∃ t, actInput s = .next t ∧ Owned t ∧ TickFrame s t ∧ (∀ k b, s.mem.find k = some b → t.mem.find k = some b)
      ∧ (∀ o, o ≠ .raw → t.holder o = s.holder o)
      ∧ (∀ k, s.mem.find k = none → k ≠ s.nextHandle → t.mem.find k = none)
      ∧ t.phase = s.phase ∧ t.outCursor = s.outCursor
      ∧ (match s.nextDecode with
          | some (.grid w h px) => ∃ k, t.raw = some k ∧
              t.mem.find k = some (Buffer.decoded (BitVec.ofNat 16 w) (BitVec.ofNat 16 h) px)
          | some (.error _) => t.raw = none
          | none => t.raw = none)
      ∧ (match s.nextDecode with
          | some (.grid _ _ _) => t.inCursor = s.inCursor + 1
          | some (.error _) => t.inCursor = s.inCursor
          | none => t.inCursor = s.inCursor)
      ∧ (match s.nextDecode with
          | some (.error _) => t.total = s.inCursor
          | some (.grid _ _ _) => t.total = s.total
          | none => t.total = s.total)
      ∧ (match s.nextDecode with
          | some (.error c) => t.status = statusDecFail s.status (causeCode c)
          | some (.grid _ _ _) => t.status = s.status
          | none => t.status = s.status)
      ∧ t.env.calls = s.env.calls ++ (match s.nextDecode with
         | none => []
         | some (.error c) => [.decode (s.pending.getD s.inCursor.toNat 0) (.error c)]
         | some (.grid w h px) =>
           [.decode (s.pending.getD s.inCursor.toNat 0) (.grid w h px), .allocOk .rgb w h true]) := by
  by_cases hlt : s.inCursor.toNat < s.total.toNat
  · obtain ⟨id, hid, hd⟩ := hi hlt
    have hget : s.pending.getD s.inCursor.toNat 0 = id := by simp [List.getD, hid]
    rcases hd with ⟨c, r, hd⟩ | ⟨w, h, px, r, hd, hg⟩
    · have hn : s.nextDecode = some (.error c) := by simp [State.nextDecode, hlt, hd]
      have hda : s.decodeAnswer id = .error c := by simp [State.decodeAnswer, hd]
      have e := (actInput_eq_next s _).2 (.inr ⟨hlt, id, hid, .inl ⟨c, hda, rfl⟩⟩)
      simp only [hn]
      refine ⟨_, e, hs.actInput e, ⟨rfl, rfl, rfl, rfl, rfl, rfl, rfl, rfl, rfl, rfl⟩, fun _ _ h => h, fun o _ => by cases o <;> rfl,
        fun _ h _ => h, rfl, rfl, h1, rfl, rfl, rfl, ?_⟩
      rw [hget]; simp [State.afterDecode, hda]
    · have hn : s.nextDecode = some (.grid w h px) := by simp [State.nextDecode, hlt, hd]
      have hda : s.decodeAnswer id = .grid w h px := by simp [State.decodeAnswer, hd]
      have hya : (s.afterDecode id).allocAnswer .rgb w h = true := by
        simp [State.allocAnswer, State.afterDecode, ha]
      have e := (actInput_eq_next s _).2 (.inr ⟨hlt, id, hid, .inr ⟨w, h, px, hda,
        (acceptGrid_eq_next _ _ _ _ _).2 ⟨hg, h1, hya, rfl⟩⟩⟩)
      simp only [hn]
      have hfind : ∀ k, (((s.afterDecode id).afterAlloc .rgb w h).install
            (Buffer.decoded (BitVec.ofNat 16 w) (BitVec.ofNat 16 h) px)).countInput.mem.find k
          = if k = s.nextHandle then some (Buffer.decoded (BitVec.ofNat 16 w) (BitVec.ofNat 16 h) px)
            else s.mem.find k := by
        intro k; simp only [State.countInput_mem, State.install_mem, Memory.find_put]; rfl
      refine ⟨_, e, hs.actInput e, ⟨by simp, by simp, by simp, by simp, by simp, by simp, by simp, by simp, by simp, by simp⟩, ?_, ?_, ?_,
        by simp, by simp, ?_, by simp, by simp, by simp, ?_⟩
      · intro k b hb
        rw [hfind, if_neg]
        · exact hb
        · have := hs.fresh k b hb; omega
      · intro o ho
        simp only [State.holder_countInput, State.holder_install, State.holder_afterAlloc, State.holder_afterDecode]
        rw [if_neg]
        rintro ⟨e, -⟩; exact ho e.symm
      · intro k hk hkn; rw [hfind, if_neg hkn]; exact hk
      · refine ⟨s.nextHandle, rfl, ?_⟩
        rw [hfind, if_pos rfl]
      · rw [hget]
        simp only [State.countInput_env, State.install_env]
        unfold State.afterAlloc
        rw [hya]
        simp [State.afterDecode, hda]
  · have hn : s.nextDecode = none := by simp [State.nextDecode, hlt]
    have e := (actInput_eq_next s s).2 (.inl ⟨hlt, rfl⟩)
    simp only [hn]
    exact ⟨s, e, hs, ⟨rfl, rfl, rfl, rfl, rfl, rfl, rfl, rfl, rfl, rfl⟩, fun _ _ h => h, fun _ _ => rfl, fun _ h _ => h, rfl, rfl, h1,
      rfl, rfl, rfl, by simp⟩

theorem Owned.enterPhase {s : State} (h : Owned s) (p : Phase) : Owned (s.enterPhase p) :=
  h.congr rfl rfl (fun o => by simp)

/-- A whole tick from a tick-boundary state, with the allocations answered yes, completes and is the simultaneous
assignment of R210. -/
theorem schedTick_transfer (s : State) (h : TickReady s) :
    ∃ t, schedTick s = .next t ∧ TickTransfer s t ∧ t.running = s.running ∧ Owned t := by
  obtain ⟨rest, ha⟩ := h.allocs
  -- OUTPUT
  have own0 : Owned (s.countTick.enterPhase .output) := h.owned.congr rfl rfl (fun o => by simp)
  obtain ⟨s1, e1, own1, fr1, keep1, hold1, gone1, ph1, in1, tot1, nh1, out1, st1, al1, de1, ca1⟩ := actOutput_next _ own0
  -- FILTER
  have f1 : TickFrame (s.countTick.enterPhase .output) (s1.enterPhase .filter) :=
    ⟨fr1.ctrl, fr1.pending, fr1.params, fr1.ports, fr1.rh, fr1.rv, fr1.crData, fr1.host, fr1.running, fr1.tick⟩
  have holdA : ∀ o, (s1.enterPhase .filter).holder o = if o = .proc then none else s.holder o := by
    intro o; rw [State.holder_enterPhase, hold1]; simp
  obtain ⟨s2, e2, own2, c2, keep2, hold2, dead2, nh2, proc2, al2, de2, ca2⟩ := actFilter_tick (s1.enterPhase .filter)
    (own1.enterPhase _) (by simpa [State.holder, h.srcEmpty] using holdA .ppSrc)
    (by simpa [State.holder, h.dstEmpty] using holdA .ppDst) (holdA .proc) _ (al1.trans ha)
  have fr2 : TickFrame (s.countTick.enterPhase .output) s2 := f1.trans c2.tickFrame
  have hb1 : (s1.enterPhase .filter).heldBuffer .gray = s.heldBuffer .gray := by
    rcases h.owned.heldBuffer_cases .gray with ⟨g1, g2⟩ | ⟨k, b, g1, hb, ho, g2⟩
    · rw [g2]; simp [State.heldBuffer, holdA, g1]
    · rw [g2]; simp only [State.heldBuffer, holdA]
      rw [if_neg (by simp), g1]
      exact keep1 k b hb (by rw [ho]; simp)
  rw [hb1, f1.enGauss, f1.enSharp, f1.enSobel, f1.modeFloat, f1.params] at proc2
  rw [hb1] at al2 ca2
  -- CONVERT
  have f2 : TickFrame (s.countTick.enterPhase .output) (s2.enterPhase .convert) :=
    ⟨fr2.ctrl, fr2.pending, fr2.params, fr2.ports, fr2.rh, fr2.rv, fr2.crData, fr2.host, fr2.running, fr2.tick⟩
  have holdB : ∀ o, o ≠ .proc → (s2.enterPhase .convert).holder o = if o = .gray then none else s.holder o := by
    intro o ho; rw [State.holder_enterPhase, hold2 o ho, holdA, if_neg ho]
  have al2' : ∃ r2, s2.env.allocs = true :: r2 ∧ ∃ r3, (s.heldBuffer .raw = none ∨ r2 = true :: r3) ∧
      (s.heldBuffer .raw ≠ none ∨ True) := by
    rw [al2]
    cases s.heldBuffer .gray with
    | none => exact ⟨_, rfl, true :: rest, .inr rfl, .inr trivial⟩
    | some b => exact ⟨_, rfl, rest, .inr rfl, .inr trivial⟩
  obtain ⟨r2, ha2, r3, hr3, -⟩ := al2'
  obtain ⟨s3, e3, own3, c3, keep3, hold3, dead3, nh3, gray3, al3, de3, ca3⟩ := actConvert_tick (s2.enterPhase .convert)
    (own2.enterPhase _) (by simpa [State.holder, h.cscEmpty] using holdB .cscOut (by simp)) (holdB .gray (by simp)) r2 ha2
  have fr3 : TickFrame (s.countTick.enterPhase .output) s3 := f2.trans c3.tickFrame
  have hb2 : (s2.enterPhase .convert).heldBuffer .raw = s.heldBuffer .raw := by
    rcases h.owned.heldBuffer_cases .raw with ⟨g1, g2⟩ | ⟨k, b, g1, hb, ho, g2⟩
    · rw [g2]; simp only [State.heldBuffer, holdB .raw (by simp)]; simp [g1]
    · rw [g2]; simp only [State.heldBuffer, holdB .raw (by simp)]
      rw [if_neg (by simp), g1]
      exact keep2 k b (keep1 k b hb (by rw [ho]; simp)) (by rw [ho]; simp)
  rw [hb2, f2.modeFloat, f2.params] at gray3
  rw [hb2] at al3 ca3
  -- INPUT
  have f3 : TickFrame (s.countTick.enterPhase .output) (s3.enterPhase .input) :=
    ⟨fr3.ctrl, fr3.pending, fr3.params, fr3.ports, fr3.rh, fr3.rv, fr3.crData, fr3.host, fr3.running, fr3.tick⟩
  have in3 : (s3.enterPhase .input).inCursor = s.inCursor := c3.inCursor.trans (c2.inCursor.trans in1)
  have tot3 : (s3.enterPhase .input).total = s.total := c3.total.trans (c2.total.trans tot1)
  have out3 : s3.outCursor = s1.outCursor := c3.outCursor.trans c2.outCursor
  have st3 : (s3.enterPhase .input).status = s.statusAfterOutput := c3.status.trans (c2.status.trans st1)
  have de3' : (s3.enterPhase .input).env.decodes = s.env.decodes := de3.trans (de2.trans de1)
  have pe3 : (s3.enterPhase .input).pending = s.pending := f3.pending
  have nd3 : (s3.enterPhase .input).nextDecode = s.nextDecode := by
    simp only [State.nextDecode, in3, tot3, de3']
  have ha3 : ∃ r4, (s3.enterPhase .input).env.allocs = true :: r4 := by
    show ∃ r4, s3.env.allocs = _
    rw [al3]
    cases hh : s.heldBuffer .raw with
    | none => exact ⟨r2, rfl⟩
    | some b => rcases hr3 with q | q
                · rw [hh] at q; cases q
                · exact ⟨r3, q⟩
  obtain ⟨r4, ha3⟩ := ha3
  have holdC : ∀ o, o ≠ .proc → o ≠ .gray → (s3.enterPhase .input).holder o = if o = .raw then none else s.holder o := by
    intro o ho ho'; rw [State.holder_enterPhase, hold3 o ho', holdB o ho, if_neg ho']
  obtain ⟨s4, e4, own4, fr4, keep4, hold4, dead4, ph4, out4, raw4, in4, tot4, st4, ca4⟩ := actInput_tick (s3.enterPhase .input)
    (own3.enterPhase _) (holdC .raw (by simp) (by simp)) r4 ha3 (by
      rw [in3, tot3, pe3, de3']; exact h.input)
  have fr : TickFrame (s.countTick.enterPhase .output) s4 := f3.trans fr4
  rw [nd3] at raw4 in4 tot4 st4 ca4
  rw [in3] at in4
  rw [in3, tot3] at tot4
  rw [st3] at st4
  rw [pe3, in3] at ca4
  have procS : s4.proc = s2.proc := (hold4 .proc (by simp)).trans (hold3 .proc (by simp))
  have grayS : s4.gray = s3.gray := hold4 .gray (by simp)
  refine ⟨s4.enterPhase .idle, ?_, ?_, fr.running, own4.enterPhase _⟩
  · unfold schedTick
    rw [e1, bindNext_next, e2, bindNext_next, e3, bindNext_next, e4, bindNext_next]
  · refine ⟨?_, ?_, raw4, ?_, in4, tot4, st4, ?_, fr.tick, rfl, ?_, ?_, ?_, fr.ctrl, fr.pending, fr.params, ?_⟩
    · show match s.heldBuffer .gray with
        | none => s4.proc = none
        | some b => ∃ h, s4.proc = some h ∧ s4.mem.find h =
          some { filterChain s.params s.modeFloat s.enGauss s.enSharp s.enSobel b with owner := .proc }
      rw [procS]
      revert proc2
      cases s.heldBuffer .gray with
      | none => exact id
      | some b =>
        rintro ⟨q, q1, q2⟩
        exact ⟨q, q1, keep4 _ _ (keep3 _ _ q2 (by simp))⟩
    · show match s.heldBuffer .raw with
        | none => s4.gray = none
        | some b => ∃ h, s4.gray = some h ∧ s4.mem.find h =
          some { convertBuffer s.params s.modeFloat b (Buffer.fresh .gray b.width b.height .cscOut) with owner := .gray }
      rw [grayS]
      revert gray3
      cases s.heldBuffer .raw with
      | none => exact id
      | some b =>
        rintro ⟨q, q1, q2⟩
        exact ⟨q, q1, keep4 _ _ q2⟩
    · show s4.outCursor = _
      rw [out4]; exact out3.trans out1
    · show s4.env.calls = s.env.calls ++ s.tickCalls
      rw [ca4]
      show s3.env.calls ++ _ = _
      rw [ca3]
      show (s2.env.calls ++ _) ++ _ = _
      rw [ca2]
      show ((s1.env.calls ++ _) ++ _) ++ _ = _
      rw [ca1]
      simp only [State.tickCalls, List.append_assoc]
      rfl
    · refine ⟨?_, ?_, ?_⟩
      · have := (hold4 .ppSrc (by simp)).trans (holdC .ppSrc (by simp) (by simp)); exact this.trans h.srcEmpty
      · have := (hold4 .ppDst (by simp)).trans (holdC .ppDst (by simp) (by simp)); exact this.trans h.dstEmpty
      · have := (hold4 .cscOut (by simp)).trans (holdC .cscOut (by simp) (by simp)); exact this.trans h.cscEmpty
    · intro k hk
      have hlt : k < s.nextHandle := by
        obtain ⟨b, hb, -⟩ := h.owned.named .proc k hk
        exact h.owned.fresh k b hb
      have n1 : s1.nextHandle = s.nextHandle := nh1
      have n2 : s1.nextHandle ≤ s2.nextHandle := nh2
      have n3 : s2.nextHandle ≤ s3.nextHandle := nh3
      have q1 : s1.mem.find k = none := gone1 k hk
      have q2 : s2.mem.find k = none := dead2 k q1 (by show k ≠ s1.nextHandle; omega)
      have q3 : s3.mem.find k = none := dead3 k q2 (by show k ≠ s2.nextHandle; omega)
      exact dead4 k q3 (by show k ≠ s3.nextHandle; omega)
    · intro k b hb ho
      exact keep4 k b (keep3 k b (keep2 k b (keep1 k b hb (by rw [ho]; simp)) (by rw [ho]; simp)) (by rw [ho]; simp))
    · exact ⟨fr.ports, fr.rh, fr.rv, fr.crData, fr.host⟩

/-- The free result code changes RC only. -/
theorem nestedCode_rc (b s : State) : nestedCode b s = { s with rc := (nestedCode b s).rc } := rfl

theorem getD_mod_mem {α : Type} (c : α) (l : List α) (n : Nat) (d : α) : (c :: l).getD (n % (c :: l).length) d ∈ c :: l := by
  have h : n % (c :: l).length < (c :: l).length := Nat.mod_lt _ (Nat.succ_pos _)
  rw [List.getD_eq_getElem _ _ h]
  exact List.getElem_mem h

/-- RC after a tick is RC before it or the code of a condition the tick's calls raised (R240, R250). -/
theorem nestedCode_range (b s : State) :
    (nestedCode b s).rc = b.rc ∨ (nestedCode b s).rc ∈ s.raisedAfter b.env.calls.length := by
  simp only [nestedCode]
  cases s.raisedAfter b.env.calls.length with
  | nil => exact .inl rfl
  | cons c more => exact List.mem_cons.1 (getD_mod_mem b.rc (c :: more) _ b.rc)

/-- The conditions raised in a tick whose calls are known. -/
theorem raisedAfter_append {b s : State} {made : List OracleCall} (h : s.env.calls = b.env.calls ++ made) :
    s.raisedAfter b.env.calls.length = made.filterMap OracleCall.code := by
  simp [State.raisedAfter, h]

theorem TickReady.accepted {s : State} (h : TickReady s) : TickReady s.accepted :=
  ⟨h.owned.congr rfl rfl (fun o => by simp), h.srcEmpty, h.dstEmpty, h.cscEmpty, h.allocs, h.input⟩

theorem TickReady.startRun {s : State} (h : TickReady s) : TickReady s.startRun :=
  ⟨h.owned.congr rfl rfl (fun o => by cases o <;> rfl), h.srcEmpty, h.dstEmpty, h.cscEmpty, h.allocs, h.input⟩

/-- RC before and after a tick is no part of its register transfer. -/
theorem TickTransfer.congr_rc {s s' t t' : State} (h : TickTransfer s t) (hs : s' = { s with rc := s'.rc, running := s'.running })
    (ht : t' = { t with rc := t'.rc }) : TickTransfer s' t' := by
  rw [hs, ht]
  obtain ⟨a1, a2, a3, a4, a5, a6, a7, a8, a9, a10, a11, a12, a13, a14, a15, a16, a17⟩ := h
  exact ⟨a1, a2, a3, a4, a5, a6, a7, a8, a9, a10, a11, a12, a13, a14, a15, a16, a17⟩

end Sys2Proof.Machine
end

