-- ==== Sys2Proof/Laws/Control.lean ====
section
/-!
SUPPORT. What every operation keeps: the configuration, the soundness of the control registers, the sticky bits of
STATUS; operation by operation, and for a whole tick.
-/
namespace Sys2Proof.Machine

/-! ### STATUS bits -/

theorem statusEncErr_bits (st : BitVec 8) : st &&& statusEncErr st = st ∧ (statusEncErr st).getLsbD 0 = st.getLsbD 0
    ∧ (statusEncErr st).getLsbD 1 = st.getLsbD 1 ∧ (statusEncErr st).getLsbD 2 = st.getLsbD 2
    ∧ (statusEncErr st).extractLsb' 3 3 = st.extractLsb' 3 3 := by
  revert st; decide

theorem statusDimMismatch_bits (st : BitVec 8) : st &&& statusDimMismatch st = st
    ∧ (statusDimMismatch st).getLsbD 0 = st.getLsbD 0
    ∧ (statusDimMismatch st).getLsbD 1 = st.getLsbD 1 ∧ (statusDimMismatch st).getLsbD 2 = st.getLsbD 2
    ∧ (statusDimMismatch st).extractLsb' 3 3 = st.extractLsb' 3 3 := by
  revert st; decide

theorem statusDone_bits (st : BitVec 8) : st &&& statusDone st = st ∧ (statusDone st).getLsbD 0 = true
    ∧ (statusDone st).getLsbD 1 = st.getLsbD 1 ∧ (statusDone st).getLsbD 2 = st.getLsbD 2
    ∧ (statusDone st).extractLsb' 3 3 = st.extractLsb' 3 3 := by
  revert st; decide

theorem statusDecFail_bits (st : BitVec 8) (c : DecodeError) : (statusDecFail st (causeCode c)).getLsbD 0 = st.getLsbD 0
    ∧ (statusDecFail st (causeCode c)).getLsbD 1 = st.getLsbD 1 ∧ (statusDecFail st (causeCode c)).getLsbD 2 = true
    ∧ (statusDecFail st (causeCode c)).extractLsb' 3 3 = causeCode c
    ∧ (st.extractLsb' 3 3 = 0#3 → st &&& statusDecFail st (causeCode c) = st) := by
  cases c <;> (revert st; decide)

/-! ### What an operation keeps -/

/-- Kept by every operation of the command port and by a tick: the configuration and the acceptance state; the
soundness of the control registers (the phase apart) and, given it, the sticky bits (R31, R32, R38). -/
structure PortKeeps (s t : State) : Prop where
  ctrl : t.ctrl = s.ctrl
  pending : t.pending = s.pending
  host : t.host = s.host
  ports : t.ports = s.ports
  params : t.params = s.params
  running : t.running = s.running
  done : t.done = s.done
  control : Control (s.enterPhase .idle) → Control (t.enterPhase .idle)
  sticky : Control (s.enterPhase .idle) → s.status &&& t.status = s.status

theorem PortKeeps.trans {s t u : State} (h : PortKeeps s t) (k : PortKeeps t u) : PortKeeps s u := by
  refine ⟨k.ctrl.trans h.ctrl, k.pending.trans h.pending, k.host.trans h.host, k.ports.trans h.ports,
    k.params.trans h.params, k.running.trans h.running, k.done.trans h.done, fun c => k.control (h.control c), fun c => ?_⟩
  have h1 := h.sticky c
  have h2 := k.sticky (h.control c)
  rw [← h1, BitVec.and_assoc, h2]

/-- A change outside the control registers and the configuration. -/
theorem PortKeeps.ofFields {s t : State} (h1 : t.ctrl = s.ctrl) (h2 : t.pending = s.pending) (h3 : t.host = s.host)
    (h4 : t.ports = s.ports) (h5 : t.params = s.params) (h6 : t.running = s.running) (h7 : t.status = s.status)
    (h8 : t.inCursor = s.inCursor) (h9 : t.total = s.total) : PortKeeps s t := by
  refine ⟨h1, h2, h3, h4, h5, h6, by simp [State.done, h7], fun c => ?_, fun _ => by rw [h7, BitVec.and_self]⟩
  obtain ⟨c1, c2, c3, c4, c5, c6, c7, c8, c9⟩ := c
  simp only [State.enterPhase, State.fatal, State.done, State.decFail, State.decCause] at *
  constructor <;> simp only [State.fatal, State.done, State.decFail, State.decCause, h1, h2, h6, h7, h8, h9] <;> assumption

theorem PortKeeps.refl (s : State) : PortKeeps s s := .ofFields rfl rfl rfl rfl rfl rfl rfl rfl rfl

theorem SameControls.portKeeps {s t : State} (h : SameControls s t) : PortKeeps s t :=
  .ofFields h.ctrl h.pending h.host h.ports h.params h.running h.status h.inCursor h.total

/-- A STATUS bit outside DONE, FATAL, DEC_FAIL and DEC_CAUSE is set. -/
theorem PortKeeps.ofStatus {s t : State} {st : BitVec 8} (ht : t = { s with status := st, rc := t.rc })
    (h : s.status &&& st = s.status ∧ st.getLsbD 0 = s.status.getLsbD 0 ∧ st.getLsbD 1 = s.status.getLsbD 1
      ∧ st.getLsbD 2 = s.status.getLsbD 2 ∧ st.extractLsb' 3 3 = s.status.extractLsb' 3 3) : PortKeeps s t := by
  rw [ht]
  obtain ⟨h0, h1, h2, h3, h4⟩ := h
  refine ⟨rfl, rfl, rfl, rfl, rfl, rfl, h1, fun c => ?_, fun _ => h0⟩
  obtain ⟨c1, c2, c3, c4, c5, c6, c7, c8, c9⟩ := c
  simp only [State.enterPhase, State.fatal, State.done, State.decFail, State.decCause] at *
  constructor <;> simp only [State.fatal, State.done, State.decFail, State.decCause, h1, h2, h3, h4] <;> assumption

theorem PortKeeps.handToEncoder (s : State) (b : Buffer) : PortKeeps s (s.handToEncoder b) := by
  unfold State.handToEncoder
  split
  · exact .ofFields rfl rfl rfl rfl rfl rfl rfl rfl rfl
  · refine PortKeeps.trans (t := s.afterEncode s.outCursor.toNat b) (.ofFields rfl rfl rfl rfl rfl rfl rfl rfl rfl) ?_
    exact .ofStatus (st := statusEncErr s.status) rfl (statusEncErr_bits s.status)

theorem PortKeeps.actOutput {s t : State} (e : actOutput s = .next t) : PortKeeps s t := by
  cases hp : s.proc with
  | none => rw [actOutput_empty s hp] at e; cases e; exact .refl s
  | some h =>
    obtain ⟨b, -, rfl⟩ := (actOutput_eq_next s t h hp).1 e
    exact (PortKeeps.handToEncoder s b).trans (.ofFields rfl rfl rfl rfl rfl rfl rfl rfl rfl)

theorem PortKeeps.decodeFailure (s : State) (id : Ident) (c : DecodeError) (hlt : s.inCursor.toNat < s.total.toNat) :
    PortKeeps s (raiseDecodeFailure (s.afterDecode id) c) := by
  obtain ⟨b1, b2, b3, b4, b5⟩ := statusDecFail_bits s.status c
  refine ⟨rfl, rfl, rfl, rfl, rfl, rfl, b1, fun k => ?_, fun k => ?_⟩
  · obtain ⟨c1, c2, c3, c4, c5, c6, c7, c8, c9⟩ := k
    refine ⟨c1, rfl, b2.trans c3, fun h => ?_, fun _ => ?_, fun _ => rfl, le_refl _, ?_, fun h => b1.trans (c9 h)⟩
    · exact absurd (b3.symm.trans h) (by simp)
    · show 1 ≤ ((statusDecFail s.status (causeCode c)).extractLsb' 3 3).toNat ∧ ((statusDecFail s.status (causeCode c)).extractLsb' 3 3).toNat ≤ 4
      rw [b4]; cases c <;> decide
    · show s.inCursor.toNat ≤ s.pending.length
      exact le_trans c7 c8
  · refine b5 (k.causeNone ?_)
    by_contra hne
    have : s.inCursor = s.total := k.truncated (by simpa using hne)
    rw [this] at hlt; omega

theorem PortKeeps.countInput (s : State) (hlt : s.inCursor.toNat < s.total.toNat) : PortKeeps s s.countInput := by
  refine ⟨rfl, rfl, rfl, rfl, rfl, rfl, rfl, fun k => ?_, fun _ => BitVec.and_self⟩
  obtain ⟨c1, c2, c3, c4, c5, c6, c7, c8, c9⟩ := k
  have hadd : (s.inCursor + 1).toNat = s.inCursor.toNat + 1 := by
    have := s.total.isLt
    rw [BitVec.toNat_add, show (1 : BitVec 32).toNat = 1 from rfl, Nat.mod_eq_of_lt (by omega)]
  refine ⟨c1, rfl, c3, c4, c5, fun h => ?_, ?_, c8, c9⟩
  · have : s.inCursor = s.total := c6 h
    rw [this] at hlt; omega
  · show (s.inCursor + 1).toNat ≤ s.total.toNat
    omega

theorem PortKeeps.actInput {s t : State} (e : actInput s = .next t) : PortKeeps s t := by
  rcases (actInput_eq_next _ _).1 e with ⟨-, rfl⟩ | ⟨hlt, id, -, ⟨c, -, rfl⟩ | ⟨w, h, px, -, h1⟩⟩
  · exact .refl _
  · exact .decodeFailure s id c hlt
  · obtain ⟨-, -, -, rfl⟩ := (acceptGrid_eq_next _ _ _ _ _).1 h1
    refine PortKeeps.trans ?_ (.countInput _ (by simpa using hlt))
    exact .ofFields (by simp) (by simp) (by simp) (by simp) (by simp) (by simp) (by simp) (by simp) (by simp)

theorem PortKeeps.enterPhase (s : State) (p : Phase) : PortKeeps s (s.enterPhase p) :=
  .ofFields rfl rfl rfl rfl rfl rfl rfl rfl rfl

theorem PortKeeps.schedTick {s t : State} (e : schedTick s = .next t) : PortKeeps s t := by
  unfold Sys2Proof.Machine.schedTick at e
  simp only [bindNext_eq_next] at e
  obtain ⟨s1, h1, s2, h2, s3, h3, s4, h4, h5⟩ := e
  cases h5
  refine PortKeeps.trans (t := s.countTick) (.ofFields rfl rfl rfl rfl rfl rfl rfl rfl rfl) ?_
  refine (PortKeeps.enterPhase _ _).trans ((PortKeeps.actOutput h1).trans ?_)
  refine (PortKeeps.enterPhase _ _).trans ((SameControls.actFilter h2).portKeeps.trans ?_)
  refine (PortKeeps.enterPhase _ _).trans ((SameControls.actConvert h3).portKeeps.trans ?_)
  exact (PortKeeps.enterPhase _ _).trans ((PortKeeps.actInput h4).trans (.enterPhase _ _))

theorem PortKeeps.nestedCode (b s : State) : PortKeeps s (nestedCode b s) := by
  rw [nestedCode_rc]; exact .ofFields rfl rfl rfl rfl rfl rfl rfl rfl rfl

theorem PortKeeps.accepted (s : State) : PortKeeps s s.accepted := .ofFields rfl rfl rfl rfl rfl rfl rfl rfl rfl

theorem PortKeeps.cscConvert {s t : State} {r g : Nat} (e : cscConvert r g s = .next t) : PortKeeps s t := by
  obtain ⟨rgb, gray, -, -, -, -, rfl⟩ := (cscConvert_eq_next _ _ _ _).1 e
  split
  · exact .ofStatus (st := statusDimMismatch s.status) rfl (statusDimMismatch_bits s.status)
  · exact (SameControls.putBuffer _ _ _).portKeeps

/-- Every operation but RUN keeps them, from the state the port has accepted. -/
theorem PortKeeps.portBody {i : Instr} {s t : State} (e : portBody i s = .next t) : PortKeeps s t := by
  have conv : ∀ pix : Buffer → Nat → Nat → Byte,
      (withHostBuffer s s.ports.h0 fun _ => withHostBuffer s s.ports.h1 fun _ => convApply pix s.ports.h0 s.ports.h1 s)
        = .next t → PortKeeps s t := by
    intro pix h
    obtain ⟨_, -, -, h⟩ := (withHostBuffer_eq_next _ _ _ _).1 h
    obtain ⟨_, -, -, h⟩ := (withHostBuffer_eq_next _ _ _ _).1 h
    exact (SameControls.convApply h).portKeeps
  cases i with
  | fbCreate ty =>
    simp only [Sys2Proof.Machine.portBody, bindNext_eq_next] at e
    obtain ⟨u, h, e⟩ := e
    cases e
    exact (SameControls.fbCreate h).portKeeps.trans (.ofFields rfl rfl rfl rfl rfl rfl rfl rfl rfl)
  | fbGet =>
    obtain ⟨_, -, -, h⟩ := (withHostBuffer_eq_next _ _ _ _).1 e
    cases h; exact .ofFields rfl rfl rfl rfl rfl rfl rfl rfl rfl
  | fbSet =>
    obtain ⟨_, -, -, h⟩ := (withHostBuffer_eq_next _ _ _ _).1 e
    cases h; exact (SameControls.putBuffer _ _ _).portKeeps
  | fbDestroy =>
    obtain ⟨_, -, -, h⟩ := (withHostBuffer_eq_next _ _ _ _).1 e
    obtain ⟨-, rfl⟩ := (fbDestroy_eq_next _ _ _).1 h
    exact (SameControls.removeBuffer _ _).portKeeps
  | fbMove o =>
    obtain ⟨_, -, h⟩ := (withBuffer_eq_next _ _ _ _).1 e
    split at h
    · exact (SameControls.fbMove h).portKeeps
    · cases h
  | ppSwap => exact (SameControls.ppSwap e).portKeeps
  | cscConvert =>
    obtain ⟨_, -, -, h⟩ := (withHostBuffer_eq_next _ _ _ _).1 e
    obtain ⟨_, -, -, h⟩ := (withHostBuffer_eq_next _ _ _ _).1 h
    exact .cscConvert h
  | convBlur => exact conv _ e
  | convSharpen => exact conv _ e
  | convGaussian => exact conv _ e
  | convSobelX => exact conv _ e
  | convSobelY => exact conv _ e
  | sobelMag => exact conv _ e
  | actOutput => exact .actOutput e
  | actFilter => exact (SameControls.actFilter e).portKeeps
  | actConvert => exact (SameControls.actConvert e).portKeeps
  | actInput => exact .actInput e
  | tick =>
    simp only [Sys2Proof.Machine.portBody, bindNext_eq_next] at e
    obtain ⟨u, h, e⟩ := e
    cases e
    exact (PortKeeps.schedTick h).trans (.nestedCode s u)
  | run => cases e; exact .refl s

/-- One iteration of RUN: a tick, or the end of the run. -/
theorem runIteration_eq_next (s t : State) : runIteration s = .next t ↔
    (s.outCursor.toNat < s.total.toNat ∧ ∃ u, schedTick s = .next u ∧ t = nestedCode s u) ∨
    (¬ s.outCursor.toNat < s.total.toNat ∧ t = s.finishRun) := by
  unfold runIteration
  split
  · rename_i h
    rw [bindNext_eq_next]
    constructor
    · rintro ⟨u, e, k⟩; exact .inl ⟨h, u, e, (Host.Outcome.next.inj k).symm⟩
    · rintro (⟨-, u, e, rfl⟩ | ⟨k, -⟩)
      · exact ⟨u, e, rfl⟩
      · exact absurd h k
  · rename_i h; simp [h, eq_comm]

/-- RUN: when it is accepted, and what it then goes through. -/
theorem exec_run_eq_next (s t : State) : exec .run s = .next t ↔
    s.fatal = false ∧ s.done = false ∧ runIteration (if s.running then s else s.startRun) = .next t := by
  rw [exec_run]
  unfold execRun
  cases s.fatal <;> cases s.done <;> cases s.running <;> simp

/-- The operations other than the actions, TICK and RUN write no cursor, no phase and no tick; of STATUS only
CSC.CONVERT writes a bit. -/
theorem portBody_datapath {i : Instr} {s t : State} (e : portBody i s = .next t)
    (hi : i ∉ [Instr.actOutput, .actFilter, .actConvert, .actInput, .tick, .run]) :
    t.inCursor = s.inCursor ∧ t.outCursor = s.outCursor ∧ t.total = s.total ∧ t.phase = s.phase ∧
      t.tick = s.tick ∧ t.running = s.running ∧
      (t.status = s.status ∨ (i = .cscConvert ∧ t.status = s.status ||| 0x40#8)) := by
  have same : ∀ {t : State}, SameControls s t → t.inCursor = s.inCursor ∧ t.outCursor = s.outCursor ∧ t.total = s.total ∧ t.phase = s.phase ∧
      t.tick = s.tick ∧ t.running = s.running ∧ (t.status = s.status ∨ (i = .cscConvert ∧ t.status = s.status ||| 0x40#8)) :=
    fun c => ⟨c.inCursor, c.outCursor, c.total, c.phase, c.tick, c.running, .inl c.status⟩
  have conv : ∀ pix : Buffer → Nat → Nat → Byte,
      (withHostBuffer s s.ports.h0 fun _ => withHostBuffer s s.ports.h1 fun _ => convApply pix s.ports.h0 s.ports.h1 s)
        = .next t → SameControls s t := by
    intro pix h
    obtain ⟨_, -, -, h⟩ := (withHostBuffer_eq_next _ _ _ _).1 h
    obtain ⟨_, -, -, h⟩ := (withHostBuffer_eq_next _ _ _ _).1 h
    exact SameControls.convApply h
  cases i with
  | fbCreate ty =>
    simp only [Sys2Proof.Machine.portBody, bindNext_eq_next] at e
    obtain ⟨u, h, e⟩ := e
    cases e
    have c := SameControls.fbCreate h
    exact ⟨c.inCursor, c.outCursor, c.total, c.phase, c.tick, c.running, .inl c.status⟩
  | fbGet =>
    obtain ⟨_, -, -, h⟩ := (withHostBuffer_eq_next _ _ _ _).1 e
    cases h; exact ⟨rfl, rfl, rfl, rfl, rfl, rfl, .inl rfl⟩
  | fbSet =>
    obtain ⟨_, -, -, h⟩ := (withHostBuffer_eq_next _ _ _ _).1 e
    cases h; exact same (SameControls.putBuffer _ _ _)
  | fbDestroy =>
    obtain ⟨_, -, -, h⟩ := (withHostBuffer_eq_next _ _ _ _).1 e
    obtain ⟨-, rfl⟩ := (fbDestroy_eq_next _ _ _).1 h
    exact same (SameControls.removeBuffer _ _)
  | fbMove o =>
    obtain ⟨_, -, h⟩ := (withBuffer_eq_next _ _ _ _).1 e
    split at h
    · exact same (SameControls.fbMove h)
    · cases h
  | ppSwap => exact same (SameControls.ppSwap e)
  | cscConvert =>
    obtain ⟨_, -, -, h⟩ := (withHostBuffer_eq_next _ _ _ _).1 e
    obtain ⟨_, -, -, h⟩ := (withHostBuffer_eq_next _ _ _ _).1 h
    obtain ⟨rgb, gray, -, -, -, -, rfl⟩ := (cscConvert_eq_next _ _ _ _).1 h
    split
    · exact ⟨rfl, rfl, rfl, rfl, rfl, rfl, .inr ⟨rfl, rfl⟩⟩
    · exact same (SameControls.putBuffer _ _ _)
  | convBlur => exact same (conv _ e)
  | convSharpen => exact same (conv _ e)
  | convGaussian => exact same (conv _ e)
  | convSobelX => exact same (conv _ e)
  | convSobelY => exact same (conv _ e)
  | sobelMag => exact same (conv _ e)
  | actOutput => simp at hi
  | actFilter => simp at hi
  | actConvert => simp at hi
  | actInput => simp at hi
  | tick => simp at hi
  | run => simp at hi

/-- A tick ends with PHASE IDLE (R206). -/
theorem schedTick_phase {s t : State} (e : schedTick s = .next t) : t.phase = .idle := by
  unfold schedTick at e
  simp only [bindNext_eq_next] at e
  obtain ⟨s1, h1, s2, h2, s3, h3, s4, h4, h5⟩ := e
  cases h5; rfl

/-- ACT.OUTPUT writes no phase. -/
theorem actOutput_phase {s t : State} (e : actOutput s = .next t) : t.phase = s.phase := by
  cases hp : s.proc with
  | none => rw [actOutput_empty s hp] at e; cases e; rfl
  | some h =>
    obtain ⟨b, -, rfl⟩ := (actOutput_eq_next s t h hp).1 e
    simp

/-- ACT.INPUT writes no phase. -/
theorem actInput_phase {s t : State} (e : actInput s = .next t) : t.phase = s.phase := by
  rcases (actInput_eq_next _ _).1 e with ⟨-, rfl⟩ | ⟨-, id, -, ⟨c, -, rfl⟩ | ⟨w, h, px, -, h1⟩⟩
  · rfl
  · rfl
  · obtain ⟨-, -, -, rfl⟩ := (acceptGrid_eq_next _ _ _ _ _).1 h1; simp

/-- An operation from PHASE IDLE ends with PHASE IDLE (R36). -/
theorem portBody_phase {i : Instr} {s t : State} (e : portBody i s = .next t) (h : s.phase = .idle) : t.phase = .idle := by
  by_cases hi : i ∈ [Instr.actOutput, .actFilter, .actConvert, .actInput, .tick, .run]
  · simp only [List.mem_cons, List.not_mem_nil, or_false] at hi
    rcases hi with rfl|rfl|rfl|rfl|rfl|rfl
    · exact (actOutput_phase e).trans h
    · exact (SameControls.actFilter e).phase.trans h
    · exact (SameControls.actConvert e).phase.trans h
    · exact (actInput_phase e).trans h
    · simp only [portBody, bindNext_eq_next] at e
      obtain ⟨u, e1, e2⟩ := e
      cases e2; rw [nestedCode_rc]; have := schedTick_phase e1; exact this
    · cases e; exact h
  · exact (portBody_datapath e hi).2.2.2.1.trans h

/-- RUN answers a tick of the active run, or its end (R207). -/
theorem exec_run_cases {s t : State} (e : exec .run s = .next t) :
    s.fatal = false ∧ s.done = false ∧ ∃ u, u = { s with rc := u.rc, running := true } ∧
      ((∃ v, schedTick u = .next v ∧ t = nestedCode u v) ∨ t = u.finishRun) := by
  obtain ⟨hf, hd, e⟩ := (exec_run_eq_next s t).1 e
  refine ⟨hf, hd, if s.running then s else s.startRun, ?_, ?_⟩
  · split
    · rename_i h; rw [← h]
    · rfl
  · rcases (runIteration_eq_next _ t).1 e with ⟨-, v, ev, rfl⟩ | ⟨-, rfl⟩
    · exact .inl ⟨v, ev, rfl⟩
    · exact .inr rfl

/-- Entering the phase the core is in. -/
theorem enterPhase_self (s : State) (h : s.phase = .idle) : s.enterPhase .idle = s := by
  cases s; simp only at h; subst h; rfl

/-- Every operation but RUN keeps ownership, from the state the port has accepted (R128). -/
theorem portBody_owned {i : Instr} {s t : State} (e : portBody i s = .next t) (o : Owned s) : Owned t := by
  have conv : ∀ pix : Buffer → Nat → Nat → Byte,
      (withHostBuffer s s.ports.h0 fun _ => withHostBuffer s s.ports.h1 fun _ => convApply pix s.ports.h0 s.ports.h1 s)
        = .next t → Owned t := by
    intro pix h
    obtain ⟨_, -, -, h⟩ := (withHostBuffer_eq_next _ _ _ _).1 h
    obtain ⟨_, -, -, h⟩ := (withHostBuffer_eq_next _ _ _ _).1 h
    exact o.convApply h
  cases i with
  | fbCreate ty =>
    simp only [Sys2Proof.Machine.portBody, bindNext_eq_next] at e
    obtain ⟨u, h, e⟩ := e
    cases e
    exact (o.fbCreate (by simp) (by simp [acceptsType]) h).congr rfl rfl (fun o => by cases o <;> rfl)
  | fbGet =>
    obtain ⟨_, -, -, h⟩ := (withHostBuffer_eq_next _ _ _ _).1 e
    cases h; exact o.congr rfl rfl (fun o => by cases o <;> rfl)
  | fbSet =>
    obtain ⟨b, hb, -, h⟩ := (withHostBuffer_eq_next _ _ _ _).1 e
    cases h; exact o.putSame hb (Buffer.setPort_owner _ _ _ _) (Buffer.setPort_elem _ _ _ _) (Buffer.setPort_wf _ _ _ _ (o.recordWf hb))
  | fbDestroy =>
    obtain ⟨b, hb, hh, h⟩ := (withHostBuffer_eq_next _ _ _ _).1 e
    obtain ⟨-, rfl⟩ := (fbDestroy_eq_next _ _ _).1 h
    exact o.dropHost hb hh
  | fbMove o' =>
    obtain ⟨_, -, h⟩ := (withBuffer_eq_next _ _ _ _).1 e
    split at h
    · exact o.fbMove h
    · cases h
  | ppSwap => exact o.ppSwap e
  | cscConvert =>
    obtain ⟨_, -, -, h⟩ := (withHostBuffer_eq_next _ _ _ _).1 e
    obtain ⟨_, -, -, h⟩ := (withHostBuffer_eq_next _ _ _ _).1 h
    exact o.cscConvert h
  | convBlur => exact conv _ e
  | convSharpen => exact conv _ e
  | convGaussian => exact conv _ e
  | convSobelX => exact conv _ e
  | convSobelY => exact conv _ e
  | sobelMag => exact conv _ e
  | actOutput => exact o.actOutput e
  | actFilter => exact o.actFilter e
  | actConvert => exact o.actConvert e
  | actInput => exact o.actInput e
  | tick =>
    simp only [Sys2Proof.Machine.portBody, bindNext_eq_next] at e
    obtain ⟨u, h, e⟩ := e
    cases e
    rw [nestedCode_rc]
    exact (o.schedTick h).congr rfl rfl (fun o => by cases o <;> rfl)
  | run => cases e; exact o

end Sys2Proof.Machine
end

