-- ==== Sys2Proof/Laws/Abort.lean ====
section
/-!
SUPPORT. The fatal abort (R243, R244): what the failing request of an action leaves, and how a tick reaches it when the
allocator's listed answers run out of yes.
-/
namespace Sys2Proof.Machine

theorem statusFatal_bits (st : BitVec 8) : (statusFatal st).getLsbD 1 = true ∧
    (statusFatal st).getLsbD 0 = st.getLsbD 0 := by
  revert st; decide

/-- A request answered no, made in a state that has only made more calls than `s`. -/
theorem raise_aborted {s u : State} {t : ElemType} {w h : Nat} {made : List OracleCall} (hd : u.done = s.done)
    (hc : u.env.calls = s.env.calls ++ made) (ha : u.allocAnswer t w h = false) :
    AbortedFrom s (raiseAllocation (u.afterAlloc t w h)) :=
  ⟨_, made, t, w, h, rfl, (statusFatal_bits _).1, ((statusFatal_bits _).2).trans hd, rfl, by
    show u.env.calls ++ [.allocOk t w h (u.allocAnswer t w h)] = _
    rw [ha, hc]⟩

/-- An abort reached through an earlier next state. -/
theorem AbortedFrom.trans {s u : State} {r : Result} {made : List OracleCall} (h : AbortedFrom u r) (hd : u.done = s.done)
    (hc : u.env.calls = s.env.calls ++ made) : AbortedFrom s r := by
  obtain ⟨a, m, t, w, k, h1, h2, h3, h4, h5⟩ := h
  exact ⟨a, made ++ m, t, w, k, h1, h2, h3.trans hd, h4, by rw [h5, hc]; simp⟩

theorem AbortedFrom.bind {s : State} {r : Result} (h : AbortedFrom s r) (k : State → Result) :
    AbortedFrom s (bindNext r k) := by
  obtain ⟨a, m, t, w, x, rfl, rest⟩ := h
  exact ⟨a, m, t, w, x, rfl, rest⟩

/-- ACT.FILTER on a frame whose scratch the allocator refuses (R203, R243). -/
theorem actFilter_aborted {s : State} (hs : Owned s) {g : Nat} {b : Buffer} (hg : s.gray = some g)
    (hb : s.mem.find g = some b) (h1 : s.ppSrc = none) (h2 : s.ppDst = none)
    (ha : s.allocAnswer .gray b.width.toNat b.height.toNat = false) : AbortedFrom s (actFilter s) := by
  obtain ⟨b', hb', -, ht⟩ := hs.named .gray g hg
  cases hb.symm.trans hb'
  have hgray : b.elem = .gray := by simpa [acceptsType] using ht
  have hwf := (Buffer.wf_iff b).1 (hs.recordWf hb)
  have e1 : fbMove g .ppSrc s = .next (s.handTo g b .ppSrc) :=
    (fbMove_eq_next _ _ _ _).2 ⟨b, hb, by simp, by simp [acceptsType, hgray], h1, rfl⟩
  have ha' : (s.handTo g b .ppSrc).allocAnswer .gray b.width.toNat b.height.toNat = false := by
    simpa [State.allocAnswer] using ha
  have e2 : fbCreate .gray b.width b.height .ppDst (s.handTo g b .ppSrc)
      = raiseAllocation ((s.handTo g b .ppSrc).afterAlloc .gray b.width.toNat b.height.toNat) := by
    unfold fbCreate
    rw [if_neg (by tauto), if_neg, if_neg (by simp [ha'])]
    rw [State.holder_handTo]; simp [State.holder, h2]
  have e : actFilter s = raiseAllocation ((s.handTo g b .ppSrc).afterAlloc .gray b.width.toNat b.height.toNat) := by
    simp only [actFilter, hg]
    rw [withBuffer_live s _ _ b hb, e1, bindNext_next, e2]; rfl
  rw [e]
  exact raise_aborted (made := []) (by simp [State.done]) (by simp) ha'

/-- ACT.CONVERT on a frame whose gray buffer the allocator refuses (R204, R243). -/
theorem actConvert_aborted {s : State} (hs : Owned s) {r : Nat} {b : Buffer} (hr : s.raw = some r)
    (hb : s.mem.find r = some b) (h1 : s.cscOut = none)
    (ha : s.allocAnswer .gray b.width.toNat b.height.toNat = false) : AbortedFrom s (actConvert s) := by
  have hwf := (Buffer.wf_iff b).1 (hs.recordWf hb)
  have e2 : fbCreate .gray b.width b.height .cscOut s
      = raiseAllocation (s.afterAlloc .gray b.width.toNat b.height.toNat) := by
    unfold fbCreate
    rw [if_neg (by tauto), if_neg (by simp [State.holder, h1]), if_neg (by simp [ha])]
  have e : actConvert s = raiseAllocation (s.afterAlloc .gray b.width.toNat b.height.toNat) := by
    simp only [actConvert, hr]
    rw [withBuffer_live s _ _ b hb, e2]; rfl
  rw [e]
  exact raise_aborted (made := []) rfl (by simp) ha

/-- ACT.INPUT on a grid whose buffer the allocator refuses (R205, R243). -/
theorem actInput_aborted {s : State} {id : Ident} {w h : Nat} {px : List Pixel} (hlt : s.inCursor.toNat < s.total.toNat)
    (hid : s.pending[s.inCursor.toNat]? = some id) (hraw : s.raw = none) (hd : s.decodeAnswer id = .grid w h px)
    (hg : gridOk w h px = true) (ha : (s.afterDecode id).allocAnswer .rgb w h = false) :
    AbortedFrom s (actInput s) := by
  have e : actInput s = raiseAllocation ((s.afterDecode id).afterAlloc .rgb w h) := by
    unfold actInput
    simp [hlt, hid, hd, acceptGrid, hg, hraw, ha]
  rw [e]
  exact raise_aborted rfl rfl ha

/-- What a completed action of a starving tick leaves: answers, holders and calls. -/
structure Onward (s t : State) (o : OwnerTag) (target : OwnerTag) (answers : List Bool) : Prop where
  owned : Owned t
  done : t.done = s.done
  holders : ∀ p, p ≠ target → t.holder p = if p = o then none else s.holder p
  allocs : t.env.allocs = answers
  decodes : t.env.decodes = s.env.decodes
  calls : ∃ made, t.env.calls = s.env.calls ++ made
  inCursor : t.inCursor = s.inCursor
  total : t.total = s.total
  pending : t.pending = s.pending

theorem replicate_true (k : Nat) (rest : List Bool) (hk : 0 < k) :
    List.replicate k true ++ false :: rest = true :: (List.replicate (k - 1) true ++ false :: rest) := by
  obtain ⟨j, rfl⟩ : ∃ j, k = j + 1 := ⟨k - 1, by omega⟩
  rfl

/-- ACT.FILTER with `k` answers yes and then no: it aborts, or goes on with the answers it leaves. -/
theorem actFilter_starving {s : State} (hs : Owned s) (h1 : s.ppSrc = none) (h2 : s.ppDst = none) (h3 : s.proc = none)
    {k : Nat} {rest : List Bool} (ha : s.env.allocs = List.replicate k true ++ false :: rest) :
    (k < occupied s.gray ∧ AbortedFrom s (actFilter s)) ∨ (occupied s.gray ≤ k ∧ ∃ t, actFilter s = .next t ∧
      Onward s t .gray .proc (List.replicate (k - occupied s.gray) true ++ false :: rest)) := by
  rcases hg : s.gray with _ | g
  · exact .inr ⟨Nat.zero_le _, s, actFilter_empty s hg, hs, rfl, fun p _ => by split <;> simp_all [State.holder],
      ha, rfl, ⟨[], by simp⟩, rfl, rfl, rfl⟩
  · obtain ⟨b, hb, ho, -⟩ := hs.named .gray g hg
    rcases Nat.eq_zero_or_pos k with rfl | hk
    · exact .inl ⟨Nat.one_pos, actFilter_aborted hs hg hb h1 h2 (by simp [State.allocAnswer, ha])⟩
    · rw [replicate_true k rest hk] at ha
      obtain ⟨t, e, ot, c, -, hold, -, -, -, al, de, ca⟩ := actFilter_tick s hs h1 h2 h3 _ ha
      have hh : s.heldBuffer .gray = some b := by simp [State.heldBuffer, State.holder, hg, hb]
      rw [hh] at al ca
      exact .inr ⟨hk, t, e, ot, by simp [State.done, c.status], hold, al, de, ⟨_, ca⟩, c.inCursor, c.total, c.pending⟩

/-- ACT.CONVERT with `k` answers yes and then no: it aborts, or goes on with the answers it leaves. -/
theorem actConvert_starving {s : State} (hs : Owned s) (h1 : s.cscOut = none) (h2 : s.gray = none)
    {k : Nat} {rest : List Bool} (ha : s.env.allocs = List.replicate k true ++ false :: rest) :
    (k < occupied s.raw ∧ AbortedFrom s (actConvert s)) ∨ (occupied s.raw ≤ k ∧ ∃ t, actConvert s = .next t ∧
      Onward s t .raw .gray (List.replicate (k - occupied s.raw) true ++ false :: rest)) := by
  rcases hr : s.raw with _ | r
  · exact .inr ⟨Nat.zero_le _, s, actConvert_empty s hr, hs, rfl, fun p _ => by split <;> simp_all [State.holder],
      ha, rfl, ⟨[], by simp⟩, rfl, rfl, rfl⟩
  · obtain ⟨b, hb, ho, -⟩ := hs.named .raw r hr
    rcases Nat.eq_zero_or_pos k with rfl | hk
    · exact .inl ⟨Nat.one_pos, actConvert_aborted hs hr hb h1 (by simp [State.allocAnswer, ha])⟩
    · rw [replicate_true k rest hk] at ha
      obtain ⟨t, e, ot, c, -, hold, -, -, -, al, de, ca⟩ := actConvert_tick s hs h1 h2 _ ha
      have hh : s.heldBuffer .raw = some b := by simp [State.heldBuffer, State.holder, hr, hb]
      rw [hh] at al ca
      exact .inr ⟨hk, t, e, ot, by simp [State.done, c.status], hold, al, de, ⟨_, ca⟩, c.inCursor, c.total, c.pending⟩

theorem statusAfterOutput_done (s : State) : s.statusAfterOutput.getLsbD 0 = s.status.getLsbD 0 := by
  unfold State.statusAfterOutput
  split
  · rfl
  · split
    · rfl
    · exact (statusEncErr_bits _).2.1

/-- A starving tick ends in the fatal abort (R206, R244). -/
theorem schedTick_aborted {s : State} (h : TickStarved s) : AbortedFrom s (schedTick s) := by
  obtain ⟨k, rest, ha, hk⟩ := h.answers
  have own0 : Owned (s.countTick.enterPhase .output) := h.owned.congr rfl rfl (fun o => by simp)
  obtain ⟨s1, e1, own1, fr1, -, hold1, -, -, in1, tot1, -, -, st1, al1, de1, ca1⟩ := actOutput_next _ own0
  have holdA : ∀ o, (s1.enterPhase .filter).holder o = if o = .proc then none else s.holder o := by
    intro o; rw [State.holder_enterPhase, hold1]; simp
  have grayA : (s1.enterPhase .filter).gray = s.gray := holdA .gray
  have done1 : s1.done = s.done := by
    show s1.status.getLsbD 0 = s.status.getLsbD 0
    rw [st1]; exact statusAfterOutput_done (s.countTick.enterPhase .output)
  have to1 : ∀ {r}, AbortedFrom (s1.enterPhase .filter) r → AbortedFrom s r := fun q => q.trans done1 ca1
  show AbortedFrom s (bindNext (actOutput (s.countTick.enterPhase .output)) _)
  rw [e1, bindNext_next]
  refine to1 ?_
  rcases actFilter_starving (s := s1.enterPhase .filter) (own1.congr rfl rfl fun o => by simp) ((holdA .ppSrc).trans h.srcEmpty)
      ((holdA .ppDst).trans h.dstEmpty) (holdA .proc) (al1.trans ha) with ⟨-, q⟩ | ⟨g1, s2, e2, q2⟩
  · exact q.bind _
  rw [grayA] at g1 q2
  rw [e2, bindNext_next]
  obtain ⟨made2, ca2⟩ := q2.calls
  refine AbortedFrom.trans (u := s2.enterPhase .convert) ?_ q2.done ca2
  have holdB : ∀ o, o ≠ .proc → (s2.enterPhase .convert).holder o = if o = .gray then none else s.holder o := by
    intro o ho; rw [State.holder_enterPhase, q2.holders o ho, holdA, if_neg ho]
  have rawB : (s2.enterPhase .convert).raw = s.raw := holdB .raw (by simp)
  rcases actConvert_starving (s := s2.enterPhase .convert) (q2.owned.congr rfl rfl fun o => by simp)
      ((holdB .cscOut (by simp)).trans h.cscEmpty) (holdB .gray (by simp)) q2.allocs with ⟨-, q⟩ | ⟨g2, s3, e3, q3⟩
  · exact q.bind _
  rw [rawB] at g2 q3
  rw [e3, bindNext_next]
  obtain ⟨made3, ca3⟩ := q3.calls
  refine AbortedFrom.trans (u := s3.enterPhase .input) ?_ q3.done ca3
  obtain ⟨hk, hlt, id, w, x, px, more, hid, hd, hg⟩ := hk.resolve_left (by omega)
  have hi : (s3.enterPhase .input).inCursor = s.inCursor := q3.inCursor.trans (q2.inCursor.trans in1)
  have ht : (s3.enterPhase .input).total = s.total := q3.total.trans (q2.total.trans tot1)
  have hp : (s3.enterPhase .input).pending = s.pending := q3.pending.trans (q2.pending.trans fr1.pending)
  have hdec : (s3.enterPhase .input).env.decodes = s.env.decodes := q3.decodes.trans (q2.decodes.trans de1)
  have hall : s3.env.allocs = false :: rest := by
    have := q3.allocs
    rwa [show k - occupied s.gray - occupied s.raw = 0 by omega] at this
  refine (actInput_aborted (s := s3.enterPhase .input) (id := id) (w := w) (h := x) (px := px) (by rw [hi, ht]; exact hlt) (by rw [hp, hi]; exact hid)
    ?_ ?_ hg ?_).bind _
  · show s3.raw = none
    have := q3.holders .raw (by simp)
    simpa [State.holder] using this
  · unfold State.decodeAnswer; rw [hdec, hd]
  · have : ((s3.enterPhase .input).afterDecode id).env.allocs = false :: rest := hall
    unfold State.allocAnswer; rw [this]

/-- TickStarved speaks of no port, no RC and no run bit. -/
theorem TickStarved.congrRc {s t : State} (h : TickStarved s) (ht : t = { s with rc := t.rc, running := t.running }) :
    TickStarved t := by
  rw [ht]
  exact ⟨h.owned.congr rfl rfl fun o => by cases o <;> rfl, h.srcEmpty, h.dstEmpty, h.cscEmpty, h.answers⟩

end Sys2Proof.Machine
end

