-- ==== Sys2Proof/Laws/Commands.lean ====
section
/-!
SUPPORT. What the datapath commands answer on good operands, and the arithmetic of their pixels.
-/
namespace Sys2Proof.Machine

/-- CSC.CONVERT on good operands: one record update (R140, R141). -/
theorem csc_exec (s : State) (rgb gray : Buffer) (h : CscOperands s rgb gray) :
    exec .cscConvert s = .next (if dimsDiffer rgb gray then raiseDimensionMismatch s.accepted
            else s.accepted.putBuffer s.ports.h1 (convertBuffer s.params s.modeFloat rgb gray)) := by
  rw [exec_open _ (by simp) _ h.idle h.alive]
  simp only [portBody, State.accepted_ports]
  rw [withHostBuffer_live s.accepted s.ports.h0 _ rgb h.source h.hostSource, withHostBuffer_live s.accepted s.ports.h1 _ gray h.dest h.hostDest]
  exact (cscConvert_eq_next _ _ _ _).2 ⟨rgb, gray, h.source, h.dest, h.rgbSource, h.grayDest, rfl⟩

/-- luma_fixed as natural-number arithmetic (R142). -/
theorem lumaFixed_eq (p : Pixel) : lumaFixed p = BitVec.ofNat 8 ((77 * p.r.toNat + 150 * p.g.toNat + 29 * p.b.toNat) / 256) := by
  unfold lumaFixed asr byteInt
  congr 1

/-- A convolution on good operands: one record update (R169). -/
theorem conv_exec (s : State) (src dst : Buffer) (h : ConvOperands s src dst) (i : Instr) (pix : Buffer → Nat → Nat → Byte)
    (hi : i ≠ .run)
    (hp : portBody i s.accepted = withHostBuffer s.accepted s.ports.h0 fun _ => withHostBuffer s.accepted s.ports.h1 fun _ =>
      convApply pix s.ports.h0 s.ports.h1 s.accepted) :
    exec i s = .next (s.accepted.putBuffer s.ports.h1 (filterBuffer pix src dst)) := by
  rw [exec_open _ hi _ h.idle h.alive, hp]
  rw [withHostBuffer_live s.accepted s.ports.h0 _ src h.source h.hostSource, withHostBuffer_live s.accepted s.ports.h1 _ dst h.dest h.hostDest]
  exact (convApply_eq_next _ _ _ _ _).2 ⟨src, dst, h.source, h.dest, h.graySource, h.grayDest, h.distinct, h.sameWidth, h.sameHeight, rfl⟩

/-- Another pixel function that agrees on the interior. -/
theorem InteriorWritten.congr {s t : State} {dst : Buffer} {p q : Nat → Nat → Byte} (h : InteriorWritten s t dst p)
    (e : ∀ x y, 1 ≤ x → x + 2 ≤ dst.width.toNat → 1 ≤ y → y + 2 ≤ dst.height.toNat → p x y = q x y) : InteriorWritten s t dst q :=
  ⟨h.frame, h.others, h.record, fun x y h1 h2 h3 h4 => (h.interior x y h1 h2 h3 h4).trans (e x y h1 h2 h3 h4), h.border⟩

/-- The nine-term sum, by the bytes of the store (R170, R171). -/
theorem weightedSum_sum9 (s : State) (src : Buffer) (h : Nat) (hs : s.mem.find h = some src) (x y : Nat) (w : Grid3 (BitVec 16))
    (h1 : 1 ≤ x) (h2 : x + 2 ≤ src.width.toNat) (h3 : 1 ≤ y) (h4 : y + 2 ≤ src.height.toNat) :
    weightedSum w (neighbours src x y) = s.sum9 h src.width.toNat x y w := by
  have key : ∀ dx dy : Nat, dx ≤ 2 → dy ≤ 2 → ∀ X Y : Int, X = x + dx - 1 → Y = y + dy - 1 → src.getGray X Y = s.byteAt h ((y + dy - 1) * src.width.toNat + (x + dx - 1)) := by
    intro dx dy hx hy X Y eX eY
    have hby : ∀ a, s.byteAt h a = Store.read src.data a := by intro a; simp [State.byteAt, hs]
    rw [hby, Buffer.read_element src (x + dx - 1) (y + dy - 1) (by omega) (by omega)]
    congr 1 <;> omega
  unfold State.sum9 weightedSum neighbours
  simp only [Grid3.toList, List.zip_cons_cons, List.zip_nil_left, List.foldl_cons, List.foldl_nil, byteInt]
  rw [key 0 0 (by omega) (by omega) (x-1) (y-1) (by omega) (by omega),
    key 1 0 (by omega) (by omega) x (y-1) (by omega) (by omega),
    key 2 0 (by omega) (by omega) (x+1) (y-1) (by omega) (by omega),
    key 0 1 (by omega) (by omega) (x-1) y (by omega) (by omega),
    key 1 1 (by omega) (by omega) x y (by omega) (by omega),
    key 2 1 (by omega) (by omega) (x+1) y (by omega) (by omega),
    key 0 2 (by omega) (by omega) (x-1) (y+1) (by omega) (by omega),
    key 1 2 (by omega) (by omega) x (y+1) (by omega) (by omega),
    key 2 2 (by omega) (by omega) (x+1) (y+1) (by omega) (by omega)]
  ring

/-- The clamp, by its integer value (R9). -/
theorem clampU8_eq (v : Int) : clampU8 v = BitVec.ofInt 8 (clampInt v) := by
  unfold clampU8 clampInt
  split
  · rfl
  · split
    · rfl
    · apply BitVec.eq_of_toNat_eq
      simp
      omega

/-- Shift, bias, clamp in one expression; a shift of 0 changes nothing (R171). -/
theorem finishFixed_eq (k : Kernel) (acc : Int) : finishFixed k acc = BitVec.ofInt 8 (clampInt (acc / 2 ^ k.shift.toNat + k.bias.toInt)) := by
  unfold finishFixed
  rw [clampU8_eq]
  split
  · rfl
  · have : k.shift.toNat = 0 := by omega
    rw [this]; simp

/-- Adding products in 32-bit two's complement is adding them in ℤ, modulo 2^32. -/
theorem acc_step (a : Int) (l : List (BitVec 16 × Byte)) :
   l.foldl (fun acc wp => acc + wp.1.signExtend 32 * wp.2.setWidth 32) (BitVec.ofInt 32 a) = BitVec.ofInt 32 (l.foldl (fun acc wp => acc + wp.1.toInt * byteInt wp.2) a) := by
  induction l generalizing a with
  | nil => rfl
  | cons c r ih =>
    simp only [List.foldl_cons]
    rw [← ih]
    congr 1
    rw [BitVec.ofInt_add, BitVec.ofInt_mul]
    have h2 : c.2.setWidth 32 = BitVec.ofInt 32 (byteInt c.2) := by
      apply BitVec.eq_of_toNat_eq; simp [byteInt]
    rw [h2]; rfl

/-- The bound on the nine-term sum (R180). -/
theorem bound_sum (w : Grid3 (BitVec 16)) (p : Grid3 Byte) : (weightedSum w p).natAbs ≤ 75202560 := by
  have one : ∀ (c : BitVec 16) (q : Byte), -(32768*255) ≤ c.toInt * byteInt q ∧ c.toInt * byteInt q ≤ 32768*255 := by
    intro c q
    have h1 := BitVec.toInt_lt (x := c)
    have h2 := BitVec.le_toInt (x := c)
    have h3 : 0 ≤ byteInt q ∧ byteInt q ≤ 255 := by unfold byteInt; omega
    norm_num at h1 h2
    constructor <;> nlinarith [h3.1, h3.2]
  unfold weightedSum Grid3.toList
  simp only [List.zip_cons_cons, List.zip_nil_left, List.foldl_cons, List.foldl_nil]
  have a0 := one w.p00 p.p00
  have a1 := one w.p01 p.p01
  have a2 := one w.p02 p.p02
  have a3 := one w.p10 p.p10
  have a4 := one w.p11 p.p11
  have a5 := one w.p12 p.p12
  have a6 := one w.p20 p.p20
  have a7 := one w.p21 p.p21
  have a8 := one w.p22 p.p22
  omega

/-- A state with the same controls differs in the frame-buffer fields only. -/
theorem State.eq_of_controls {s t : State} (c : SameControls s t) :
    t = { s with raw := t.raw, gray := t.gray, proc := t.proc, ppSrc := t.ppSrc, ppDst := t.ppDst, cscOut := t.cscOut,
                 mem := t.mem, nextHandle := t.nextHandle, env := t.env } := by
  obtain ⟨h1,h2,h3,h4,h5,h6,h7,h8,h9,h10,h11,h12,h13,h14,h15,h16⟩ := c
  cases s; cases t
  simp only at *
  subst h1 h2 h3 h4 h5 h6 h7 h8 h9 h10 h11 h12 h13 h14 h15 h16
  rfl

/-- The bytes of a pixel list. -/
theorem flat_getD (px : List Pixel) (i c : Nat) (hi : i < px.length) (hc : c < 3) :
    (pixelBytes px).getD (3 * i + c) 0#8 = [px[i].r, px[i].g, px[i].b].getD c 0#8 := by
  induction px generalizing i with
  | nil => simp at hi
  | cons p r ih =>
    unfold pixelBytes at *
    rw [List.flatMap_cons]
    rcases i with _ | i
    · rw [List.getD_append _ _ _ _ (by simp; omega)]; simp
    · rw [List.getD_append_right _ _ _ _ (by simp; omega)]
      have := ih i (by simpa using hi)
      simpa [show 3 * (i+1) + c - 3 = 3 * i + c by omega] using this

end Sys2Proof.Machine
end

