-- ==== Sys2Proof/Laws/Dead.lean ====
section
/-!
SUPPORT. A handle below NEXT_HANDLE that is dead stays dead (R25): operation by operation, and closed under sequence.
-/
namespace Sys2Proof.Machine

/-- Handle `h` has been given out and is dead (R25, R49). -/
def Dead (h : Nat) (s : State) : Prop := h < s.nextHandle ∧ s.mem.find h = none

/-- `f` brings no dead handle back to life. -/
def KeepsDead (f : State → Result) : Prop := ∀ h s t, Dead h s → f s = .next t → Dead h t

theorem Memory.find_remove_dead (m : Memory) (a h : Nat) (hm : m.find h = none) : (m.remove a).find h = none := by
  induction m with
  | nil => rfl
  | cons e r ih =>
    by_cases he : e.1 = h
    · simp [Memory.find, he] at hm
    · simp only [Memory.find, he, if_false] at hm
      unfold Memory.remove
      split
      · exact hm
      · simpa only [Memory.find, he, if_false] using ih hm

theorem Dead.congr {h : Nat} {s t : State} (d : Dead h s) (hm : t.mem = s.mem) (hn : t.nextHandle = s.nextHandle) :
    Dead h t := ⟨hn ▸ d.1, hm ▸ d.2⟩

theorem Dead.ne_live {h k : Nat} {s : State} (d : Dead h s) (hk : ∃ b, s.mem.find k = some b) : h ≠ k := by
  rintro rfl
  obtain ⟨b, hb⟩ := hk
  exact absurd (d.2.symm.trans hb) (by simp)

theorem Dead.put {h k : Nat} {s : State} (d : Dead h s) (hk : h ≠ k) (b : Buffer) : Dead h (s.putBuffer k b) :=
  ⟨d.1, by simpa [State.putBuffer, Memory.find_put, hk] using d.2⟩

theorem Dead.remove {h : Nat} {s : State} (d : Dead h s) (k : Nat) : Dead h (s.removeBuffer k) :=
  ⟨d.1, Memory.find_remove_dead _ _ _ d.2⟩

theorem Dead.setHolder {h : Nat} {s : State} (d : Dead h s) (o : OwnerTag) (v : Option Nat) : Dead h (s.setHolder o v) :=
  d.congr (by simp) (by simp)

theorem Dead.install {h : Nat} {s : State} (d : Dead h s) (b : Buffer) : Dead h (s.install b) := by
  have k := (d.put (Nat.ne_of_lt d.1) b).setHolder b.owner (some s.nextHandle)
  exact ⟨Nat.lt_succ_of_lt d.1, k.2⟩

theorem Dead.handTo {h k : Nat} {s : State} (d : Dead h s) (hk : h ≠ k) (b : Buffer) (o : OwnerTag) :
    Dead h (s.handTo k b o) := ((d.setHolder b.owner none).put hk _).setHolder o (some k)

/-! ### Closure -/

theorem KeepsDead.bind {f g : State → Result} (hf : KeepsDead f) (hg : KeepsDead g) :
    KeepsDead (fun s => bindNext (f s) g) := fun h s t d e => by
  obtain ⟨u, h1, h2⟩ := (bindNext_eq_next _ _ _).1 e
  exact hg h u t (hf h s u d h1) h2

theorem KeepsDead.pure {f : State → State} (hf : ∀ h s, Dead h s → Dead h (f s)) : KeepsDead (fun s => .next (f s)) :=
  fun h s t d e => by cases e; exact hf h s d

theorem KeepsDead.withBuffer {k : State → Nat} {f : Buffer → State → Result} (hf : ∀ b, KeepsDead (f b)) :
    KeepsDead (fun s => withBuffer s (k s) fun b => f b s) := fun h s t d e => by
  obtain ⟨b, -, e⟩ := (withBuffer_eq_next _ _ _ _).1 e
  exact hf b h s t d e

theorem KeepsDead.withHost {k : State → Nat} {f : Buffer → State → Result} (hf : ∀ b, KeepsDead (f b)) :
    KeepsDead (fun s => withHostBuffer s (k s) fun b => f b s) := fun h s t d e => by
  obtain ⟨b, -, -, e⟩ := (withHostBuffer_eq_next _ _ _ _).1 e
  exact hf b h s t d e

/-- A choice by the handle a register or a slot holds. -/
theorem KeepsDead.slot {slot : State → Option Nat} {none_ : State → Result} {some_ : Nat → State → Result}
    (hn : KeepsDead none_) (hk : ∀ k, KeepsDead (some_ k)) :
    KeepsDead (fun s => match slot s with | none => none_ s | some k => some_ k s) := fun h s t d e => by
  cases q : slot s with
  | none => simp only [q] at e; exact hn h s t d e
  | some k => simp only [q] at e; exact hk k h s t d e

theorem keepsDead_refuse (q : Refusal) : KeepsDead (fun _ => .refused q) := fun _ _ _ _ e => nomatch e

theorem keepsDead_next : KeepsDead .next := fun _ _ _ d e => by cases e; exact d

/-! ### The operations -/

theorem keepsDead_fbCreate (t w h o) : KeepsDead (fbCreate t w h o) := fun k s u d e => by
  obtain ⟨-, -, -, -, rfl⟩ := (fbCreate_eq_next _ _ _ _ _ _).1 e
  exact (d.congr rfl rfl : Dead k (s.afterAlloc t w.toNat h.toNat)).install _

theorem keepsDead_fbDestroy (h) : KeepsDead (fbDestroy h) := fun k s u d e => by
  obtain ⟨-, rfl⟩ := (fbDestroy_eq_next _ _ _).1 e
  exact d.remove h

theorem keepsDead_fbMove (h o) : KeepsDead (fbMove h o) := fun k s u d e => by
  obtain ⟨b, hb, -, -, -, rfl⟩ := (fbMove_eq_next _ _ _ _).1 e
  exact d.handTo (d.ne_live ⟨b, hb⟩) b o

theorem keepsDead_ppSwap : KeepsDead ppSwap := fun k s u d e => by
  obtain ⟨a, b, ba, bb, -, -, ha, hb, rfl⟩ := (ppSwap_eq_next _ _).1 e
  exact ((d.put (d.ne_live ⟨bb, hb⟩) _).put (d.ne_live ⟨ba, ha⟩) _ |>.congr rfl rfl)

theorem keepsDead_cscConvert (r g) : KeepsDead (cscConvert r g) := fun k s u d e => by
  obtain ⟨-, gray, -, hg, -, -, rfl⟩ := (cscConvert_eq_next _ _ _ _).1 e
  split
  · exact d.congr rfl rfl
  · exact d.put (d.ne_live ⟨gray, hg⟩) _

theorem keepsDead_convApply (pix : State → Buffer → Nat → Nat → Byte) (a b) :
    KeepsDead (fun s => convApply (pix s) a b s) := fun k s u d e => by
  obtain ⟨-, dst, -, hd, -, -, -, -, -, rfl⟩ := (convApply_eq_next _ _ _ _ _).1 e
  exact d.put (d.ne_live ⟨dst, hd⟩) _

theorem keepsDead_convKernel (k : KernelId) (a b) : KeepsDead (convKernel k a b) :=
  keepsDead_convApply (fun s => convPixel s.params s.modeFloat k) a b

theorem keepsDead_sobelMag (a b) : KeepsDead (sobelMag a b) :=
  keepsDead_convApply (fun s => sobelPixel s.params s.modeFloat) a b

theorem keepsDead_filterPass {op : Nat → Nat → State → Result} (ho : ∀ a b, KeepsDead (op a b)) :
    KeepsDead (filterPass op) := fun h s u d e => by
  obtain ⟨a, b, t, -, -, h1, h2⟩ := (filterPass_eq_next _ _ _).1 e
  exact keepsDead_ppSwap h t u (ho a b h s t d h1) h2

theorem keepsDead_filterPassIf {on : State → Bool} {op : Nat → Nat → State → Result} (ho : ∀ a b, KeepsDead (op a b)) :
    KeepsDead (fun s => filterPassIf (on s) op s) := fun h s u d e => by
  simp only [filterPassIf] at e
  split at e
  · exact keepsDead_filterPass ho h s u d e
  · cases e; exact d

theorem keepsDead_filterPasses : KeepsDead filterPasses :=
  (keepsDead_filterPass (keepsDead_convKernel .blur)).bind <|
  (keepsDead_filterPassIf (keepsDead_convKernel .gaussian)).bind <|
  (keepsDead_filterPassIf (keepsDead_convKernel .sharpen)).bind <| keepsDead_filterPassIf keepsDead_sobelMag

theorem keepsDead_moveHeld (slot : State → Option Nat) (o) : KeepsDead (fun s => moveHeld (slot s) o s) :=
  .slot (keepsDead_refuse .emptySlot) fun h => keepsDead_fbMove h o

theorem keepsDead_dropScratch : KeepsDead dropScratch :=
  .slot (slot := State.ppDst) (keepsDead_refuse .emptySlot) fun h =>
    (keepsDead_fbDestroy h).bind (.pure fun _ _ d => d.setHolder .ppDst none)

theorem keepsDead_actFilter : KeepsDead actFilter :=
  .slot (slot := State.gray) keepsDead_next fun g => .withBuffer (k := fun _ => g) fun b =>
    (keepsDead_fbMove g .ppSrc).bind <| (keepsDead_fbCreate .gray b.width b.height .ppDst).bind <|
    keepsDead_filterPasses.bind <| keepsDead_dropScratch.bind <| keepsDead_moveHeld State.ppSrc .proc

theorem keepsDead_convertHeld (r) : KeepsDead (convertHeld r) :=
  .slot (slot := State.cscOut) (keepsDead_refuse .emptySlot) fun g => keepsDead_cscConvert r g

theorem keepsDead_actConvert : KeepsDead actConvert :=
  .slot (slot := State.raw) keepsDead_next fun r => .withBuffer (k := fun _ => r) fun b =>
    (keepsDead_fbCreate .gray b.width b.height .cscOut).bind <| (keepsDead_convertHeld r).bind <|
    (keepsDead_fbDestroy r).bind fun h s t d e =>
      keepsDead_moveHeld State.cscOut .gray h (s.setHolder .raw none) t (d.setHolder .raw none) e

theorem keepsDead_actOutput : KeepsDead actOutput :=
  .slot (slot := State.proc) keepsDead_next fun p => .withBuffer (k := fun _ => p) fun b h s t d e =>
    (keepsDead_fbDestroy p).bind (.pure (f := State.countOutput) fun _ _ d => d.congr rfl rfl) h (s.handToEncoder b) t
      (d.congr (by simp) (by simp)) e

theorem keepsDead_actInput : KeepsDead actInput := fun k s u d e => by
  rcases (actInput_eq_next _ _).1 e with ⟨-, rfl⟩ | ⟨-, id, -, ⟨c, -, rfl⟩ | ⟨w, h, px, -, e⟩⟩
  · exact d
  · exact d.congr rfl rfl
  · obtain ⟨-, -, -, rfl⟩ := (acceptGrid_eq_next _ _ _ _ _).1 e
    exact ((d.congr rfl rfl : Dead k ((s.afterDecode id).afterAlloc .rgb w h)).install _).congr rfl rfl

theorem keepsDead_schedTick : KeepsDead schedTick := by
  have ph : ∀ (p : Phase) {f : State → Result}, KeepsDead f → KeepsDead (fun s => f (s.enterPhase p)) :=
    fun p f hf h s t d e => hf h (s.enterPhase p) t (d.congr rfl rfl) e
  have first : KeepsDead (fun s => actOutput (s.countTick.enterPhase .output)) :=
    fun h s t d e => keepsDead_actOutput h (s.countTick.enterPhase .output) t (d.congr rfl rfl) e
  exact first.bind <| (ph _ keepsDead_actFilter).bind <| (ph _ keepsDead_actConvert).bind <|
    (ph _ keepsDead_actInput).bind (.pure fun _ _ d => d.congr rfl rfl)

theorem keepsDead_nestedCode (b : State) : KeepsDead (fun s => .next (nestedCode b s)) :=
  .pure fun _ _ d => d.congr rfl rfl

/-- The tick with its result code. -/
theorem keepsDead_codedTick : KeepsDead (fun s => bindNext (schedTick s) fun t => .next (nestedCode s t)) :=
  fun h s => keepsDead_schedTick.bind (keepsDead_nestedCode s) h s

theorem keepsDead_two {f : Nat → Nat → State → Result} (hf : ∀ a b, KeepsDead (f a b)) :
    KeepsDead (fun s => withHostBuffer s s.ports.h0 fun _ => withHostBuffer s s.ports.h1 fun _ =>
      f s.ports.h0 s.ports.h1 s) :=
  .withHost (k := fun s => s.ports.h0) fun _ => .withHost (k := fun s => s.ports.h1) fun _ h s => hf _ _ h s

theorem keepsDead_portBody (i : Instr) : KeepsDead (portBody i) := by
  cases i with
  | fbCreate t =>
      intro h s u d e
      obtain ⟨v, h1, h2⟩ := (bindNext_eq_next _ _ _).1 e
      cases h2
      exact (keepsDead_fbCreate _ _ _ _ h s v d h1).congr rfl rfl
  | fbGet => exact .withHost (k := fun s => s.ports.h0) fun b => .pure fun _ _ d => d.congr rfl rfl
  | fbSet =>
      intro h s u d e
      obtain ⟨b, hb, -, e⟩ := (withHostBuffer_eq_next _ _ _ _).1 e
      cases e
      exact d.put (d.ne_live ⟨b, hb⟩) _
  | fbDestroy => exact .withHost (k := fun s => s.ports.h0) fun _ h s => keepsDead_fbDestroy s.ports.h0 h s
  | fbMove o =>
      intro h s u d e
      obtain ⟨b, -, e⟩ := (withBuffer_eq_next _ _ _ _).1 e
      split at e
      · exact keepsDead_fbMove _ _ h s u d e
      · cases e
  | ppSwap => exact keepsDead_ppSwap
  | cscConvert => exact keepsDead_two keepsDead_cscConvert
  | convBlur => exact keepsDead_two (keepsDead_convKernel .blur)
  | convSharpen => exact keepsDead_two (keepsDead_convKernel .sharpen)
  | convGaussian => exact keepsDead_two (keepsDead_convKernel .gaussian)
  | convSobelX => exact keepsDead_two (keepsDead_convKernel .sobelX)
  | convSobelY => exact keepsDead_two (keepsDead_convKernel .sobelY)
  | sobelMag => exact keepsDead_two keepsDead_sobelMag
  | actOutput => exact keepsDead_actOutput
  | actFilter => exact keepsDead_actFilter
  | actConvert => exact keepsDead_actConvert
  | actInput => exact keepsDead_actInput
  | tick => exact keepsDead_codedTick
  | run => exact keepsDead_next

theorem keepsDead_exec (i : Instr) : KeepsDead (exec i) := fun h s t d e => by
  by_cases hi : i = .run
  · subst hi
    obtain ⟨-, -, e⟩ := (exec_run_eq_next _ _).1 e
    have du : Dead h (if s.running then s else s.startRun) := by split <;> exact d.congr rfl rfl
    rcases (runIteration_eq_next _ _).1 e with ⟨-, u, h1, rfl⟩ | ⟨-, rfl⟩
    · exact keepsDead_nestedCode _ h u _ (keepsDead_schedTick h _ u du h1) rfl
    · exact du.congr rfl rfl
  · obtain ⟨-, -, e⟩ := (exec_eq_next i hi _ _).1 e
    exact keepsDead_portBody i h s.accepted t (d.congr rfl rfl) e

end Sys2Proof.Machine
end

