-- ==== Sys2Proof/Laws/Float.lean ====
section
/-!
SUPPORT. The floating-point primitives (R10) in the formats of R144: integers below 2^24 are kept exactly, and every
rounding of a normal value is within 2^-23 of it; the comparisons and the truncation of a finite value, as rationals.
-/
namespace Sys2Proof.Machine

/-! ### Integers -/

/-- A number the format holds is not changed. -/
theorem roundTo_fits (f : FloatFormat) (m e : Int) (hd : droppedBits f m.natAbs e ≤ 0)
    (ho : (Nat.log2 m.natAbs : Int) + e ≤ f.emax) (h0 : m ≠ 0) : roundTo f m e = .finite m e := by
  have hd' : (droppedBits f m.natAbs e).toNat = 0 := by omega
  have hneg : (if decide (m < 0) = true then -(m.natAbs : Int) else (m.natAbs : Int)) = m := by
    by_cases hn : m < 0
    · rw [if_pos (by simpa using hn)]; omega
    · rw [if_neg (by simpa using hn)]; omega
  unfold roundTo
  rw [if_neg (by omega)]
  simp only [hd', pow_zero, Nat.div_one, ne_eq, not_true_eq_false, decide_false, Bool.false_and, Bool.false_eq_true,
    if_false, Nat.cast_zero, add_zero]
  rw [if_neg (by omega), hneg]

theorem roundTo_zero (f : FloatFormat) (e : Int) : roundTo f 0 e = .finite 0 0 := rfl

/-- An integer below 2^24 in magnitude is a value of the format. -/
theorem roundTo_int (f : FloatFormat) (hf : f.wf = true) (m : Int) (hm : m.natAbs < 2 ^ 24) :
    roundTo f m 0 = .finite m 0 := by
  simp only [FloatFormat.wf, decide_eq_true_eq] at hf
  by_cases h0 : m = 0
  · subst h0; rfl
  · have hlog : Nat.log2 m.natAbs < 24 := (Nat.log2_lt (by omega)).2 hm
    exact roundTo_fits f m 0 (by unfold droppedBits floatQuantum; omega) (by omega) h0

theorem fmul_int (f : FloatFormat) (hf : f.wf = true) (a b : Int) (h : (a * b).natAbs < 2 ^ 24) :
    fmul f (.finite a 0) (.finite b 0) = .finite (a * b) 0 := roundTo_int f hf _ h

theorem fadd_int (f : FloatFormat) (hf : f.wf = true) (a b : Int) (h : (a + b).natAbs < 2 ^ 24) :
    fadd f (.finite a 0) (.finite b 0) = .finite (a + b) 0 := by
  simpa [fadd] using roundTo_int f hf _ h

/-- Float accumulation of integer products is exact while the running sum stays below 2^24 (R172). -/
theorem foldl_exact (f : FloatFormat) (hf : f.wf = true) (l : List (Int × Byte)) : ∀ a : Int,
    a.natAbs + 255 * (l.map fun c => c.1.natAbs).sum < 2 ^ 24 →
    (l.map fun c => (Flt.finite c.1 0, c.2)).foldl (fun acc wp => fadd f acc (fmul f wp.1 (i2f (byteInt wp.2)))) (.finite a 0)
      = .finite (a + (l.map fun c => c.1 * (c.2.toNat : Int)).sum) 0 := by
  induction l with
  | nil => intro a _; simp
  | cons c r ih =>
    intro a ha
    simp only [List.map_cons, List.sum_cons, List.foldl_cons, i2f, byteInt] at ha ih ⊢
    have hc := c.2.isLt
    have hmul : (c.1 * (c.2.toNat : Int)).natAbs ≤ 255 * c.1.natAbs := by
      rw [Int.natAbs_mul, Int.natAbs_natCast, mul_comm]
      exact Nat.mul_le_mul_right _ (by omega)
    generalize hv : c.1 * (c.2.toNat : Int) = v at *
    generalize hs : (r.map fun c => c.1.natAbs).sum = S at *
    have e1 : fmul f (.finite c.1 0) (.finite (c.2.toNat : Int) 0) = .finite v 0 := by
      rw [fmul_int f hf _ _ (by rw [hv]; omega), hv]
    rw [e1, fadd_int f hf a v (by omega), ih (a + v) (by omega), add_assoc]

/-- The float sum of nine integer products is the integer sum (R172). -/
theorem weightedSumFloat_int (f : FloatFormat) (hf : f.wf = true) (w : Grid3 Int) (n : Grid3 Byte)
    (h : (w.toList.map Int.natAbs).sum ≤ 65793) :
    weightedSumFloat f (w.map (fun c => .finite c 0)) n
      = .finite ((w.toList.zip n.toList).map fun c => c.1 * (c.2.toNat : Int)).sum 0 := by
  have := foldl_exact f hf (w.toList.zip n.toList) 0 (by
    simp only [Grid3.toList, List.zip_cons_cons, List.zip_nil_left, List.map_cons, List.map_nil, List.sum_cons, List.sum_nil] at h ⊢
    omega)
  rw [zero_add] at this
  exact this

/-! ### Rationals -/

/-- The rational number a finite value stands for. -/
def ratValue (m e : Int) : ℚ := (m : ℚ) * (2 : ℚ) ^ e

theorem ratValue_shift (m e : Int) (n : Nat) : ratValue (m * 2 ^ n) e = ratValue m (e + n) := by
  unfold ratValue
  rw [zpow_add₀ (by norm_num), zpow_natCast]; push_cast; ring

/-- Rounding moves a normal value by less than one unit of the last place kept. -/
theorem roundTo_near (f : FloatFormat) (hf : f.wf = true) (m e : Int) (hm : 0 ≤ m)
    (hr : m = 0 ∨ (1 / 1024 ≤ ratValue m e ∧ ratValue m e ≤ 1024)) :
    ∃ m' e', roundTo f m e = .finite m' e' ∧ 0 ≤ m' ∧ |ratValue m' e' - ratValue m e| ≤ ratValue m e / 2 ^ 23 := by
  simp only [FloatFormat.wf, decide_eq_true_eq] at hf
  by_cases h0 : m = 0
  · subst h0; exact ⟨0, 0, rfl, le_refl _, by simp [ratValue]⟩
  obtain ⟨lo, hi⟩ := hr.resolve_left h0
  obtain ⟨a, rfl⟩ := Int.eq_ofNat_of_zero_le hm
  have ha : a ≠ 0 := by omega
  have p2 : ∀ z : Int, (0 : ℚ) < (2 : ℚ) ^ z := fun z => zpow_pos (by norm_num) z
  -- the exponent of the leading bit
  have l1 : 2 ^ Nat.log2 a ≤ a := Nat.log2_self_le ha
  have l2 : a < 2 ^ (Nat.log2 a + 1) := Nat.lt_log2_self
  have q1 : ((2 : ℚ) ^ (Nat.log2 a : Int)) ≤ a := by rw [zpow_natCast]; exact_mod_cast l1
  have q2 : (a : ℚ) < (2 : ℚ) ^ ((Nat.log2 a : Int) + 1) := by
    rw [show (Nat.log2 a : Int) + 1 = ((Nat.log2 a + 1 : Nat) : Int) by push_cast; ring, zpow_natCast]; exact_mod_cast l2
  have hval : ratValue (a : Int) e = (a : ℚ) * (2 : ℚ) ^ e := by simp [ratValue]
  have up : (Nat.log2 a : Int) + e ≤ 10 := by
    by_contra hc
    have : (2 : ℚ) ^ (10 : Int) < (2 : ℚ) ^ ((Nat.log2 a : Int) + e) := zpow_lt_zpow_right₀ (by norm_num) (by omega)
    rw [zpow_add₀ (by norm_num)] at this
    have h3 := mul_le_mul_of_nonneg_right q1 (p2 e).le
    rw [hval] at hi
    rw [show (2 : ℚ) ^ (10 : Int) = 1024 by norm_num] at this
    linarith
  have dn : -11 ≤ (Nat.log2 a : Int) + e := by
    by_contra hc
    have : (2 : ℚ) ^ ((Nat.log2 a : Int) + 1 + e) ≤ (2 : ℚ) ^ (-11 : Int) := zpow_le_zpow_right₀ (by norm_num) (by omega)
    rw [zpow_add₀ (by norm_num)] at this
    have h3 := mul_lt_mul_of_pos_right q2 (p2 e)
    rw [hval] at lo
    rw [show (2 : ℚ) ^ (-11 : Int) = 1 / 2048 by norm_num] at this
    linarith
  by_cases hd : droppedBits f a e ≤ 0
  · refine ⟨a, e, roundTo_fits f a e (by simpa using hd) (by simp; omega) h0, hm, ?_⟩
    rw [sub_self, abs_zero]; positivity
  have hdv : droppedBits f a e = (Nat.log2 a : Int) + 1 - f.prec := by
    unfold droppedBits floatQuantum at *; omega
  obtain ⟨d, hdn⟩ := Int.eq_ofNat_of_zero_le (show 0 ≤ droppedBits f a e by omega)
  have hdd : (d : Int) = (Nat.log2 a : Int) + 1 - f.prec := by omega
  have pd : 0 < 2 ^ d := by positivity
  have eq := Nat.div_add_mod a (2 ^ d)
  have lt := Nat.mod_lt a pd
  -- what is kept
  have key : ∃ kept : Nat, roundTo f a e = .finite kept (e + d) ∧ (kept : ℤ) * 2 ^ d ≤ a + 2 ^ d ∧ (a : ℤ) ≤ kept * 2 ^ d + 2 ^ d := by
    have small : ∀ k : Nat, k ≤ a / 2 ^ d + 1 → ¬ (k ≠ 0 ∧ (f.emax : Int) < (Nat.log2 k : Int) + (e + d)) := by
      rintro k hk ⟨k0, hlt⟩
      have h1 : a / 2 ^ d < 2 ^ (Nat.log2 a + 1 - d) := by
        rw [Nat.div_lt_iff_lt_mul pd, ← pow_add]
        rwa [Nat.sub_add_cancel (by omega)]
      have h2 : k < 2 ^ (Nat.log2 a + 1 - d + 1) := by rw [pow_succ]; omega
      have h3 := (Nat.log2_lt k0).2 h2
      omega
    unfold roundTo
    simp only [Int.natAbs_natCast, hdn, Int.toNat_natCast, ha, if_false]
    have hneg : ¬ (a : Int) < 0 := by omega
    simp only [hneg, decide_false, Bool.false_eq_true, if_false]
    split
    · rename_i hup
      refine ⟨a / 2 ^ d + 1, ?_, ?_, ?_⟩
      · rw [if_neg (small _ (le_refl _))]
      · push_cast
        have : (a / 2 ^ d) * 2 ^ d ≤ a := Nat.div_mul_le_self a _
        have : ((a / 2 ^ d : Nat) : ℤ) * 2 ^ d ≤ a := by exact_mod_cast this
        push_cast at this
        linarith
      · have : a ≤ (a / 2 ^ d + 1) * 2 ^ d + 2 ^ d := by nlinarith
        exact_mod_cast this
    · refine ⟨a / 2 ^ d, ?_, ?_, ?_⟩
      · rw [if_neg (small _ (by omega))]
      · have : (a / 2 ^ d) * 2 ^ d ≤ a + 2 ^ d := le_trans (Nat.div_mul_le_self a _) (by omega)
        exact_mod_cast this
      · have : a ≤ (a / 2 ^ d) * 2 ^ d + 2 ^ d := by nlinarith
        exact_mod_cast this
  obtain ⟨k, hk, b1, b2⟩ := key
  refine ⟨k, e + d, hk, by omega, ?_⟩
  rw [← ratValue_shift]
  have b1' : ((k : ℚ)) * 2 ^ d ≤ a + 2 ^ d := by exact_mod_cast b1
  have b2' : (a : ℚ) ≤ k * 2 ^ d + 2 ^ d := by exact_mod_cast b2
  have step : ((2 : ℚ) ^ d) ≤ a / 2 ^ 23 := by
    have h23 : (2 : ℚ) ^ ((Nat.log2 a : Int)) = 2 ^ d * (2 : ℚ) ^ ((f.prec : Int) - 1) := by
      rw [← zpow_natCast, ← zpow_add₀ (by norm_num)]; congr 1; omega
    have h24 : (2 : ℚ) ^ (23 : Int) ≤ (2 : ℚ) ^ ((f.prec : Int) - 1) := zpow_le_zpow_right₀ (by norm_num) (by omega)
    rw [le_div_iff₀ (by norm_num)]
    rw [h23] at q1
    have : (2 : ℚ) ^ d * 2 ^ 23 ≤ 2 ^ d * (2 : ℚ) ^ ((f.prec : Int) - 1) :=
      mul_le_mul_of_nonneg_left (by exact_mod_cast h24) (by positivity)
    linarith
  have hpe := p2 e
  have hv2 : ratValue ((k : Int) * 2 ^ d) e = (k : ℚ) * 2 ^ d * (2 : ℚ) ^ e := by unfold ratValue; push_cast; ring
  rw [hv2, hval, ← sub_mul, abs_mul, abs_of_pos hpe, mul_div_right_comm]
  refine mul_le_mul_of_nonneg_right ?_ hpe.le
  rw [abs_le]; constructor <;> linarith

theorem ratValue_frac (m e : Int) :
    ratValue m e = ((m * 2 ^ e.toNat : Int) : ℚ) / ((2 ^ (-e).toNat : Int) : ℚ) := by
  unfold ratValue
  push_cast
  rcases le_total 0 e with h | h
  · obtain ⟨n, rfl⟩ := Int.eq_ofNat_of_zero_le h
    have : (-(n : Int)).toNat = 0 := by omega
    simp [this]
  · obtain ⟨n, hn⟩ := Int.eq_ofNat_of_zero_le (show 0 ≤ -e by omega)
    have e1 : e = -(n : Int) := by omega
    have : (-(n : Int)).toNat = 0 := by omega
    subst e1
    simp [this, zpow_neg, div_eq_mul_inv]

/-- The comparison of `fclamp` with 255 is that of the rationals. -/
theorem above255_iff (m e : Int) : above255 m e = true ↔ 255 < ratValue m e := by
  have hd : (0 : ℚ) < ((2 ^ (-e).toNat : Int) : ℚ) := by push_cast; positivity
  rw [ratValue_frac, lt_div_iff₀ hd, above255, decide_eq_true_eq]
  exact_mod_cast Iff.rfl

/-- The truncation of `f2u8` is the floor of the rational. -/
theorem trunc_bounds (m e : Int) : (((m * 2 ^ e.toNat) / 2 ^ (-e).toNat : Int) : ℚ) ≤ ratValue m e ∧
    ratValue m e < (((m * 2 ^ e.toNat) / 2 ^ (-e).toNat : Int) : ℚ) + 1 := by
  have hd : (0 : ℚ) < ((2 ^ (-e).toNat : Int) : ℚ) := by push_cast; positivity
  have hd' : (0 : Int) < 2 ^ (-e).toNat := by positivity
  rw [ratValue_frac, le_div_iff₀ hd, div_lt_iff₀ hd]
  generalize m * 2 ^ e.toNat = n
  generalize (2 : Int) ^ (-e).toNat = d at *
  have h1 := Int.ediv_mul_le n (by omega : d ≠ 0)
  have h2 := Int.lt_ediv_add_one_mul_self n hd'
  constructor
  · exact_mod_cast h1
  · exact_mod_cast h2

/-- A finite, nonnegative value within the relative distance `ε` of `x`. -/
def Near (v : Flt) (x ε : ℚ) : Prop :=
  ∃ m e, v = .finite m e ∧ 0 ≤ m ∧ |ratValue m e - x| ≤ x * ε

/-- Rounding a number near `x` adds 2^-22 to the relative distance. -/
theorem near_round (f : FloatFormat) (hf : f.wf = true) (m e : Int) (hm : 0 ≤ m) (x ε : ℚ) (hε : ε ≤ 1 / 1000)
    (hx : x = 0 ∨ (1 / 100 ≤ x ∧ x ≤ 1000)) (h : |ratValue m e - x| ≤ x * ε) : Near (roundTo f m e) x (ε + 1 / 2 ^ 22) := by
  rcases hx with rfl | ⟨lo, hi⟩
  · rw [zero_mul, sub_zero, abs_nonpos_iff] at h
    have : m = 0 := by
      unfold ratValue at h
      rcases mul_eq_zero.1 h with h | h
      · exact_mod_cast h
      · exact absurd h (zpow_ne_zero _ (by norm_num))
    subst this
    exact ⟨0, 0, rfl, le_refl _, by simp [ratValue]⟩
  · rw [abs_le] at h
    have e1 : x * ε ≤ x * (1 / 1000) := mul_le_mul_of_nonneg_left hε (by linarith)
    obtain ⟨m', e', hr, hm', hc⟩ := roundTo_near f hf m e hm (.inr ⟨by linarith, by linarith⟩)
    refine ⟨m', e', hr, hm', ?_⟩
    rw [abs_le] at hc ⊢
    constructor <;> (rw [mul_add]; linarith)

/-- `fconst` is within 2^-20 of its decimal constant. -/
theorem near_fconst (f : FloatFormat) (hf : f.wf = true) (num den : Nat) (hd : 0 < den) (h1 : num ≤ den)
    (h2 : den ≤ 100 * num) : Near (fconst f num den) (num / den) (1 / 2 ^ 20) := by
  have hwf := hf
  simp only [FloatFormat.wf, decide_eq_true_eq] at hwf
  unfold fconst
  dsimp only
  generalize hk : f.prec + 3 + Nat.log2 den = k
  have hk27 : 27 ≤ k := by omega
  generalize hs : (if num * 2 ^ k % den = 0 then 0 else 1 : Nat) = s
  have pk : (0 : ℚ) < 2 ^ k := by positivity
  have hdq : (0 : ℚ) < den := by exact_mod_cast hd
  have hx1 : (1 : ℚ) / 100 ≤ num / den := by
    rw [div_le_div_iff₀ (by norm_num) hdq]
    have : (den : ℚ) ≤ 100 * num := by exact_mod_cast h2
    linarith
  have hx2 : (num : ℚ) / den ≤ 1 := by
    rw [div_le_one hdq]; exact_mod_cast h1
  have err : |ratValue ((2 * (num * 2 ^ k / den) + s : Nat) : Int) (-(k : Int) - 1) - num / den| ≤ num / den * (1 / 2 ^ 21) := by
    have eq := Nat.div_add_mod (num * 2 ^ k) den
    have lt := Nat.mod_lt (num * 2 ^ k) hd
    have hv : ratValue ((2 * (num * 2 ^ k / den) + s : Nat) : Int) (-(k : Int) - 1)
        = ((2 * (num * 2 ^ k / den) + s : Nat) : ℚ) / (2 * 2 ^ k) := by
      generalize 2 * (num * 2 ^ k / den) + s = N
      unfold ratValue
      rw [show -(k : Int) - 1 = -((k + 1 : Nat) : Int) by push_cast; ring, zpow_neg, zpow_natCast, pow_succ]
      push_cast; field_simp
    rw [hv]
    generalize hq : num * 2 ^ k / den = q at *
    generalize hrm : num * 2 ^ k % den = r at *
    have eq' : (den : ℚ) * q + r = num * 2 ^ k := by exact_mod_cast eq
    have hnum : (num : ℚ) / den = (q + r / den) / 2 ^ k := by
      field_simp; linarith
    have hr1 : (r : ℚ) / den < 1 := by rw [div_lt_one hdq]; exact_mod_cast lt
    have hr0 : (0 : ℚ) ≤ r / den := by positivity
    have hs' : |((s : ℚ) - 2 * (r / den))| ≤ 1 := by
      rw [← hs]
      split
      · rename_i h; subst h; simp
      · rw [abs_le]; push_cast; constructor <;> linarith
    have hdiff : ((2 * q + s : Nat) : ℚ) / (2 * 2 ^ k) - num / den = ((s : ℚ) - 2 * (r / den)) / (2 * 2 ^ k) := by
      rw [hnum]; push_cast; field_simp; ring
    rw [hdiff, abs_div, abs_of_pos (show (0 : ℚ) < 2 * 2 ^ k by positivity), div_le_iff₀ (by positivity)]
    have big : (2 : ℚ) ^ 27 ≤ 2 ^ k := pow_le_pow_right₀ (by norm_num) hk27
    have : (1 : ℚ) / 100 * (1 / 2 ^ 21) * (2 * 2 ^ 27) ≤ num / den * (1 / 2 ^ 21) * (2 * 2 ^ k) := by gcongr
    norm_num at this
    linarith
  have := near_round { f with rounding := .nearestEven } hf _ _ (by positivity) (num / den) (1 / 2 ^ 21) (by norm_num)
    (.inr ⟨hx1, by linarith⟩) err
  obtain ⟨m, e, a1, a2, a3⟩ := this
  refine ⟨m, e, a1, a2, a3.trans ?_⟩
  gcongr
  norm_num

/-- A constant times an integer channel, rounded. -/
theorem near_fmul (f : FloatFormat) (hf : f.wf = true) (c : Flt) (x ε : ℚ) (n : Nat) (hn : n ≤ 255) (hε : ε ≤ 1 / 1000)
    (hx1 : 1 / 100 ≤ x) (hx2 : x ≤ 1) (h : Near c x ε) : Near (fmul f c (i2f (n : Int))) (x * n) (ε + 1 / 2 ^ 22) := by
  obtain ⟨m, e, rfl, hm, hc⟩ := h
  have hnq : (n : ℚ) ≤ 255 := by exact_mod_cast hn
  have hn0 : (0 : ℚ) ≤ n := by positivity
  refine near_round f hf _ _ (by positivity) (x * n) ε hε ?_ ?_
  · rcases Nat.eq_zero_or_pos n with rfl | hp
    · left; simp
    · right
      have : (1 : ℚ) ≤ n := by exact_mod_cast hp
      constructor <;> nlinarith
  · have : ratValue (m * (n : Int)) (e + 0) = ratValue m e * n := by unfold ratValue; push_cast; rw [add_zero]; ring
    rw [this, ← sub_mul, abs_mul, abs_of_nonneg hn0, mul_right_comm x]
    exact mul_le_mul_of_nonneg_right hc hn0

/-- A sum of two nonnegative values, rounded. -/
theorem near_fadd (f : FloatFormat) (hf : f.wf = true) (a b : Flt) (x y ε : ℚ) (hε : ε ≤ 1 / 1000)
    (h : x + y = 0 ∨ (1 / 100 ≤ x + y ∧ x + y ≤ 1000)) (ha : Near a x ε) (hb : Near b y ε) :
    Near (fadd f a b) (x + y) (ε + 1 / 2 ^ 22) := by
  obtain ⟨m, e, rfl, hm, hc⟩ := ha
  obtain ⟨m', e', rfl, hm', hc'⟩ := hb
  refine near_round f hf _ _ (by positivity) (x + y) ε hε h ?_
  have sh : ∀ (m e e0 : Int), e0 ≤ e → ratValue (m * 2 ^ (e - e0).toNat) e0 = ratValue m e := by
    intro m e e0 h
    rw [ratValue_shift]; congr 1; omega
  have add : ∀ a b e : Int, ratValue (a + b) e = ratValue a e + ratValue b e := by
    intro a b e; unfold ratValue; push_cast; ring
  rw [add, sh _ _ _ (min_le_left _ _), sh _ _ _ (min_le_right _ _)]
  rw [show ratValue m e + ratValue m' e' - (x + y) = (ratValue m e - x) + (ratValue m' e' - y) by ring, add_mul]
  exact (abs_add_le _ _).trans (add_le_add hc hc')

/-- Clamp and truncate of a value near `x`: an integer strictly within the error of the floor (R10). -/
theorem near_f2u8 (free : Byte) (v : Flt) (x ε : ℚ) (h : Near v x ε) (h0 : 0 ≤ x) :
    ((f2u8 free (fclamp v)).toNat : ℚ) ≤ x + x * ε ∧
      (x - x * ε < (f2u8 free (fclamp v)).toNat + 1 ∨ (f2u8 free (fclamp v)).toNat = 255) ∧
      (x = 0 → (f2u8 free (fclamp v)).toNat = 0) := by
  obtain ⟨m, e, rfl, hm, hc⟩ := h
  rw [abs_le] at hc
  unfold fclamp
  dsimp only
  rw [if_neg (by omega)]
  by_cases ha : above255 m e = true
  · rw [if_pos ha]
    have h255 := (above255_iff m e).1 ha
    have : (f2u8 free (.finite 255 0)).toNat = 255 := by rfl
    rw [this]
    refine ⟨by push_cast; linarith, .inr rfl, ?_⟩
    intro hx; subst hx; simp at hc; linarith
  · rw [if_neg ha]
    have h255 : ratValue m e ≤ 255 := by
      by_contra hh; exact ha ((above255_iff m e).2 (by linarith))
    obtain ⟨t1, t2⟩ := trunc_bounds m e
    unfold f2u8
    dsimp only
    have hge : 0 ≤ m * 2 ^ e.toNat / 2 ^ (-e).toNat := by positivity
    generalize m * 2 ^ e.toNat / 2 ^ (-e).toNat = q at *
    have hq : q ≤ 255 := by
      have : (q : ℚ) ≤ 255 := t1.trans h255
      exact_mod_cast this
    obtain ⟨n, rfl⟩ := Int.eq_ofNat_of_zero_le hge
    have hn : (BitVec.ofNat 8 ((n : Int)).toNat).toNat = n := by
      simp; omega
    rw [hn]
    push_cast at t1 t2
    refine ⟨by linarith, .inl (by linarith), ?_⟩
    intro hx; subst hx
    have : (n : ℚ) ≤ 0 := by linarith
    have : n ≤ 0 := by exact_mod_cast this
    omega

/-- luma_float in any format of R144 gives what R144 allows. -/
theorem lumaFloat_allowed (f : FloatFormat) (hf : f.wf = true) (p : Pixel) : floatLumaAllowed p (lumaFloat f p) := by
  unfold lumaFloat byteInt
  dsimp only [hardware]
  generalize Config.nanLuma f p = free
  have hr := p.r.isLt
  have hg := p.g.isLt
  have hb := p.b.isLt
  unfold floatLumaAllowed
  dsimp only
  generalize p.r.toNat = R at *
  generalize p.g.toNat = G at *
  generalize p.b.toNat = B at *
  have n1 := near_fmul f hf _ _ _ R (by omega) (by norm_num) (by norm_num) (by norm_num) (near_fconst f hf 299 1000 (by norm_num) (by norm_num) (by norm_num))
  have n2 := near_fmul f hf _ _ _ G (by omega) (by norm_num) (by norm_num) (by norm_num) (near_fconst f hf 587 1000 (by norm_num) (by norm_num) (by norm_num))
  have n3 := near_fmul f hf _ _ _ B (by omega) (by norm_num) (by norm_num) (by norm_num) (near_fconst f hf 114 1000 (by norm_num) (by norm_num) (by norm_num))
  have hR : (0 : ℚ) ≤ R ∧ (R : ℚ) ≤ 255 := ⟨by positivity, by exact_mod_cast (by omega : R ≤ 255)⟩
  have hG : (0 : ℚ) ≤ G ∧ (G : ℚ) ≤ 255 := ⟨by positivity, by exact_mod_cast (by omega : G ≤ 255)⟩
  have hB : (0 : ℚ) ≤ B ∧ (B : ℚ) ≤ 255 := ⟨by positivity, by exact_mod_cast (by omega : B ≤ 255)⟩
  have one : ∀ n : Nat, (n : ℚ) = 0 ∨ (1 : ℚ) ≤ n := by
    intro n; rcases Nat.eq_zero_or_pos n with h | h
    · exact .inl (by exact_mod_cast h)
    · right; exact_mod_cast h
  have n4 := near_fadd f hf _ _ _ _ _ (by norm_num) (by
    push_cast
    rcases one R with h | h <;> rcases one G with h' | h' <;> first | (left; linarith) | (right; constructor <;> linarith)) n1 n2
  have weaken : Near (fmul f (fconst f 114 1000) (i2f (B : Int))) (((114 : Nat) : ℚ) / ((1000 : Nat) : ℚ) * B) (1 / 2 ^ 20 + 1 / 2 ^ 22 + 1 / 2 ^ 22) := by
    obtain ⟨m, e, a1, a2, a3⟩ := n3
    refine ⟨m, e, a1, a2, a3.trans ?_⟩
    apply mul_le_mul_of_nonneg_left <;> [norm_num; (push_cast; linarith)]
  have n5 := near_fadd f hf _ _ _ _ _ (by norm_num) (by
    push_cast
    rcases one R with h | h <;> rcases one G with h' | h' <;> rcases one B with h'' | h'' <;> first | (left; linarith) | (right; constructor <;> linarith)) n4 weaken
  have hx : ((299 : Nat) : ℚ) / ((1000 : Nat) : ℚ) * R + ((587 : Nat) : ℚ) / ((1000 : Nat) : ℚ) * G + ((114 : Nat) : ℚ) / ((1000 : Nat) : ℚ) * B = ((299 * R + 587 * G + 114 * B : Nat) : ℚ) / 1000 := by
    push_cast; ring
  rw [hx] at n5
  have hsum : 299 * R + 587 * G + 114 * B ≤ 255000 := by omega
  generalize 299 * R + 587 * G + 114 * B = S at *
  obtain ⟨c1, c2, c3⟩ := near_f2u8 free _ _ _ n5 (by positivity)
  have hl := (f2u8 free (fclamp (fadd f (fadd f (fmul f (fconst f 299 1000) (i2f (R : Int))) (fmul f (fconst f 587 1000) (i2f (G : Int)))) (fmul f (fconst f 114 1000) (i2f (B : Int)))))).isLt
  generalize (f2u8 free (fclamp (fadd f (fadd f (fmul f (fconst f 299 1000) (i2f (R : Int))) (fmul f (fconst f 587 1000) (i2f (G : Int)))) (fmul f (fconst f 114 1000) (i2f (B : Int)))))).toNat = L at *
  have hS : (S : ℚ) ≤ 255000 := by exact_mod_cast hsum
  have up : 1000 * L < S + 1 := by
    have : (1000 : ℚ) * L < S + 1 := by linarith
    exact_mod_cast this
  have dn : S ≤ 1000 * L + 1000 := by
    rcases c2 with h | h
    · have : (S : ℚ) < 1000 * L + 1000 + 1 := by linarith
      have : S < 1000 * L + 1000 + 1 := by exact_mod_cast this
      omega
    · omega
  split
  · rename_i h; subst h; exact c3 (by simp)
  · split
    · omega
    · omega

/-! ### The end of conv_float on exact values -/

/-- A number below 2^24 times a power of two from 2^-149 to 1 is kept exactly. -/
theorem roundTo_small (f : FloatFormat) (hf : f.wf = true) (m e : Int) (hm : m.natAbs < 2 ^ 24) (h1 : -149 ≤ e)
    (h2 : e ≤ 0) : roundTo f m e = if m = 0 then .finite 0 0 else .finite m e := by
  split
  · rename_i h; subst h; rfl
  · rename_i h0
    simp only [FloatFormat.wf, decide_eq_true_eq] at hf
    have hl : Nat.log2 m.natAbs < 24 := (Nat.log2_lt (by omega)).2 hm
    exact roundTo_fits f m e (by unfold droppedBits floatQuantum; omega) (by omega) h0

/-- Clamp and truncation of a finite value, as integers (R172). -/
theorem f2u8_fclamp (free : Byte) (n e : Int) (he : e ≤ 0) :
    f2u8 free (fclamp (.finite n e)) = BitVec.ofInt 8 (clampInt (n / 2 ^ (-e).toNat)) := by
  have het : e.toNat = 0 := by omega
  generalize hk : (-e).toNat = k
  have hp : (0 : Int) < 2 ^ k := by positivity
  show f2u8 free (if n < 0 then .finite 0 0 else if above255 n e then .finite 255 0 else .finite n e) = _
  split
  · rename_i hn
    have : n / 2 ^ k < 0 := Int.ediv_neg_of_neg_of_pos hn hp
    simp [f2u8, clampInt, this]
  · split
    · rename_i hn ha
      simp only [above255, decide_eq_true_eq, het, pow_zero, mul_one, hk] at ha
      have : 255 ≤ n / 2 ^ k := Int.le_ediv_of_mul_le hp (by omega)
      have c : clampInt (n / 2 ^ k) = 255 := by unfold clampInt; split_ifs <;> omega
      rw [c]; rfl
    · rename_i hn ha
      simp only [above255, decide_eq_true_eq, het, pow_zero, mul_one, hk] at ha
      have u : n / 2 ^ k ≤ 255 := by
        have h1 : n ≤ 255 * 2 ^ k := by omega
        calc n / 2 ^ k ≤ (255 * 2 ^ k) / 2 ^ k := Int.ediv_le_ediv hp h1
          _ = 255 := Int.mul_ediv_cancel _ hp.ne'
      have l : 0 ≤ n / 2 ^ k := Int.ediv_nonneg (by omega) hp.le
      have c : clampInt (n / 2 ^ k) = n / 2 ^ k := by unfold clampInt; split_ifs <;> omega
      rw [c]
      simp only [f2u8, het, pow_zero, mul_one, hk]
      generalize n / 2 ^ k = v at *
      obtain ⟨w, rfl⟩ := Int.eq_ofNat_of_zero_le l
      simp

end Sys2Proof.Machine
end

