-- ==== Sys2Proof/Laws/Parameters.lean ====
section
/-!
SUPPORT. The widths that stand as types are those of R7 (log 26): each line elaborates only if the type of the field it
names has the width the parameter gives.
-/
namespace Sys2Proof.Machine

/-- CH_BITS: one gray pixel or colour channel. -/
theorem width_channel : Byte = BitVec hardware.chBits := rfl

/-- KSIZE: nine weights. -/
theorem size_kernel {α : Type} (g : Grid3 α) : g.toList.length = hardware.kSize * hardware.kSize := rfl

/-- ACC_BITS: the accumulator of the fixed datapaths. -/
theorem width_accumulator (w : Grid3 (BitVec 16)) (p : Grid3 Byte) :
    ∃ v : BitVec hardware.accBits, accumulate32 w p = v := ⟨accumulate32 w p, rfl⟩

/-- LUMA_ACC_BITS: the luma sum fits with a sign bit to spare, so the accumulator's width does not show (R142). -/
theorem width_lumaAccumulator (p : Pixel) : 77 * p.r.toNat + 150 * p.g.toNat + 29 * p.b.toNat
    < 2 ^ (hardware.lumaAccBits - 1) := by
  have hr := p.r.isLt
  have hg := p.g.isLt
  have hb := p.b.isLt
  simp only [hardware]
  omega

/-- NREG: three register numbers name a register. -/
theorem count_registers : ((List.range 4).filter fun n => (regOfNumber (BitVec.ofNat 2 n)).isSome).length
    = hardware.nReg := by decide

/-- A register has the number that names it (R98). -/
theorem regOfNumber_regNumber (r : PipeReg) : regOfNumber (regNumber r) = some r := by cases r <;> rfl

/-- NKERNEL: the five kernel ids are the first five numbers (R95). -/
theorem count_kernels (k : KernelId) : kernelCode k < hardware.nKernel := by cases k <;> decide

/-- W_BITS and H_BITS: the dimensions of a buffer. -/
theorem width_dimensions (b : Buffer) : ∃ (w : BitVec hardware.wBits) (h : BitVec hardware.hBits),
    b.width = w ∧ b.height = h := ⟨b.width, b.height, rfl, rfl⟩

/-- COORD_BITS: the coordinate ports. -/
theorem width_coordinates (p : Ports) : ∃ x y : BitVec hardware.coordBits, p.x = x ∧ p.y = y := ⟨p.x, p.y, rfl, rfl⟩

/-- WEIGHT_BITS, SHIFT_BITS and BIAS_BITS: a fixed Kernel Table entry. -/
theorem width_kernel (k : Kernel) : ∃ (w : Grid3 (BitVec hardware.weightBits)) (sh : BitVec hardware.shiftBits)
    (b : BitVec hardware.biasBits), k.w = w ∧ k.shift = sh ∧ k.bias = b := ⟨k.w, k.shift, k.bias, rfl, rfl, rfl⟩

/-- CURSOR_BITS: IN_CURSOR, OUT_CURSOR, TOTAL and TICK. -/
theorem width_cursors (s : State) : ∃ i o n t : BitVec hardware.cursorBits,
    s.inCursor = i ∧ s.outCursor = o ∧ s.total = n ∧ s.tick = t :=
  ⟨s.inCursor, s.outCursor, s.total, s.tick, rfl, rfl, rfl, rfl⟩

end Sys2Proof.Machine
end

