-- ==== Sys2Proof/Laws/PerInstr.lean ====
section
/-!
SUPPORT. One fact about every instruction as syntax: the format of its command byte (R91, R93).
-/
namespace Sys2Proof.Laws.CommandFormat

/-- The command byte of `i` has Z = 0, a major opcode that is not reserved, and the sub-field 0 in every OP that has none
(R91, R93). -/
def Statement (i : Instr) : Prop :=
  zField (encode i) = false ∧ 1 ≤ opField (encode i) ∧ opField (encode i) ≤ 12 ∧
    (opField (encode i) ∈ [2, 3, 4, 6, 7, 9, 11, 12] → subField (encode i) = 0)

theorem fbCreate (t : ElemType) : Statement (.fbCreate t) := by unfold Statement; cases t <;> decide
theorem fbGet : Statement .fbGet := by unfold Statement; decide
theorem fbSet : Statement .fbSet := by unfold Statement; decide
theorem fbDestroy : Statement .fbDestroy := by unfold Statement; decide
theorem fbMove (o : OwnerTag) : Statement (.fbMove o) := by unfold Statement; cases o <;> decide
theorem ppSwap : Statement .ppSwap := by unfold Statement; decide
theorem cscConvert : Statement .cscConvert := by unfold Statement; decide
theorem convBlur : Statement .convBlur := by unfold Statement; decide
theorem convSharpen : Statement .convSharpen := by unfold Statement; decide
theorem convGaussian : Statement .convGaussian := by unfold Statement; decide
theorem convSobelX : Statement .convSobelX := by unfold Statement; decide
theorem convSobelY : Statement .convSobelY := by unfold Statement; decide
theorem sobelMag : Statement .sobelMag := by unfold Statement; decide
theorem actOutput : Statement .actOutput := by unfold Statement; decide
theorem actFilter : Statement .actFilter := by unfold Statement; decide
theorem actConvert : Statement .actConvert := by unfold Statement; decide
theorem actInput : Statement .actInput := by unfold Statement; decide
theorem tick : Statement .tick := by unfold Statement; decide
theorem run : Statement .run := by unfold Statement; decide

end Sys2Proof.Laws.CommandFormat
end

