-- ==== Sys2Proof/Laws/Run.lean ====
section
/-!
SUPPORT. A tick of a run, whatever the oracles answer: when it completes it leads from a run state to a run state, and
the work left becomes smaller.
-/
namespace Sys2Proof.Machine

/-- No live buffer is the host's (R28). -/
def NoHost (s : State) : Prop := ∀ h b, s.mem.find h = some b → b.owner ≠ .host

/-- What the actions of a tick do to holders and cursors, from a state in which HOST owns nothing. -/
structure Moved (s t : State) (holders : OwnerTag → Nat) (inc out : Nat) : Prop where
  owned : Owned t
  noHost : NoHost t
  occ : ∀ o, occupied (t.holder o) = holders o
  inc : t.inCursor = s.inCursor + BitVec.ofNat 32 inc
  out : t.outCursor = s.outCursor + BitVec.ofNat 32 out

theorem occupied_zero (r : Option Nat) : occupied r = 0 ↔ r = none := by cases r <;> simp [occupied]

theorem occupied_le (r : Option Nat) : occupied r ≤ 1 := by cases r <;> simp [occupied]

theorem moved_actOutput {s t : State} (hs : Owned s) (hn : NoHost s) (e : actOutput s = .next t) :
    Moved s t (fun o => if o = .proc then 0 else occupied (s.holder o)) 0 (occupied s.proc) := by
  obtain ⟨t', e', own, fr, -, hold, -, -, hi, ht, -, ho, -⟩ := actOutput_next s hs
  cases e.symm.trans e'
  refine ⟨own, ?_, fun o => ?_, by rw [hi]; simp, ?_⟩
  · cases hp : s.proc with
    | none => rw [actOutput_empty s hp] at e; cases e; exact hn
    | some h =>
      obtain ⟨b, -, rfl⟩ := (actOutput_eq_next s _ h hp).1 e
      intro k c hc
      simp only [State.countOutput_mem, State.removeBuffer_mem, State.handToEncoder_mem, Memory.find_remove _ _ _ hs.wf] at hc
      split at hc
      · cases hc
      · exact hn k c hc
  · rw [hold]; split <;> rfl
  · rw [ho]; cases s.proc <;> simp [occupied]

theorem alloc_of_actFilter {s t : State} {g : Nat} {b : Buffer} (hg : s.gray = some g)
    (hb : s.mem.find g = some b) (e : actFilter s = .next t) :
    s.allocAnswer .gray b.width.toNat b.height.toNat = true := by
  unfold actFilter at e
  rw [hg] at e
  simp only [withBuffer_live s g _ b hb, bindNext_eq_next] at e
  obtain ⟨u, h1, v, h2, -⟩ := e
  obtain ⟨c, hc, -, -, -, rfl⟩ := (fbMove_eq_next _ _ _ _).1 h1
  obtain ⟨-, -, -, ha, -⟩ := (fbCreate_eq_next _ _ _ _ _ _).1 h2
  simpa [State.allocAnswer] using ha

theorem alloc_of_actConvert {s t : State} {r : Nat} {b : Buffer} (hr : s.raw = some r)
    (hb : s.mem.find r = some b) (e : actConvert s = .next t) :
    s.allocAnswer .gray b.width.toNat b.height.toNat = true := by
  unfold actConvert at e
  rw [hr] at e
  simp only [withBuffer_live s r _ b hb, bindNext_eq_next] at e
  obtain ⟨u, h1, -⟩ := e
  exact ((fbCreate_eq_next _ _ _ _ _ _).1 h1).2.2.2.1

theorem moved_actFilter {s t : State} (hs : Owned s) (hn : NoHost s) (h1 : s.ppSrc = none) (h2 : s.ppDst = none)
    (h3 : s.proc = none) (e : actFilter s = .next t) :
    Moved s t (fun o => if o = .proc then occupied s.gray else if o = .gray then 0 else occupied (s.holder o)) 0 0 := by
  have own := hs.actFilter e
  have c := SameControls.actFilter e
  refine ⟨own, ?_, ?_, by rw [c.inCursor]; simp, by rw [c.outCursor]; simp⟩ <;>
  · cases hg : s.gray with
    | none =>
      rw [actFilter_empty s hg] at e; cases e
      first
      | exact hn
      | intro o
        by_cases ho : o = .proc
        · subst ho; simp [State.holder, h3, occupied]
        · by_cases ho' : o = .gray
          · subst ho'; simp [State.holder, hg, occupied]
          · simp [ho, ho']
    | some g =>
      obtain ⟨b, hb, -, -⟩ := hs.named .gray g hg
      obtain ⟨t', e', -, hold, -, -, hfind⟩ := actFilter_next s hs g b hg hb h1 h2 h3 (alloc_of_actFilter hg hb e)
      cases e.symm.trans e'
      first
      | intro k d hd
        rw [hfind] at hd
        split at hd
        · cases hd; simp
        · split at hd
          · cases hd
          · exact hn k d hd
      | intro o
        rw [hold]
        by_cases ho : o = .proc
        · simp [ho, occupied]
        · by_cases ho' : o = .gray
          · simp [ho', occupied]
          · simp [ho, ho']

theorem moved_actConvert {s t : State} (hs : Owned s) (hn : NoHost s) (h1 : s.cscOut = none) (h2 : s.gray = none)
    (e : actConvert s = .next t) :
    Moved s t (fun o => if o = .gray then occupied s.raw else if o = .raw then 0 else occupied (s.holder o)) 0 0 := by
  have own := hs.actConvert e
  have c := SameControls.actConvert e
  refine ⟨own, ?_, ?_, by rw [c.inCursor]; simp, by rw [c.outCursor]; simp⟩ <;>
  · cases hg : s.raw with
    | none =>
      rw [actConvert_empty s hg] at e; cases e
      first
      | exact hn
      | intro o
        by_cases ho : o = .gray
        · subst ho; simp [State.holder, h2, occupied]
        · by_cases ho' : o = .raw
          · subst ho'; simp [State.holder, hg, occupied]
          · simp [ho, ho']
    | some g =>
      obtain ⟨b, hb, -, -⟩ := hs.named .raw g hg
      obtain ⟨t', e', -, hold, -, -, hfind⟩ := actConvert_next s hs g b hg hb h1 h2 (alloc_of_actConvert hg hb e)
      cases e.symm.trans e'
      first
      | intro k d hd
        rw [hfind] at hd
        split at hd
        · cases hd; simp
        · split at hd
          · cases hd
          · exact hn k d hd
      | intro o
        rw [hold]
        by_cases ho : o = .gray
        · simp [ho, occupied]
        · by_cases ho' : o = .raw
          · simp [ho', occupied]
          · simp [ho, ho']

/-- ACT.INPUT takes in at most one frame; where one was pending and none was taken in, TOTAL is truncated. -/
theorem moved_actInput {s t : State} (hs : Owned s) (hn : NoHost s) (h1 : s.raw = none) (e : actInput s = .next t) :
    ∃ n, n ≤ 1 ∧ Moved s t (fun o => if o = .raw then n else occupied (s.holder o)) n 0
      ∧ (n = 1 → s.inCursor.toNat < s.total.toNat ∧ t.total = s.total)
      ∧ (n = 0 → t.total = s.inCursor ∨ (¬ s.inCursor.toNat < s.total.toNat ∧ t.total = s.total)) := by
  have own := hs.actInput e
  have same : ∀ o, occupied (s.holder o) = if o = .raw then 0 else occupied (s.holder o) := by
    intro o; split
    · rename_i h; subst h; simp [State.holder, h1, occupied]
    · rfl
  rcases (actInput_eq_next _ _).1 e with ⟨hlt, rfl⟩ | ⟨hlt, id, -, ⟨c, -, rfl⟩ | ⟨w, h, px, -, hg⟩⟩
  · exact ⟨0, by omega, ⟨own, hn, same, by simp, by simp⟩, by omega, fun _ => .inr ⟨hlt, rfl⟩⟩
  · exact ⟨0, by omega, ⟨own, hn, fun o => by rw [← same]; cases o <;> rfl, by simp, by simp⟩, by omega, fun _ => .inl rfl⟩
  · obtain ⟨-, -, -, rfl⟩ := (acceptGrid_eq_next _ _ _ _ _).1 hg
    refine ⟨1, le_refl _, ⟨own, ?_, ?_, by simp [State.countInput], by simp⟩, fun _ => ⟨hlt, by simp⟩, by omega⟩
    · intro k d hd
      simp only [State.countInput_mem, State.install_mem, Memory.find_put] at hd
      split at hd
      · cases hd; simp [Buffer.decoded]
      · exact hn k d hd
    · intro o
      simp only [State.holder_countInput, State.holder_install, State.holder_afterAlloc, State.holder_afterDecode]
      by_cases ho : o = .raw
      · subst ho; simp [Buffer.decoded, occupied]
      · rw [if_neg ho, if_neg]
        rintro ⟨q, -⟩; exact ho q.symm

/-- A whole tick from a run state: the registers shift by one stage, the cursors count, the slots stay EMPTY. -/
theorem moved_schedTick {s t : State} (hs : Owned s) (hn : NoHost s) (h1 : s.ppSrc = none) (h2 : s.ppDst = none)
    (h3 : s.cscOut = none) (e : schedTick s = .next t) :
    Owned t ∧ NoHost t ∧ t.ppSrc = none ∧ t.ppDst = none ∧ t.cscOut = none ∧ t.phase = .idle ∧
    occupied t.gray = occupied s.raw ∧ occupied t.proc = occupied s.gray ∧
    t.outCursor = s.outCursor + BitVec.ofNat 32 (occupied s.proc) ∧
    ∃ n, n ≤ 1 ∧ occupied t.raw = n ∧ t.inCursor = s.inCursor + BitVec.ofNat 32 n
      ∧ (n = 1 → s.inCursor.toNat < s.total.toNat ∧ t.total = s.total)
      ∧ (n = 0 → t.total = s.inCursor ∨ (¬ s.inCursor.toNat < s.total.toNat ∧ t.total = s.total)) := by
  unfold schedTick at e
  simp only [bindNext_eq_next] at e
  obtain ⟨s1, e1, s2, e2, s3, e3, s4, e4, e5⟩ := e
  cases e5
  have total1 : s1.total = s.total := by
    obtain ⟨t', e', -, -, -, -, -, -, -, q, -⟩ := actOutput_next _ ((hs.congr rfl rfl (fun o => by simp)) : Owned (s.countTick.enterPhase .output))
    cases e1.symm.trans e'; exact q
  have m1 := moved_actOutput (s := s.countTick.enterPhase .output) (hs.congr rfl rfl (fun o => by simp)) hn e1
  have o1 : ∀ o, occupied ((s1.enterPhase .filter).holder o) = if o = .proc then 0 else occupied (s.holder o) := by
    intro o; rw [State.holder_enterPhase, m1.occ]; simp
  have m2 := moved_actFilter (s := s1.enterPhase .filter) (m1.owned.enterPhase _) m1.noHost
    ((occupied_zero _).1 (by have := o1 .ppSrc; simpa [State.holder, h1, occupied] using this))
    ((occupied_zero _).1 (by have := o1 .ppDst; simpa [State.holder, h2, occupied] using this))
    ((occupied_zero _).1 (o1 .proc)) e2
  have c2 := SameControls.actFilter e2
  have o2 : ∀ o, occupied ((s2.enterPhase .convert).holder o)
      = if o = .proc then occupied s.gray else if o = .gray then 0 else occupied (s.holder o) := by
    intro o; rw [State.holder_enterPhase, m2.occ, o1]
    by_cases ho : o = .proc
    · simp only [ho, if_true]; exact o1 .gray
    · simp [ho]
  have m3 := moved_actConvert (s := s2.enterPhase .convert) (m2.owned.enterPhase _) m2.noHost
    ((occupied_zero _).1 (by have := o2 .cscOut; simpa [State.holder, h3, occupied] using this))
    ((occupied_zero _).1 (o2 .gray)) e3
  have c3 := SameControls.actConvert e3
  have o3 : ∀ o, occupied ((s3.enterPhase .input).holder o)
      = if o = .gray then occupied s.raw else if o = .raw then 0 else if o = .proc then occupied s.gray else occupied (s.holder o) := by
    intro o; rw [State.holder_enterPhase, m3.occ, o2]
    by_cases ho : o = .gray
    · simp only [ho, if_true]; exact o2 .raw
    · simp [ho]
  obtain ⟨n, hn1, m4, k1, k0⟩ := moved_actInput (s := s3.enterPhase .input) (m3.owned.enterPhase _) m3.noHost
    ((occupied_zero _).1 (o3 .raw)) e4
  have i3 : (s3.enterPhase .input).inCursor = s.inCursor := by
    refine (c3.inCursor.trans (c2.inCursor.trans ?_))
    show s1.inCursor = _
    rw [m1.inc]; simp
  have t3 : (s3.enterPhase .input).total = s.total := c3.total.trans (c2.total.trans total1)
  have u3 : (s3.enterPhase .input).outCursor = s.outCursor + BitVec.ofNat 32 (occupied s.proc) := by
    refine (c3.outCursor.trans (c2.outCursor.trans ?_))
    show s1.outCursor = _
    rw [m1.out]; rfl
  have o4 : ∀ o, occupied ((s4.enterPhase .idle).holder o) = if o = .raw then n
      else if o = .gray then occupied s.raw else if o = .proc then occupied s.gray else occupied (s.holder o) := by
    intro o; rw [State.holder_enterPhase, m4.occ, o3]
    by_cases ho : o = .raw <;> simp [ho]
  rw [i3, t3] at k1 k0
  refine ⟨m4.owned.enterPhase _, m4.noHost, ?_, ?_, ?_, rfl, o4 .gray, o4 .proc, ?_, n, hn1, o4 .raw, ?_, k1, k0⟩
  · exact (occupied_zero _).1 ((o4 .ppSrc).trans (by simp [State.holder, h1, occupied]))
  · exact (occupied_zero _).1 ((o4 .ppDst).trans (by simp [State.holder, h2, occupied]))
  · exact (occupied_zero _).1 ((o4 .cscOut).trans (by simp [State.holder, h3, occupied]))
  · show s4.outCursor = _
    rw [m4.out, u3]; simp
  · show s4.inCursor = _
    rw [m4.inc, i3]

/-- A tick that completes leads from a run state to a run state, with less work left while OUT_CURSOR < TOTAL. -/
theorem InRun.schedTick {s t : State} (h : InRun s) (e : schedTick s = .next t) :
    InRun t ∧ (s.outCursor.toNat < s.total.toNat → t.workLeft < s.workLeft) := by
  have pk := PortKeeps.schedTick e
  obtain ⟨own, nh, z1, z2, z3, ph, og, op, oc, n, hn, or_, ic, k1, k0⟩ := moved_schedTick h.owned h.noHost h.srcEmpty h.dstEmpty h.cscEmpty e
  have idem : ∀ u : State, u.phase = .idle → u.enterPhase .idle = u := by intro u hu; cases u; simp only at hu; subst hu; rfl
  have con : Control t := by
    have := pk.control (by rw [idem s h.control.phaseIdle]; exact h.control)
    rwa [idem t ph] at this
  have gap := h.cursorGap
  have cur := h.control.cursors
  have l1 := occupied_le s.raw
  have l2 := occupied_le s.gray
  have l3 := occupied_le s.proc
  have lt := s.total.isLt
  simp only [State.inFlight] at gap
  have oc' : t.outCursor.toNat = s.outCursor.toNat + occupied s.proc := by
    rw [oc, BitVec.toNat_add, BitVec.toNat_ofNat]; omega
  have ic' : t.inCursor.toNat = s.inCursor.toNat + n := by
    rw [ic, BitVec.toNat_add, BitVec.toNat_ofNat]
    rcases Nat.lt_or_ge 0 n with q | q
    · have := (k1 (by omega)).1; omega
    · omega
  refine ⟨⟨own, con, z1, z2, z3, nh, ?_⟩, fun hlt => ?_⟩
  · simp only [State.inFlight]; omega
  · simp only [State.workLeft]
    have cur' := con.cursors
    rcases Nat.lt_or_ge 0 n with q | q
    · obtain ⟨q1, q2⟩ := k1 (by omega)
      rw [q2] at cur' ⊢
      omega
    · rcases k0 (by omega) with q1 | ⟨q1, q2⟩
      · rw [q1] at cur' ⊢; omega
      · rw [q2]; omega

/-- RC and the run bit are no part of a run state but for DONE. -/
theorem InRun.congrRc {s t : State} (h : InRun s) (ht : t = { s with rc := t.rc, running := t.running }) (hd : t.running = true → s.done = false) : InRun t := by
  rw [ht]
  obtain ⟨c1,c2,c3,c4,c5,c6,c7,c8,c9⟩ := h.control
  refine ⟨h.owned.congr rfl rfl (fun o => by cases o <;> rfl), ⟨c1,c2,c3,c4,c5,c6,c7,c8, hd⟩, h.srcEmpty, h.dstEmpty, h.cscEmpty, h.noHost, h.cursorGap⟩

end Sys2Proof.Machine
end

