-- ==== Sys2Proof/Laws/TickBlind.lean ====
section
/-!
SUPPORT. No operation reads TICK to decide anything (R213): with another value of TICK each ends the same way, in the same
refusal, or in a next state or a fault that differs in TICK only. Operation by operation, and closed under sequence.
-/
namespace Sys2Proof.Machine

/-- `s` with the value `n` for TICK. -/
def State.withTick (s : State) (n : BitVec 32) : State := { s with tick := n }

@[simp] theorem State.withTick_mem (s : State) (n : BitVec 32) : (s.withTick n).mem = s.mem := rfl

@[simp] theorem State.withTick_ppSrc (s : State) (n : BitVec 32) : (s.withTick n).ppSrc = s.ppSrc := rfl

@[simp] theorem State.withTick_ppDst (s : State) (n : BitVec 32) : (s.withTick n).ppDst = s.ppDst := rfl

/-- With another value of TICK, `f` ends the same way, TICK apart. -/
def TickBlind (f : State → Result) : Prop :=
  ∀ s n, ∃ m, f (s.withTick n) = tickReplaced m (f s)

theorem TickBlind.refuse (q : Refusal) : TickBlind (fun _ => .refused q) := fun _ n => ⟨n, rfl⟩

theorem TickBlind.pure {f : State → State} (hf : ∀ s n, ∃ m, f (s.withTick n) = (f s).withTick m) :
    TickBlind (fun s => .next (f s)) := fun s n => by
  obtain ⟨m, h⟩ := hf s n
  exact ⟨m, congrArg Host.Outcome.next h⟩

theorem TickBlind.bind {f g : State → Result} (hf : TickBlind f) (hg : TickBlind g) :
    TickBlind (fun s => bindNext (f s) g) := by
  intro s n
  obtain ⟨m, e⟩ := hf s n
  simp only [e]
  cases f s with
  | next t => exact hg t m
  | fault a => cases a; exact ⟨m, rfl⟩
  | refused q => exact ⟨m, rfl⟩

/-- Behind an update that TICK passes through. -/
theorem TickBlind.comp {f : State → Result} {u : State → State} (hf : TickBlind f)
    (hu : ∀ s n, ∃ m, u (s.withTick n) = (u s).withTick m) : TickBlind (fun s => f (u s)) := by
  intro s n
  obtain ⟨m, e⟩ := hu s n
  obtain ⟨m', h⟩ := hf (u s) m
  exact ⟨m', (congrArg f e).trans h⟩

/-- A choice by something that is the same whatever TICK is. -/
theorem TickBlind.ite {c : State → Prop} [∀ s, Decidable (c s)] {f g : State → Result}
    (hc : ∀ s n, c (s.withTick n) ↔ c s) (hf : TickBlind f) (hg : TickBlind g) :
    TickBlind (fun s => if c s then f s else g s) := by
  intro s n
  by_cases h : c s
  · obtain ⟨m, e⟩ := hf s n
    exact ⟨m, by simpa only [if_pos h, if_pos ((hc s n).2 h)] using e⟩
  · obtain ⟨m, e⟩ := hg s n
    exact ⟨m, by simpa only [if_neg h, if_neg (fun q => h ((hc s n).1 q))] using e⟩

/-- A choice by the handle a register or a slot holds. -/
theorem TickBlind.slot {slot : State → Option Nat} (hs : ∀ s n, slot (s.withTick n) = slot s)
    {none_ : State → Result} {some_ : Nat → State → Result} (hn : TickBlind none_) (hk : ∀ h, TickBlind (some_ h)) :
    TickBlind (fun s => match slot s with | none => none_ s | some h => some_ h s) := by
  intro s n
  simp only [hs]
  cases slot s with
  | none => exact hn s n
  | some h => exact hk h s n

theorem TickBlind.withBuffer {h : State → Nat} (hh : ∀ s n, h (s.withTick n) = h s) {k : Buffer → State → Result}
    (hk : ∀ b, TickBlind (k b)) : TickBlind (fun s => withBuffer s (h s) fun b => k b s) := by
  intro s n
  unfold Sys2Proof.Machine.withBuffer
  simp only [hh, State.withTick_mem]
  cases s.mem.find (h s) with
  | none => exact ⟨n, rfl⟩
  | some b => exact hk b s n

theorem TickBlind.withHost {h : State → Nat} (hh : ∀ s n, h (s.withTick n) = h s) {k : Buffer → State → Result}
    (hk : ∀ b, TickBlind (k b)) : TickBlind (fun s => withHostBuffer s (h s) fun b => k b s) := by
  refine TickBlind.withBuffer (k := fun b s => if b.owner = .host then k b s else .refused (.notHostOwned (h s))) hh
    fun b s n => ?_
  simp only [hh]
  split
  · exact hk b s n
  · exact ⟨n, rfl⟩

/-! ### The frame-buffer operations -/

theorem setHolder_tick (s : State) (n : BitVec 32) (o : OwnerTag) (v : Option Nat) :
    (s.withTick n).setHolder o v = (s.setHolder o v).withTick n := by cases o <;> rfl

theorem holder_tick (s : State) (n : BitVec 32) (o : OwnerTag) : (s.withTick n).holder o = s.holder o := by
  cases o <;> rfl

theorem install_tick (s : State) (n : BitVec 32) (b : Buffer) :
    (s.withTick n).install b = (s.install b).withTick n := by
  unfold State.install
  cases b.owner <;> rfl

theorem handTo_tick (s : State) (n : BitVec 32) (h : Nat) (b : Buffer) (o : OwnerTag) :
    (s.withTick n).handTo h b o = (s.handTo h b o).withTick n := by
  unfold State.handTo
  cases o <;> cases b.owner <;> rfl

theorem TickBlind.raise {u : State → State} (hu : ∀ s n, u (s.withTick n) = (u s).withTick n) :
    TickBlind (fun s => raiseAllocation (u s)) := fun s n => ⟨n, congrArg raiseAllocation (hu s n)⟩

theorem tickBlind_fbCreate (t w h o) : TickBlind (fbCreate t w h o) :=
  .ite (fun _ _ => Iff.rfl) (.refuse _) <|
  .ite (fun s n => by rw [holder_tick]) (.refuse _) <|
  .ite (fun _ _ => Iff.rfl) (.pure fun s n => ⟨n, install_tick (s.afterAlloc t w.toNat h.toNat) n _⟩) (.raise fun _ _ => rfl)

theorem tickBlind_fbDestroy (h) : TickBlind (fbDestroy h) :=
  .withBuffer (h := fun _ => h) (fun _ _ => rfl) fun _ => .pure fun _ n => ⟨n, rfl⟩

theorem tickBlind_fbMove (h o) : TickBlind (fbMove h o) :=
  .withBuffer (h := fun _ => h) (fun _ _ => rfl) fun b =>
    .ite (fun _ _ => Iff.rfl) (.refuse _) <|
    .ite (fun _ _ => Iff.rfl) (.refuse _) <|
    .ite (fun s n => by rw [holder_tick]) (.refuse _) (.pure fun s n => ⟨n, handTo_tick s n h b o⟩)

theorem tickBlind_ppSwap : TickBlind ppSwap := by
  intro s n
  unfold ppSwap
  rcases hs : s.ppSrc with _ | a <;> rcases hd : s.ppDst with _ | b <;> simp only [State.withTick_ppSrc, State.withTick_ppDst, hs, hd]
  · exact ⟨n, rfl⟩
  · exact ⟨n, rfl⟩
  · exact ⟨n, rfl⟩
  · exact TickBlind.withBuffer (h := fun _ => a) (fun _ _ => rfl) (fun ba => .withBuffer (h := fun _ => b)
      (k := fun bb s => .next (s.exchange a b ba bb)) (fun _ _ => rfl) fun _ => .pure fun _ n => ⟨n, rfl⟩) s n

/-! ### The datapath operations -/

theorem tickBlind_cscConvert (r g) : TickBlind (cscConvert r g) :=
  .withBuffer (h := fun _ => r) (fun _ _ => rfl) fun _ => .withBuffer (h := fun _ => g) (fun _ _ => rfl) fun _ =>
    .ite (fun _ _ => Iff.rfl) (.refuse _) <| .ite (fun _ _ => Iff.rfl) (.refuse _) <|
    .ite (fun _ _ => Iff.rfl) (.pure fun _ n => ⟨n, rfl⟩) (.pure fun _ n => ⟨n, rfl⟩)

theorem tickBlind_convApply (pix : Params → Bool → Buffer → Nat → Nat → Byte) (r g) :
    TickBlind (fun s => convApply (pix s.params s.modeFloat) r g s) :=
  .withBuffer (h := fun _ => r) (fun _ _ => rfl) fun _ => .withBuffer (h := fun _ => g) (fun _ _ => rfl) fun _ =>
    .ite (fun _ _ => Iff.rfl) (.refuse _) <| .ite (fun _ _ => Iff.rfl) (.refuse _) <|
    .ite (fun _ _ => Iff.rfl) (.refuse _) <| .ite (fun _ _ => Iff.rfl) (.refuse _) (.pure fun _ n => ⟨n, rfl⟩)

theorem tickBlind_convKernel (k : KernelId) (r g) : TickBlind (convKernel k r g) :=
  tickBlind_convApply (fun p m => convPixel p m k) r g

theorem tickBlind_sobelMag (r g) : TickBlind (sobelMag r g) := tickBlind_convApply sobelPixel r g

/-! ### The actions -/

theorem tickBlind_filterPass (op : Nat → Nat → State → Result) (h : ∀ a b, TickBlind (op a b)) :
    TickBlind (filterPass op) := by
  intro s n
  unfold filterPass
  rcases hs : s.ppSrc with _ | a <;> rcases hd : s.ppDst with _ | b <;> simp only [State.withTick_ppSrc, State.withTick_ppDst, hs, hd]
  · exact ⟨n, rfl⟩
  · exact ⟨n, rfl⟩
  · exact ⟨n, rfl⟩
  · exact ((h a b).bind tickBlind_ppSwap) s n

theorem tickBlind_filterPassIf (f : State → Bool) (hf : ∀ s n, f (s.withTick n) = f s)
    (op : Nat → Nat → State → Result) (h : ∀ a b, TickBlind (op a b)) : TickBlind (fun s => filterPassIf (f s) op s) :=
  .ite (fun s n => by rw [hf]) (tickBlind_filterPass op h) (.pure fun _ n => ⟨n, rfl⟩)

theorem tickBlind_filterPasses : TickBlind filterPasses :=
  (tickBlind_filterPass _ (tickBlind_convKernel .blur)).bind <|
  (tickBlind_filterPassIf _ (fun _ _ => rfl) _ (tickBlind_convKernel .gaussian)).bind <|
  (tickBlind_filterPassIf _ (fun _ _ => rfl) _ (tickBlind_convKernel .sharpen)).bind <|
  tickBlind_filterPassIf _ (fun _ _ => rfl) _ tickBlind_sobelMag

theorem tickBlind_moveHeld {slot : State → Option Nat} (hs : ∀ s n, slot (s.withTick n) = slot s) (o) :
    TickBlind (fun s => moveHeld (slot s) o s) :=
  .slot hs (.refuse .emptySlot) fun h => tickBlind_fbMove h o

theorem tickBlind_dropScratch : TickBlind dropScratch :=
  .slot (slot := State.ppDst) (fun _ _ => rfl) (.refuse .emptySlot) fun h =>
    (tickBlind_fbDestroy h).bind (.pure fun _ n => ⟨n, rfl⟩)

theorem tickBlind_actFilter : TickBlind actFilter :=
  .slot (slot := State.gray) (fun _ _ => rfl) (.pure fun _ n => ⟨n, rfl⟩) fun g =>
    .withBuffer (h := fun _ => g) (fun _ _ => rfl) fun b =>
      (tickBlind_fbMove g .ppSrc).bind <| (tickBlind_fbCreate .gray b.width b.height .ppDst).bind <|
      tickBlind_filterPasses.bind <| tickBlind_dropScratch.bind <|
      tickBlind_moveHeld (slot := State.ppSrc) (fun _ _ => rfl) .proc

theorem tickBlind_convertHeld (r) : TickBlind (convertHeld r) :=
  .slot (slot := State.cscOut) (fun _ _ => rfl) (.refuse .emptySlot) fun g => tickBlind_cscConvert r g

theorem tickBlind_actConvert : TickBlind actConvert :=
  .slot (slot := State.raw) (fun _ _ => rfl) (.pure fun _ n => ⟨n, rfl⟩) fun r =>
    .withBuffer (h := fun _ => r) (fun _ _ => rfl) fun b =>
      (tickBlind_fbCreate .gray b.width b.height .cscOut).bind <| (tickBlind_convertHeld r).bind <|
      (tickBlind_fbDestroy r).bind <|
      (tickBlind_moveHeld (slot := State.cscOut) (fun _ _ => rfl) .gray).comp (u := fun s => s.setHolder .raw none)
        fun _ n => ⟨n, rfl⟩

theorem tickBlind_actOutput : TickBlind actOutput :=
  .slot (slot := State.proc) (fun _ _ => rfl) (.pure fun _ n => ⟨n, rfl⟩) fun h =>
    .withBuffer (h := fun _ => h) (fun _ _ => rfl) fun b =>
      ((tickBlind_fbDestroy h).comp (u := fun s => s.handToEncoder b) fun s n => ⟨n, by
        unfold State.handToEncoder
        have : (s.withTick n).encodeAnswer (s.withTick n).outCursor.toNat b
          = s.encodeAnswer s.outCursor.toNat b := rfl
        rw [this]
        cases s.encodeAnswer s.outCursor.toNat b <;> rfl⟩).bind (.pure fun _ n => ⟨n, rfl⟩)

theorem tickBlind_acceptGrid (w h : Nat) (px : List Pixel) : TickBlind (acceptGrid w h px) :=
  .ite (fun _ _ => Iff.rfl) (.refuse _) <| .ite (fun _ _ => Iff.rfl) (.refuse _) <|
  .ite (fun _ _ => Iff.rfl)
    (.pure fun s n => ⟨n, congrArg State.countInput (install_tick (s.afterAlloc .rgb w h) n _)⟩) (.raise fun _ _ => rfl)

theorem tickBlind_actInput : TickBlind actInput := by
  refine .ite (fun _ _ => Iff.rfl) (fun s n => ?_) (.pure fun _ n => ⟨n, rfl⟩)
  have hp : (s.withTick n).pending[(s.withTick n).inCursor.toNat]? = s.pending[s.inCursor.toNat]? := rfl
  simp only [hp]
  cases s.pending[s.inCursor.toNat]? with
  | none => exact ⟨n, rfl⟩
  | some id =>
    have hd : (s.withTick n).decodeAnswer id = s.decodeAnswer id := rfl
    simp only [hd]
    cases s.decodeAnswer id with
    | error c => exact ⟨n, rfl⟩
    | grid w h px => exact tickBlind_acceptGrid w h px (s.afterDecode id) n

/-! ### TICK, RUN and the command port -/

theorem tickBlind_schedTick : TickBlind schedTick := by
  have ph : ∀ (p : Phase) {f : State → Result}, TickBlind f → TickBlind (fun s => f (s.enterPhase p)) :=
    fun p _ hf => hf.comp fun _ n => ⟨n, rfl⟩
  exact ((ph .output tickBlind_actOutput).comp (u := State.countTick) fun _ n => ⟨n + 1, rfl⟩).bind <|
    (ph _ tickBlind_actFilter).bind <| (ph _ tickBlind_actConvert).bind <| (ph _ tickBlind_actInput).bind <|
    .pure fun _ n => ⟨n, rfl⟩

theorem tickBlind_nestedCode (b : State) : TickBlind (fun s => .next (nestedCode b s)) :=
  .pure fun _ n => ⟨n, rfl⟩

/-- The tick with its result code. -/
theorem tickBlind_codedTick : TickBlind (fun s => bindNext (schedTick s) fun t => .next (nestedCode s t)) :=
  fun s => tickBlind_schedTick.bind (tickBlind_nestedCode s) s

theorem tickBlind_two {f : Nat → Nat → State → Result} (hf : ∀ a b, TickBlind (f a b)) :
    TickBlind (fun s => withHostBuffer s s.ports.h0 fun _ => withHostBuffer s s.ports.h1 fun _ =>
      f s.ports.h0 s.ports.h1 s) :=
  .withHost (fun _ _ => rfl) fun _ => .withHost (fun _ _ => rfl) fun _ s n => hf s.ports.h0 s.ports.h1 s n

theorem tickBlind_portBody (i : Instr) : TickBlind (portBody i) := by
  cases i with
  | fbCreate t =>
    intro s n
    exact ((tickBlind_fbCreate t s.ports.dw s.ports.dh .host).bind
      (.pure (f := fun u => u.giveHandle s.nextHandle) fun _ n => ⟨n, rfl⟩)) s n
  | fbGet => exact .withHost (fun _ _ => rfl) fun b => .pure fun _ n => ⟨n, rfl⟩
  | fbSet => exact .withHost (fun _ _ => rfl) fun b => .pure fun _ n => ⟨n, rfl⟩
  | fbDestroy => exact .withHost (fun _ _ => rfl) fun _ s n => tickBlind_fbDestroy s.ports.h0 s n
  | fbMove o =>
    exact .withBuffer (fun _ _ => rfl) fun b =>
      .ite (fun _ _ => Iff.rfl) (fun s n => tickBlind_fbMove s.ports.h0 o s n) fun _ n => ⟨n, rfl⟩
  | ppSwap => exact tickBlind_ppSwap
  | cscConvert => exact tickBlind_two tickBlind_cscConvert
  | convBlur => exact tickBlind_two (tickBlind_convKernel .blur)
  | convSharpen => exact tickBlind_two (tickBlind_convKernel .sharpen)
  | convGaussian => exact tickBlind_two (tickBlind_convKernel .gaussian)
  | convSobelX => exact tickBlind_two (tickBlind_convKernel .sobelX)
  | convSobelY => exact tickBlind_two (tickBlind_convKernel .sobelY)
  | sobelMag => exact tickBlind_two tickBlind_sobelMag
  | actOutput => exact tickBlind_actOutput
  | actFilter => exact tickBlind_actFilter
  | actConvert => exact tickBlind_actConvert
  | actInput => exact tickBlind_actInput
  | tick => exact tickBlind_codedTick
  | run => exact .pure fun _ n => ⟨n, rfl⟩

theorem tickBlind_runIteration : TickBlind runIteration :=
  .ite (fun _ _ => Iff.rfl) tickBlind_codedTick (.pure fun _ n => ⟨n, rfl⟩)

end Sys2Proof.Machine
end

