-- ==== Sys2Proof/Tests/Slice0.lean ====
section
/-!
SUPPORT. The model's own tests: well-formedness, decoding of words written out bit by bit, single steps on the vectors
of spec/95_test_vectors.md (named T-... below), and a witness for the hypotheses of each statement.
-/
namespace Sys2Proof.Tests

open Sys2Proof Sys2Proof.Machine

/-! ### Well-formedness and encoding -/

theorem test_wellFormed_refuses_move_to_free : (Instr.fbMove .free).wellFormed = false := by decide
theorem test_wellFormed_accepts_move_to_host : (Instr.fbMove .host).wellFormed = true := by decide

-- the opcode map of R93, one word for each constructor
theorem test_word_fbCreate_gray : decode 0b00010000#8 = .instr (.fbCreate .gray) := by decide
theorem test_word_fbCreate_rgb : decode 0b00010001#8 = .instr (.fbCreate .rgb) := by decide
theorem test_word_fbGet : decode 0b00100000#8 = .instr .fbGet := by decide
theorem test_word_fbSet : decode 0b00110000#8 = .instr .fbSet := by decide
theorem test_word_fbDestroy : decode 0b01000000#8 = .instr .fbDestroy := by decide
theorem test_word_fbMove : decode 0b01010001#8 = .instr (.fbMove .raw) ∧ decode 0b01010010#8 = .instr (.fbMove .gray) ∧
    decode 0b01010011#8 = .instr (.fbMove .proc) ∧ decode 0b01010100#8 = .instr (.fbMove .ppSrc) ∧
    decode 0b01010101#8 = .instr (.fbMove .ppDst) ∧ decode 0b01010110#8 = .instr (.fbMove .cscOut) ∧
    decode 0b01010111#8 = .instr (.fbMove .host) := by decide
theorem test_word_ppSwap : decode 0b01100000#8 = .instr .ppSwap := by decide
theorem test_word_cscConvert : decode 0b01110000#8 = .instr .cscConvert := by decide
theorem test_word_convBlur : decode 0b10000000#8 = .instr .convBlur := by decide
theorem test_word_convSharpen : decode 0b10000001#8 = .instr .convSharpen := by decide
theorem test_word_convGaussian : decode 0b10000010#8 = .instr .convGaussian := by decide
theorem test_word_convSobelX : decode 0b10000011#8 = .instr .convSobelX := by decide
theorem test_word_convSobelY : decode 0b10000100#8 = .instr .convSobelY := by decide
theorem test_word_sobelMag : decode 0b10010000#8 = .instr .sobelMag := by decide
theorem test_word_actOutput : decode 0b10100000#8 = .instr .actOutput := by decide
theorem test_word_actFilter : decode 0b10100001#8 = .instr .actFilter := by decide
theorem test_word_actConvert : decode 0b10100010#8 = .instr .actConvert := by decide
theorem test_word_actInput : decode 0b10100011#8 = .instr .actInput := by decide
theorem test_word_tick : decode 0b10110000#8 = .instr .tick := by decide
theorem test_word_run : decode 0b11000000#8 = .instr .run := by decide

/-- T-ENC-10. -/
theorem test_reserved_words : ∀ b ∈ [0x00#8, 0x12#8, 0x18#8, 0x21#8, 0x50#8, 0x58#8, 0x85#8, 0x87#8, 0x91#8, 0xA4#8,
    0xB8#8, 0xC1#8, 0xD0#8, 0xFF#8], decodeTableWord 8 b.toNat = none := by decide

/-- T-ENC-18, T-ENC-19, T-ENC-20: the packed entries, most significant 16 bits first. -/
theorem test_kernel_entries :
    kernelBlur.pack = 0x00000009003A003A003A003A003A003A003A003A003A#176 ∧
    kernelGaussian.pack = 0x00000004000100020001000200040002000100020001#176 ∧
    kernelSobelX.pack = 0x0000000000010000FFFF00020000FFFE00010000FFFF#176 := by decide

/-- R143: the binary32 patterns of the three luma constants. -/
theorem test_luma_constants : fconst binary32 299 1000 = Flt.ofBinary32 0x3E991687#32 ∧
    fconst binary32 587 1000 = Flt.ofBinary32 0x3F1645A2#32 ∧ fconst binary32 114 1000 = Flt.ofBinary32 0x3DE978D5#32 := by
  decide +kernel

/-- R98: the register numbers. -/
theorem test_register_numbers : regNumber .raw = 0 ∧ regNumber .gray = 1 ∧ regNumber .proc = 2 ∧ regOfNumber 3 = none := by
  decide

/-- R258: the reference limits of Decode's contract, at their edges. -/
theorem test_decodeContract : decodeContract 4 1 (List.replicate 4 default) = true ∧
    decodeContract 1924 1 (List.replicate 1924 default) = false ∧ decodeContract 5 1 (List.replicate 5 default) = false := by
  decide +kernel

/-- T-ENC-11, T-ENC-12: CTRL bits. -/
theorem test_ctrl_bits :
    let s := { State.reset with ctrl := 0x0D#8 }
    State.reset.enGauss && State.reset.enSharp && State.reset.enSobel && !State.reset.modeFloat
      && s.enGauss && !s.enSharp && s.enSobel && s.modeFloat = true := by decide

/-- T-ENC-14: STATUS after a decode failure of cause 4 and the end of the run. -/
theorem test_status_bits : statusDone (statusDecFail 0#8 (causeCode .unsupportedChannelDepth)) = 0x25#8 := by decide

/-! ### States -/

/-- The next state, if any. -/
def after (r : Result) : Option State :=
  match r with
  | .next s => some s
  | .fault _ => none
  | .refused _ => none

theorem after_some {r : Result} (h : (after r).isSome = true) : ∃ t, r = .next t := by
  cases r with
  | next s => exact ⟨s, rfl⟩
  | fault f => cases h
  | refused q => cases h

def grayBuffer (w h : BitVec 16) (bytes : List Byte) (o : OwnerTag) : Buffer :=
  { elem := .gray, width := w, height := h, owner := o, data := Store.ofBytes 0 bytes }

/-- Image A of spec/95. -/
def imageA (o : OwnerTag) : Buffer :=
  grayBuffer 4 4 [10, 20, 30, 40, 50, 60, 70, 80, 90, 100, 110, 120, 130, 140, 150, 160] o

/-- Image Q of spec/95. -/
def imageQ : Buffer := grayBuffer 3 3 [1, 2, 3, 4, 5, 6, 7, 8, 9] .host

/-- Four pixels of image C of spec/95, as a 4×1 buffer. -/
def imageC (o : OwnerTag) : Buffer :=
  { elem := .rgb, width := 4, height := 1, owner := o,
    data := Store.ofBytes 0 [255, 0, 0, 0, 255, 0, 0, 0, 255, 100, 150, 200] }

/-- The reset state with a store, the handles 0 and 1 on the ports, and the oracles' answers listed. -/
def bench (m : Memory) : State :=
  { State.reset with
    mem := m, nextHandle := m.length, ports := { Ports.zero with h1 := 1 },
    env := { Environment.start with allocs := [true, true, true], encodes := [.success] } }

/-- Image A and a fresh buffer of its size. -/
def benchA : State := bench [(0, imageA .host), (1, Buffer.fresh .gray 4 4 .host)]

/-- Image Q and a fresh buffer of its size. -/
def benchQ : State := bench [(0, imageQ), (1, Buffer.fresh .gray 3 3 .host)]

/-- Four pixels of image C and a fresh gray buffer of its size. -/
def benchC : State := bench [(0, imageC .host), (1, Buffer.fresh .gray 4 1 .host)]

/-- The ports with coordinates and a value. -/
def pointing (s : State) (x y : BitVec 32) (v : BitVec 24) : State :=
  { s with ports := { s.ports with x := x, y := y, v := v } }

/-- The bytes of a buffer after an operation, from offset 0. -/
def bytesAfter (r : Result) (h n : Nat) : Option (List Byte) :=
  (after r).map fun s => (List.range n).map (s.byteAt h)

/-- Why an operation is refused, if it is. -/
def refusal (r : Result) : Option Refusal :=
  match r with
  | .next _ => none
  | .fault _ => none
  | .refused q => some q

/-- The aborted state of an allocation failure, if it is one. -/
def aborted (r : Result) : Option State :=
  match r with
  | .next _ => none
  | .fault (.allocationError a) => some a
  | .refused _ => none

/-- The reset state with one buffer held by its owner. -/
def holding (o : OwnerTag) (b : Buffer) : State := (bench [(0, b)]).setHolder o (some 0)

/-! ### Single steps -/

theorem test_fbCreate : (after (exec (.fbCreate .gray)
    { bench [] with ports := { Ports.zero with dw := 4, dh := 3 } })).map
      (fun t => (t.rh, t.nextHandle, t.mem.length, t.rc)) = some (0, 1, 1, 0#3) := by decide

/-- T-FB-13. -/
theorem test_fbCreate_no_memory : (aborted (exec (.fbCreate .gray)
    { State.reset with
        ports := { Ports.zero with dw := 4, dh := 4 },
        env := { Environment.start with allocs := [false] } })).map
      (fun a => (a.status, a.rc, a.mem.length, a.nextHandle)) = some (0x02#8, 1#3, 0, 0) := by decide

/-- T-FB-8, on the element (3, 0) of image C. -/
theorem test_fbGet_rgb : (after (exec .fbGet (pointing benchC 3 0 0))).map (·.rv) = some 0x6496C8#24 := by decide

/-- T-FB-9: x = 4 on a 4-wide buffer is not element 4. -/
theorem test_fbGet_bounds : (after (exec .fbGet (pointing benchA 4 0 0))).map (·.rv) = some 0#24 := by decide

/-- T-FB-3: FB.SET h0, 1, 2, 77 writes byte 9. -/
theorem test_fbSet : bytesAfter (exec .fbSet (pointing benchA 1 2 77)) 0 11
    = some [10, 20, 30, 40, 50, 60, 70, 80, 90, 77, 110] := by decide

/-- T-FB-6. -/
theorem test_fbSet_negative : bytesAfter (exec .fbSet (pointing benchA (-1) 2 9)) 0 10
    = some [10, 20, 30, 40, 50, 60, 70, 80, 90, 100] := by decide

/-- T-FB-10, T-FB-11. -/
theorem test_fbDestroy : (after (exec .fbDestroy benchA)).map (fun t => (t.mem.length, refusal (exec .fbDestroy t)))
    = some (1, some (.deadHandle 0)) := by decide

/-- T-FB-14. -/
theorem test_fbMove : (after (exec (.fbMove .gray) benchA)).map
    (fun t => (t.gray, t.heldBuffer .gray)) = some (some 0, some (imageA .gray)) := by decide

/-- T-FB-16. -/
theorem test_fbMove_wrong_type : refusal (exec (.fbMove .raw) benchA) = some (.wrongElementType 0) := by decide

/-- T-FB-17. -/
theorem test_ppSwap : (after (exec .ppSwap
    { bench [(0, imageA .ppSrc), (1, Buffer.fresh .gray 4 4 .ppDst)] with ppSrc := some 0, ppDst := some 1 })).map
      (fun t => (t.ppSrc, t.ppDst, t.mem.find 0)) = some (some 1, some 0, some (imageA .ppDst)) := by decide

/-- T-FB-18. -/
theorem test_ppSwap_empty : refusal (exec .ppSwap (holding .ppSrc (imageA .ppSrc))) = some .emptySlot := by decide

/-- T-CSC-3, T-CSC-4, T-CSC-5, T-CSC-11. -/
theorem test_cscConvert_fixed : bytesAfter (exec .cscConvert benchC) 1 4 = some [76, 149, 28, 140] := by decide

/-- T-CSF-2 to T-CSF-4, T-CSF-6, in binary32. -/
theorem test_cscConvert_float : bytesAfter (exec .cscConvert { benchC with ctrl := 0x0F }) 1 4
    = some [76, 149, 29, 140] := by decide +kernel

/-- T-CSF-11 to T-CSF-16: the columns binary32 and binary64. -/
theorem test_luma_float_formats :
    ([(1, 1, 1), (128, 128, 128), (37, 37, 37), (253, 253, 253), (8, 80, 32), (0, 72, 24)].map fun c =>
      let p : Pixel := ⟨c.1, c.2.1, c.2.2⟩
      (lumaFloat binary32 p, lumaFloat binary64 p))
    = [(1, 0), (128, 127), (36, 37), (252, 253), (52, 53), (45, 44)] := by decide +kernel

/-- T-CONV-1. -/
theorem test_convBlur : bytesAfter (exec .convBlur benchA) 1 16
    = some [0, 0, 0, 0, 0, 61, 71, 0, 0, 101, 112, 0, 0, 0, 0, 0] := by decide +kernel

/-- T-CSC-23. -/
theorem test_csc_types : refusal (exec .cscConvert benchA) = some (.wrongElementType 0) := by decide

/-- T-CONV-13: the float table of equal weights 58, uniform 100. -/
theorem test_convBlur_float : bytesAfter (exec .convBlur
    { bench [(0, grayBuffer 3 3 [100, 100, 100, 100, 100, 100, 100, 100, 100] .host),
      (1, Buffer.fresh .gray 3 3 .host)] with ctrl := 0x08 }) 1 9 = some [0, 0, 0, 0, 101, 0, 0, 0, 0] := by
  decide +kernel

/-- T-CONV-4 on one interior pixel. -/
theorem test_convSharpen : bytesAfter (exec .convSharpen benchQ) 1 9 = some [0, 0, 0, 0, 5, 0, 0, 0, 0] := by
  decide +kernel

/-- T-CONV-2. -/
theorem test_convGaussian : bytesAfter (exec .convGaussian benchA) 1 16
    = some [0, 0, 0, 0, 0, 60, 70, 0, 0, 100, 110, 0, 0, 0, 0, 0] := by decide +kernel

/-- T-CONV-8. -/
theorem test_convSobelX : bytesAfter (exec .convSobelX benchQ) 1 9 = some [0, 0, 0, 0, 8, 0, 0, 0, 0] := by
  decide +kernel

/-- T-CONV-8. -/
theorem test_convSobelY : bytesAfter (exec .convSobelY benchQ) 1 9 = some [0, 0, 0, 0, 24, 0, 0, 0, 0] := by
  decide +kernel

/-- T-CONV-9: an arithmetic shift of a negative sum floors, then the bias is added. -/
theorem test_conv_floor :
    let k : Kernel := Kernel.ofInts ⟨0, 0, 0, 0, -1, 0, 0, 0, 0⟩ 1 4
    convFixed k imageQ 1 1 = 1#8 ∧ finishFixed k (-6) = 1#8 := by decide

/-- T-CONV-12: the same buffer twice. -/
theorem test_conv_same_buffer : refusal (exec .convBlur { benchA with ports := Ports.zero }) = some .sameBuffer := by
  decide

/-- T-SOB-4. -/
theorem test_sobelMag : bytesAfter (exec .sobelMag benchQ) 1 9 = some [0, 0, 0, 0, 32, 0, 0, 0, 0] := by decide +kernel

/-- T-SOB-6: the absolute value of a negative sum. -/
theorem test_sobelMag_negative :
    sobelFixed ktabDefault (grayBuffer 3 3 [0, 0, 0, 49, 19, 0, 0, 0, 0] .host) 1 1 = 98#8 := by decide +kernel

/-- R202's example, with the encoder answering success and with IOError. -/
theorem test_actOutput : (after (exec .actOutput (holding .proc (imageA .proc)))).map
    (fun t => (t.proc, t.outCursor, t.mem.length, t.status, t.env.calls.length)) = some (none, 1#32, 0, 0#8, 1) := by
  decide +kernel
theorem test_actOutput_ioError : (after (exec .actOutput { holding .proc (imageA .proc) with
    env := { Environment.start with encodes := [.ioError] } })).map (fun t => (t.proc, t.outCursor, t.status, t.rc))
      = some (none, 1#32, 0x80#8, 4#3) := by decide +kernel

/-- T-CH-0: one pass, the result in the scratch. -/
theorem test_actFilter_one_pass :
    let r := exec .actFilter { holding .gray (imageA .gray) with ctrl := 0x00 }
    bytesAfter r 1 11 = some [0, 0, 0, 0, 0, 61, 71, 0, 0, 101, 112] ∧
      (after r).map (fun t => (t.gray, t.proc, t.ppSrc, t.ppDst, t.mem.length)) = some (none, some 1, none, none, 1) := by
  decide +kernel

/-- T-CH-7: four passes, the result in the original with A's border. -/
theorem test_actFilter_four_passes :
    let r := exec .actFilter (holding .gray (imageA .gray))
    bytesAfter r 0 16 = some [10, 20, 30, 40, 50, 38, 98, 80, 90, 136, 136, 120, 130, 140, 150, 160] ∧
      (after r).map (·.proc) = some (some 0) := by decide +kernel

theorem test_actConvert :
    let r := exec .actConvert (holding .raw (imageC .raw))
    bytesAfter r 1 4 = some [76, 149, 28, 140] ∧
      (after r).map (fun t => (t.raw, t.gray, t.cscOut, t.mem.length)) = some (none, some 1, none, 1) := by
  decide +kernel

/-- A launched state with two identifiers pending and Decode's next answer. -/
def awaiting (a : DecodeAnswer) : State :=
  { bench [] with pending := [7, 8], total := 2, env := { (bench []).env with decodes := [a] } }

/-- A 2×1 frame. -/
def grid21 : DecodeAnswer := .grid 2 1 [⟨1, 2, 3⟩, ⟨4, 5, 6⟩]

theorem test_actInput : bytesAfter (exec .actInput (awaiting grid21)) 0 6 = some [1, 2, 3, 4, 5, 6] ∧
    (after (exec .actInput (awaiting grid21))).map (fun t => (t.raw, t.inCursor)) = some (some 0, 1#32) := by
  decide +kernel
theorem test_actInput_failure : (after (exec .actInput (awaiting (.error .rowAlignmentViolation)))).map
    (fun t => (t.raw, t.inCursor, t.total, t.status, t.rc)) = some (none, 0#32, 0#32, 0x1C#8, 2#3) := by decide +kernel

/-- Registers (RAW, GRAY, PROC) = (h2, h1, h0): R206's example, with one more frame pending. -/
def flow : State :=
  { bench [(0, imageA .proc), (1, imageA .gray), (2, imageC .raw)] with
    raw := some 2, gray := some 1, proc := some 0, inCursor := 3, total := 4, pending := [5, 6, 7, 8],
    env := { Environment.start with allocs := [true, true, true], decodes := [grid21], encodes := [.success] } }

/-- R206's example; the new frames stand in PROC (h1 after four passes), GRAY (h4) and RAW (h5). -/
theorem test_tick : (after (exec .tick flow)).map
    (fun t => ((t.raw, t.gray, t.proc), (t.outCursor, t.inCursor, t.tick), t.env.calls.length))
      = some ((some 5, some 4, some 1), (1#32, 4#32, 1#32), 5) := by decide +kernel
/-- R240, R250: the conditions of a tick whose Encode and whose Decode fail, in their order. -/
theorem test_tick_codes :
    { flow with env := { flow.env with encodes := [.ioError], decodes := [.error .invalidFormat] } }.tickCalls.filterMap
      OracleCall.code = [4#3, 2#3] := by decide
theorem test_run_tick : (after (exec .run flow)).map (fun t => (t.running, t.done, t.tick)) = some (true, false, 1#32) := by
  decide +kernel

/-- T-SCH-6: N = 0. -/
theorem test_run_nothing : (after (exec .run State.reset)).map (fun t => (t.running, t.status, t.tick, t.env.calls.length))
    = some (false, 0x01#8, 0#32, 0) := by decide

theorem test_step_runs_command : (after (step (benchA.withFetchWord 8 0x20))).map (·.rv) = some 10#24 := by decide
theorem test_step_reserved : refusal (step (State.reset.withFetchWord 8 0x50)) = some (.reservedCommand 0x50) := by decide

/-! ### Witnesses: concrete states and operands that meet the hypotheses of each statement -/

/-- A check that implies ownership on a concrete state. -/
def ownedCheck (s : State) : Bool :=
  s.mem.wf && s.mem.all (fun e => decide (e.1 < s.nextHandle) && (e.2.owner == .host || s.holder e.2.owner == some e.1))
    && [OwnerTag.free, .raw, .gray, .proc, .ppSrc, .ppDst, .cscOut, .host].all fun o =>
      match s.heldBuffer o with
      | some b => b.owner == o && acceptsType o b.elem
      | none => s.holder o == none

theorem owned_of_check {s : State} (h : ownedCheck s = true) : Owned s := by
  simp only [ownedCheck, Bool.and_eq_true, List.all_eq_true, decide_eq_true_eq, Bool.or_eq_true, beq_iff_eq] at h
  obtain ⟨⟨h1, h2⟩, h3⟩ := h
  refine ⟨h1, fun k b hb => (h2 _ (Memory.mem_of_find _ _ _ hb)).1, fun k b hb ho => ?_, fun o k hk => ?_⟩
  · exact (h2 _ (Memory.mem_of_find _ _ _ hb)).2.resolve_left ho
  · have h4 := h3 o (by cases o <;> simp)
    simp only [State.heldBuffer, hk, Option.bind_some] at h4
    cases hb : s.mem.find k with
    | none => simp [hb] at h4
    | some b => rw [hb] at h4; simp only [Bool.and_eq_true, beq_iff_eq] at h4; exact ⟨b, rfl, h4.1, h4.2⟩

/-- The operands each statement about CONV.* and SOBEL.MAG asks for: ConvolutionsComplete and those about FIXED mode. -/
theorem witness_ConvOperands : ConvOperands benchA (imageA .host) (Buffer.fresh .gray 4 4 .host) := by
  constructor <;> decide
/-- CscConvertCompletes, CscConvertFixedLuma. -/
theorem witness_CscOperands : CscOperands benchC (imageC .host) (Buffer.fresh .gray 4 1 .host) ∧
    (imageC .host).width = 4 ∧ (imageC .host).height = 1 ∧ benchC.modeFloat = false := by
  refine ⟨?_, by decide⟩
  constructor <;> decide
/-- CscConvertFloatLuma. -/
theorem witness_FloatMode : CscOperands { benchC with ctrl := 0x0F } (imageC .host) (Buffer.fresh .gray 4 1 .host) ∧
    ({ benchC with ctrl := 0x0F } : State).modeFloat = true ∧ State.reset.params.float.wf = true := by
  refine ⟨?_, by decide, by decide⟩
  constructor <;> decide
/-- Width differs; height differs. -/
theorem witness_CscDimensionMismatch :
    CscOperands (bench [(0, imageC .host), (1, Buffer.fresh .gray 1 1 .host)]) (imageC .host)
      (Buffer.fresh .gray 1 1 .host) ∧ (imageC .host).width ≠ (Buffer.fresh .gray 1 1 .host).width ∧
    CscOperands (bench [(0, imageC .host), (1, Buffer.fresh .gray 4 2 .host)]) (imageC .host)
      (Buffer.fresh .gray 4 2 .host) ∧ (imageC .host).height ≠ (Buffer.fresh .gray 4 2 .host).height := by
  refine ⟨?_, by decide, ?_, by decide⟩ <;> (constructor <;> decide)

theorem witness_DecodeEncodeAgree : (Instr.fbMove .host).wellFormed = true ∧
    decode 0x57#8 = .instr (.fbMove .host) := by decide
theorem witness_ReservedBytesRefused : decode 0x50#8 = .reserved .reservedSub ∧ decode 0x85#8 = .reserved .reservedSub ∧
    decode 0x18#8 = .reserved .zBitSet ∧ decode 0xD0#8 = .reserved .reservedOp ∧ State.reset.running = false := by decide
theorem witness_StepRunsDecodedCommand :
    let s := { benchA with host := [.command 0x20#8 Ports.zero] }
    s.running = false ∧ s.host = .command 0x20#8 Ports.zero :: [] ∧ decode 0x20#8 = .instr .fbGet ∧
      Instr.fbGet.wellFormed = true := by decide
/-- No input or the idle input, with a run active and without one. -/
theorem witness_CoreOnItsOwn :
    State.reset.host = [] ∧ State.reset.running = false ∧ (State.reset.startRun).host = [] ∧
    State.reset.startRun.running = true ∧ ({ State.reset.startRun with host := [.idle] } : State).host = .idle :: [] := by
  decide
theorem witness_CommandsTurnedAway :
    let s := { flow with running := true, host := [.command 0x20#8 Ports.zero] }
    let t := { flow with status := 0x02#8 }
    let u := { flow with status := 0x01#8 }
    let v := { flow with running := true, host := [.launch 0x07#8 []] }
    (s.running = true ∧ s.host = .command 0x20#8 Ports.zero :: []) ∧ Instr.fbGet ≠ .run ∧
      (t.running = false ∧ t.fatal = true) ∧ (u.fatal = false ∧ u.done = true) ∧
      (v.running = true ∧ v.host = .launch 0x07#8 [] :: []) := by decide
/-- Registers 7, 6 and 0, and a write. -/
theorem witness_ControlRegisterAccess :
    (after (step { flow with host := [.readCR 6] })).map (·.crData) = some 0#32 ∧
    (after (step { flow with host := [.readCR 0] })).map (·.crData) = some 7#32 ∧
    (after (step { flow with host := [.readCR 3] })).map (·.crData) = some 0#32 ∧
    (after (step { flow with host := [.readCR 2] })).map (·.crData) = some 3#32 ∧
    refusal (step { flow with host := [.readCR 7] }) = some (.noSuchRegister 7) ∧
    refusal (step { flow with host := [.writeCR 0 1#32] }) = some (.registerWrite 0) := by decide
theorem witness_LaunchSetsState :
    let s := { flow with host := [.launch 0x0F#8 [1, 2]] }
    s.running = false ∧ s.host = .launch 0x0F#8 [1, 2] :: [] ∧ 0x0F#8 &&& 0xF0#8 = 0#8 ∧ [1, 2].length < 2 ^ 32 := by
  decide

/-- Smallest and largest dimensions. -/
theorem witness_FbCreateCompletes : ∀ d ∈ [(1#16, 1#16), (65535#16, 65535#16)],
    let s := { bench [] with ports := { Ports.zero with dw := d.1, dh := d.2 } }
    s.running = false ∧ s.fatal = false ∧ s.ports.dw ≠ 0#16 ∧ s.ports.dh ≠ 0#16 ∧
      s.allocAnswer .rgb s.ports.dw.toNat s.ports.dh.toNat = true := by
  intro d hd
  simp only [List.mem_cons, List.not_mem_nil, or_false] at hd
  rcases hd with rfl | rfl <;> exact ⟨rfl, rfl, by decide, by decide, rfl⟩
theorem witness_FbCreateStops :
    State.reset.running = false ∧ State.reset.fatal = false ∧ State.reset.ports.dw = 0#16 ∧
    ({ State.reset with env := { Environment.start with allocs := [false] } } : State).allocAnswer .gray 4 4 = false := by
  decide
/-- FB.GET: live, in range at the last element, out of range on each side, and dead. -/
theorem witness_FbGetReadsElement :
    benchA.running = false ∧ benchA.fatal = false ∧ benchA.mem.find benchA.ports.h0 = some (imageA .host) ∧
    (imageA .host).owner = .host ∧ State.reset.mem.find State.reset.ports.h0 = none ∧
    (after (exec .fbGet (pointing benchA 3 3 0))).map (·.rv) = some 160#24 ∧
    (after (exec .fbGet (pointing benchA 0 4 0))).map (·.rv) = some 0#24 ∧
    (after (exec .fbGet (pointing benchA (-1) 0 0))).map (·.rv) = some 0#24 ∧
    (after (exec .fbGet (pointing benchA 0 (-1) 0))).map (·.rv) = some 0#24 := by decide
/-- FB.SET: out of range, in range on a GRAY and on an RGB buffer. -/
theorem witness_FbSetWritesElement :
    benchA.running = false ∧ benchA.fatal = false ∧ benchC.running = false ∧ benchC.fatal = false ∧
    (imageA .host).owner = .host ∧ (imageC .host).owner = .host ∧
    benchA.mem.wf = true ∧ benchC.mem.wf = true ∧ benchA.mem.find 0 = some (imageA .host) ∧
    benchC.mem.find 0 = some (imageC .host) ∧ (imageA .host).inRange 3 3 = true ∧ (imageA .host).inRange 4 3 = false ∧
    (imageA .host).inRange 3 4 = false ∧ (imageA .host).inRange (-1) 0 = false ∧ (imageA .host).elem = .gray ∧
    (imageC .host).inRange 3 0 = true ∧ (imageC .host).elem = .rgb ∧
    bytesAfter (exec .fbSet (pointing benchC 1 0 0x6496C8)) 0 9 = some [255, 0, 0, 100, 150, 200, 0, 0, 255] := by decide
theorem witness_FbDestroyCompletes : benchA.running = false ∧ benchA.fatal = false ∧ benchA.mem.wf = true ∧
    benchA.mem.find benchA.ports.h0 = some (imageA .host) ∧ (imageA .host).owner = .host := by decide
/-- A dead handle below NEXT_HANDLE, before a step that makes a new buffer. -/
theorem witness_FbDestroyCompletes_later :
    let s : State := { bench [(1, imageA .host)] with nextHandle := 2,
                                                       host := [.command 0x10 { Ports.zero with dw := 4, dh := 4 }] }
    s.host.head? = some (.command 0x10 { Ports.zero with dw := 4, dh := 4 }) ∧ 0 < s.nextHandle ∧ s.mem.find 0 = none ∧
      (after (step s)).isSome = true := by decide
/-- FB.MOVE: a GRAY buffer into each gray holder, an RGB buffer into RAW, a held buffer back to HOST. -/
theorem witness_FbMoveCompletes :
    benchA.running = false ∧ benchA.fatal = false ∧ (imageA .host).owner = .host ∧
    benchC.running = false ∧ benchC.fatal = false ∧ (imageC .host).owner = .host ∧
    (holding .proc (imageA .proc)).running = false ∧ (holding .proc (imageA .proc)).fatal = false ∧
    (∀ o ∈ [OwnerTag.gray, .proc, .ppSrc, .ppDst, .cscOut, .host], o ≠ .free ∧ benchA.holder o = none ∧
      benchA.mem.find benchA.ports.h0 = some (imageA .host) ∧ (imageA .host).elem = .gray) ∧
    benchC.holder .raw = none ∧ benchC.mem.find benchC.ports.h0 = some (imageC .host) ∧ (imageC .host).elem = .rgb ∧
    (holding .proc (imageA .proc)).mem.find 0 = some (imageA .proc) ∧
      (holding .proc (imageA .proc)).holder .host = none := by decide
theorem witness_FbMoveRefused :
    refusal (exec (.fbMove .gray) State.reset) = some (.deadHandle 0) ∧
    refusal (exec (.fbMove .gray) (holding .proc (imageA .proc))) = some (.notHostOwned 0) ∧
    refusal (exec (.fbMove .raw) benchA) = some (.wrongElementType 0) ∧
    refusal (exec (.fbMove .gray) benchC) = some (.wrongElementType 0) ∧
    refusal (exec (.fbMove .gray) { benchA with gray := some 1 }) = some (.holderOccupied .gray) := by decide

/-- Both slots held. -/
def swapping : State :=
  { bench [(0, imageA .ppSrc), (1, Buffer.fresh .gray 4 4 .ppDst)] with ppSrc := some 0, ppDst := some 1 }

theorem witness_PpSwapExchanges : Owned swapping ∧ swapping.running = false ∧ swapping.fatal = false ∧
    swapping.ppSrc = some 0 ∧ swapping.ppDst = some 1 ∧ State.reset.ppSrc = none := by
  exact ⟨owned_of_check (by decide), by decide, by decide, rfl, rfl, rfl⟩
theorem witness_OperandHandlesChecked :
    refusal (exec .sobelMag State.reset) = some (.deadHandle 0) ∧
    refusal (exec .fbGet (holding .proc (imageA .proc))) = some (.notHostOwned 0) ∧
    refusal (exec .convBlur (bench [(0, imageA .host)])) = some (.deadHandle 1) ∧
    refusal (exec .convBlur { bench [(0, imageA .host), (1, imageA .gray)] with gray := some 1 })
      = some (.notHostOwned 1) ∧
    refusal (exec .cscConvert benchA) = some (.wrongElementType 0) ∧
    refusal (exec .cscConvert (bench [(0, imageC .host), (1, imageC .host)])) = some (.wrongElementType 1) := by decide

/-- FIXED mode with the default entries: ConvFixedDatapath, SobelMagFixed, ConvBlurFixed, ConvSharpenFixed,
ConvGaussianFixed, ConvSobelXYFixed (with witness_ConvOperands). -/
theorem witness_DefaultEntries : benchA.modeFloat = false ∧ benchA.params.ktab.blur = kernelBlur ∧
    benchA.params.ktab.sharpen = kernelSharpen ∧ benchA.params.ktab.gaussian = kernelGaussian ∧
    benchA.params.ktab.sobelX = kernelSobelX ∧ benchA.params.ktab.sobelY = kernelSobelY := by decide
theorem witness_SobelModesAgree :
    let p := State.reset.params
    p.float.wf = true ∧ p.ktab.sobelX = kernelSobelX ∧ p.ktab.sobelY = kernelSobelY ∧
    p.ktabFloat.sobelX.w = kernelSobelX.w.map (fun c => .finite c.toInt 0) ∧
    p.ktabFloat.sobelY.w = kernelSobelY.w.map (fun c => .finite c.toInt 0) := by decide
/-- The largest sum of weights. -/
theorem witness_FloatSumExact : binary32.wf = true ∧ binary64.wf = true ∧
    ((⟨-65793, 0, 0, 0, 0, 0, 0, 0, 0⟩ : Grid3 Int).toList.map Int.natAbs).sum ≤ 65793 := by decide

/-- T-CONV-13: weights 58, scale 2^-9, bias 0, uniform 100: 52200 / 512. -/
theorem witness_FloatSumExact_convFloat :
    let w : Grid3 Int := ⟨58, 58, 58, 58, 58, 58, 58, 58, 58⟩
    let b := grayBuffer 3 3 [100, 100, 100, 100, 100, 100, 100, 100, 100] .host
    let sum := ((w.toList.zip (neighbours b 1 1).toList).map fun c => c.1 * (c.2.toNat : Int)).sum
    (w.toList.map Int.natAbs).sum ≤ 65793 ∧ sum = 52200 ∧ (sum * 1).natAbs < 2 ^ 24 ∧
      (sum * 1 * 2 ^ ((-9) - min (-9) 0 : Int).toNat + 0 * 2 ^ (0 - min (-9) 0 : Int).toNat).natAbs < 2 ^ 24 ∧
      convFloat binary32 ⟨w.map (fun c => .finite c 0), .finite 1 (-9), .finite 0 0⟩ b 1 1 = 101#8 := by decide +kernel

/-- A uniform input. -/
def uniform : State :=
  bench [(0, grayBuffer 3 3 [7, 7, 7, 7, 7, 7, 7, 7, 7] .host), (1, Buffer.fresh .gray 3 3 .host)]

theorem witness_UniformInput :
    ConvOperands uniform (grayBuffer 3 3 [7, 7, 7, 7, 7, 7, 7, 7, 7] .host) (Buffer.fresh .gray 3 3 .host) ∧
    uniform.modeFloat = false ∧ (∀ a, a < 3 * 3 → uniform.byteAt uniform.ports.h0 a = 7#8) ∧
    (uniform.params.ktab.sobelX.w.toList.map BitVec.toInt).sum = 0 ∧
    (uniform.params.ktab.sobelY.w.toList.map BitVec.toInt).sum = 0 := by
  refine ⟨?_, by decide, by decide, by decide, by decide⟩
  constructor <;> decide
/-- Width 2; height 2. -/
theorem witness_SmallFramesUnchanged : ∀ d ∈ [(2#16, 3#16), (3#16, 2#16)],
    ConvOperands (bench [(0, Buffer.fresh .gray d.1 d.2 .host), (1, Buffer.fresh .gray d.1 d.2 .host)])
      (Buffer.fresh .gray d.1 d.2 .host) (Buffer.fresh .gray d.1 d.2 .host) ∧ (d.1.toNat < 3 ∨ d.2.toNat < 3) := by
  intro d hd
  simp only [List.mem_cons, List.not_mem_nil, or_false] at hd
  rcases hd with rfl | rfl <;> (refine ⟨?_, by decide⟩; constructor <;> decide)
theorem witness_ConvolutionsRefused :
    refusal (exec .convBlur State.reset) = some (.deadHandle 0) ∧
    refusal (exec .convBlur (bench [(0, imageA .host)])) = some (.deadHandle 1) ∧
    refusal (exec .convBlur benchC) = some (.wrongElementType 0) ∧
    refusal (exec .sobelMag (bench [(0, imageA .host), (1, imageC .host)])) = some (.wrongElementType 1) ∧
    refusal (exec .sobelMag { benchA with ports := Ports.zero }) = some .sameBuffer ∧
    refusal (exec .convBlur (bench [(0, imageA .host), (1, imageQ)])) = some .unequalDimensions := by decide
/-- Two parameter settings that differ in every entry SOBEL.MAG does not read in FIXED mode. -/
theorem witness_DatapathPure_entries :
    let p := State.reset.params
    let q : Params := { ktab := { p.ktab with blur := kernelSharpen, sharpen := kernelBlur, gaussian := kernelBlur },
                        ktabFloat := { p.ktabFloat with sobelX := kernelBlur.toFloat }, float := binary64 }
    sameEntries .sobelMag false p q ∧ p ≠ q := by
  refine ⟨fun k hk => ?_, by decide⟩
  simp only [entriesRead, List.mem_cons, List.not_mem_nil, or_false] at hk
  rcases hk with rfl | rfl <;> rfl
theorem witness_DatapathPure : (∃ t, exec .convBlur benchQ = .next t) ∧ (∃ t, exec .cscConvert benchC = .next t) ∧
    benchQ.running = false ∧ benchQ.fatal = false :=
  ⟨after_some (by decide +kernel), after_some (by decide +kernel), by decide, by decide⟩

theorem witness_ActOutputCompletes : ∀ a ∈ [EncodeAnswer.success, .ioError],
    let s := { holding .proc (imageA .proc) with env := { Environment.start with encodes := [a] } }
    s.running = false ∧ s.fatal = false ∧ s.mem.wf = true ∧ s.proc = some 0 ∧ s.mem.find 0 = some (imageA .proc) ∧
      s.encodeAnswer s.outCursor.toNat (imageA .proc) = a := by decide
theorem witness_IdleActionsDoNothing : State.reset.proc = none ∧ State.reset.gray = none ∧ State.reset.raw = none ∧
    ¬ State.reset.inCursor.toNat < State.reset.total.toNat ∧ State.reset.phase = .idle ∧
    State.reset.inCursor = State.reset.total ∧ State.reset.running = false ∧ State.reset.fatal = false := by decide
theorem witness_ActFilterCompletes :
    let s := holding .gray (imageA .gray)
    Owned s ∧ s.running = false ∧ s.fatal = false ∧ s.gray = some 0 ∧ s.mem.find 0 = some (imageA .gray) ∧
      s.ppSrc = none ∧ s.ppDst = none ∧ s.proc = none ∧ s.allocAnswer .gray 4 4 = true := by
  exact ⟨owned_of_check (by decide), by decide⟩
/-- A border element, and one just inside the border. -/
theorem witness_ChainBorder : (imageA .gray).wf = true ∧ (imageA .gray).elem = .gray ∧
    (¬ (1 ≤ 3 ∧ 3 + 2 ≤ (imageA .gray).width.toNat ∧ 1 ≤ 1 ∧ 1 + 2 ≤ (imageA .gray).height.toNat)) ∧
    (1 ≤ 2 ∧ 2 + 2 ≤ (imageA .gray).width.toNat) := by decide
theorem witness_ActConvertCompletes :
    let s := holding .raw (imageC .raw)
    Owned s ∧ s.running = false ∧ s.fatal = false ∧ s.raw = some 0 ∧ s.mem.find 0 = some (imageC .raw) ∧
      s.cscOut = none ∧ s.gray = none ∧ s.allocAnswer .gray 4 1 = true := by
  exact ⟨owned_of_check (by decide), by decide⟩
theorem witness_ActInputAcceptsGrid :
    let s := awaiting grid21
    s.running = false ∧ s.fatal = false ∧ s.inCursor.toNat < s.total.toNat ∧ s.pending[s.inCursor.toNat]? = some 7 ∧
      s.raw = none ∧ s.decodeAnswer 7 = .grid 2 1 [⟨1, 2, 3⟩, ⟨4, 5, 6⟩] ∧
      [(⟨1, 2, 3⟩ : Pixel), ⟨4, 5, 6⟩].length = 2 * 1 ∧ (s.afterDecode 7).allocAnswer .rgb 2 1 = true := by decide
theorem witness_ActInputDecodeFailure : ∀ c ∈ [DecodeError.invalidFormat, .resolutionExceeded, .rowAlignmentViolation,
    .unsupportedChannelDepth], (awaiting (.error c)).pending[(awaiting (.error c)).inCursor.toNat]? = some 7 ∧
      (awaiting (.error c)).decodeAnswer 7 = .error c ∧ (awaiting (.error c)).running = false ∧
      (awaiting (.error c)).fatal = false := by decide
/-- A grid for each clause: W = 0, H = 0, W above 65535, H above 65535, and a wrong pixel count. -/
theorem witness_ActInputDecodeFailure_badGrid :
    ∀ g ∈ [(0, 1, []), (1, 0, []), (65536, 1, []), (1, 65536, []), (2, 2, [(⟨1, 2, 3⟩ : Pixel)])],
      let s := awaiting (.grid g.1 g.2.1 g.2.2)
      s.running = false ∧ s.fatal = false ∧ s.inCursor.toNat < s.total.toNat ∧
        s.pending[s.inCursor.toNat]? = some 7 ∧ s.decodeAnswer 7 = .grid g.1 g.2.1 g.2.2 ∧
        (g.1 = 0 ∨ g.2.1 = 0 ∨ 65535 < g.1 ∨ 65535 < g.2.1 ∨ g.2.2.length ≠ g.1 * g.2.1) ∧
        refusal (exec .actInput s) = some .badGrid := by decide

/-- The allocator's next answer is no. -/
def starved (s : State) : State := { s with env := { s.env with allocs := [false] } }

theorem witness_ActionsAbortOnAllocation :
    Owned (starved (holding .gray (imageA .gray))) ∧ Owned (starved (holding .raw (imageC .raw))) ∧
    Owned (starved (awaiting grid21)) ∧ (starved (holding .gray (imageA .gray))).allocAnswer .gray 4 4 = false ∧
    (starved (holding .raw (imageC .raw))).allocAnswer .gray 4 1 = false ∧
    ((starved (awaiting grid21)).afterDecode 7).allocAnswer .rgb 2 1 = false ∧
    gridOk 2 1 [⟨1, 2, 3⟩, ⟨4, 5, 6⟩] = true := by
  exact ⟨owned_of_check (by decide), owned_of_check (by decide), owned_of_check (by decide), by decide⟩

/-- A tick-boundary state with all three registers full and a frame pending: TickCompletes, RunTicks. -/
theorem witness_TickReady : TickReady flow ∧ flow.running = false ∧ flow.fatal = false ∧ flow.done = false ∧
    flow.outCursor.toNat < flow.total.toNat := by
  refine ⟨⟨owned_of_check (by decide), rfl, rfl, rfl, ⟨[], rfl⟩, fun _ => ?_⟩, by decide⟩
  exact ⟨8, by decide, .inr ⟨2, 1, [⟨1, 2, 3⟩, ⟨4, 5, 6⟩], [], by decide, by decide⟩⟩
/-- The same with a decode error pending, and with no frame pending. -/
theorem witness_TickReady_error : TickReady (awaiting (.error .invalidFormat)) ∧
    TickReady { flow with total := 3 } := by
  refine ⟨⟨owned_of_check (by decide), rfl, rfl, rfl, ⟨[], rfl⟩, fun _ => ?_⟩,
    ⟨owned_of_check (by decide), rfl, rfl, rfl, ⟨[], rfl⟩, fun h => absurd h (by decide)⟩⟩
  exact ⟨7, by decide, .inl ⟨.invalidFormat, [], by decide⟩⟩
/-- Each of the tick's three requests answered no: the scratch, the new gray buffer, the decoded frame. -/
theorem witness_TickStarved : ∀ k ∈ [0, 1, 2],
    TickStarved { flow with env := { flow.env with allocs := List.replicate k true ++ [false] } } := by
  intro k hk
  simp only [List.mem_cons, List.not_mem_nil, or_false] at hk
  rcases hk with rfl | rfl | rfl
  · exact ⟨owned_of_check (by decide), rfl, rfl, rfl, 0, [], rfl, .inl (by decide)⟩
  · exact ⟨owned_of_check (by decide), rfl, rfl, rfl, 1, [], rfl, .inl (by decide)⟩
  · exact ⟨owned_of_check (by decide), rfl, rfl, rfl, 2, [], rfl, .inr ⟨rfl, by decide, 8, 2, 1, [⟨1, 2, 3⟩, ⟨4, 5, 6⟩],
      [], by decide, by decide, by decide⟩⟩
theorem witness_RunFinishes : State.reset.fatal = false ∧ State.reset.done = false ∧
    ¬ State.reset.outCursor.toNat < State.reset.total.toNat := by decide

theorem witness_Control (s : State) (h : s = flow ∨ s = flow.startRun ∨ s = State.reset.startRun) : Control s := by
  rcases h with rfl | rfl | rfl <;> (constructor <;> decide)

theorem witness_InRun (s : State) (h : s = flow ∨ s = flow.startRun ∨ s = State.reset.startRun) : InRun s := by
  have c := witness_Control s h
  have nohost : (s.mem.all fun e => e.2.owner != .host) = true := by rcases h with rfl | rfl | rfl <;> decide
  refine ⟨?_, c, ?_, ?_, ?_, fun k b hb => ?_, ?_⟩
  · rcases h with rfl | rfl | rfl <;> exact owned_of_check (by decide)
  · rcases h with rfl | rfl | rfl <;> rfl
  · rcases h with rfl | rfl | rfl <;> rfl
  · rcases h with rfl | rfl | rfl <;> rfl
  · simpa using List.all_eq_true.1 nohost _ (Memory.mem_of_find _ _ _ hb)
  · rcases h with rfl | rfl | rfl <;> decide

theorem witness_RunEndState : InRun State.reset.startRun ∧ State.reset.startRun.running = true ∧
    ¬ State.reset.startRun.outCursor.toNat < State.reset.startRun.total.toNat :=
  ⟨witness_InRun _ (.inr (.inr rfl)), by decide⟩
theorem witness_TickMakesProgress : InRun flow ∧ flow.outCursor.toNat < flow.total.toNat ∧
    ∃ t, exec .run flow = .next t :=
  ⟨witness_InRun _ (.inl rfl), by decide, after_some (by decide +kernel)⟩
/-- The three invariants, in a state of an active run that steps: OwnedKept, ControlKept, InRunKept,
LiveBuffersAreRegisters. -/
theorem witness_Invariants : Owned flow.startRun ∧ Control flow.startRun ∧ InRun flow.startRun ∧
    flow.startRun.running = true ∧ ∃ t, step flow.startRun = .next t :=
  ⟨owned_of_check (by decide), witness_Control _ (.inr (.inl rfl)), witness_InRun _ (.inr (.inl rfl)), by decide,
    after_some (by decide +kernel)⟩
/-- Operations that complete: ConfigurationConstant, StatusSticky, DatapathLeavesControlRegisters,
TickCounterSteersNothing. -/
theorem witness_WholeMachine : (∃ t, exec .tick flow = .next t) ∧ (∃ t, step flow = .next t) ∧ Control flow ∧
    ∃ t, exec .fbGet benchA = .next t :=
  ⟨after_some (by decide +kernel), after_some (by decide +kernel), witness_Control _ (.inl rfl), after_some (by decide)⟩

end Sys2Proof.Tests
end

section
/-!
SUPPORT. The boundary and the launch: what one step can do, what every operation keeps, and the control registers and the
run state carried through a whole step.
-/
namespace Sys2Proof.Machine

/-! ### The launch -/

/-- The state a launch leaves (R47, R270). -/
def State.launched (s : State) (ctrl : BitVec 8) (pending : List Ident) : State :=
  { s with
    raw := none, gray := none, proc := none, ppSrc := none, ppDst := none, cscOut := none,
    mem := [], nextHandle := 0,
    ctrl := ctrlStored ctrl, status := 0, inCursor := 0, outCursor := 0,
    total := BitVec.ofNat 32 pending.length, phase := .idle, tick := 0, pending := pending, running := false }

theorem launch_eq_next (ctrl : BitVec 8) (pending : List Ident) (s t : State) :
    launch ctrl pending s = .next t ↔
      s.running = false ∧ pending.length < 2 ^ 32 ∧ t = s.launched ctrl pending := by
  unfold launch
  split
  · rename_i hr; simp [hr]
  · rename_i hr
    split
    · rename_i hp; simp only [reduceCtorEq, false_iff]; omega
    · rename_i hp
      rw [Host.Outcome.next.injEq]
      exact ⟨fun e => ⟨by simpa using hr, by omega, e.symm⟩, fun ⟨_, _, e⟩ => e.symm⟩

/-- Bits 7:4 of a stored CTRL read 0 (R31). -/
theorem ctrlStored_high (c : BitVec 8) : ctrlStored c &&& 0xF0#8 = 0#8 := by
  unfold ctrlStored; rw [BitVec.and_assoc]; exact BitVec.and_zero

/-- A CTRL argument with bits 7:4 zero is stored as it is (R31). -/
theorem ctrlStored_of_high (c : BitVec 8) (h : c &&& 0xF0#8 = 0#8) : ctrlStored c = c := by
  revert c; unfold ctrlStored; decide

theorem State.launched_total (s : State) (ctrl : BitVec 8) (pending : List Ident) (hp : pending.length < 2 ^ 32) :
    (s.launched ctrl pending).total.toNat = pending.length :=
  (BitVec.toNat_ofNat _ _).trans (Nat.mod_eq_of_lt hp)

/-- No holder names a buffer after a launch. -/
theorem State.holder_launched (s : State) (ctrl : BitVec 8) (pending : List Ident) (o : OwnerTag) :
    (s.launched ctrl pending).holder o = none := by cases o <;> rfl

/-- No buffer is live after a launch. -/
theorem State.find_launched (s : State) (ctrl : BitVec 8) (pending : List Ident) (h : Nat) :
    (s.launched ctrl pending).mem.find h = none := rfl

theorem Owned.launched (s : State) (ctrl : BitVec 8) (pending : List Ident) : Owned (s.launched ctrl pending) where
  wf := rfl
  fresh h b hb := by rw [s.find_launched] at hb; cases hb
  held h b hb := by rw [s.find_launched] at hb; cases hb
  named o h ho := by rw [s.holder_launched] at ho; cases ho

theorem Control.launched (s : State) (ctrl : BitVec 8) (pending : List Ident) (hp : pending.length < 2 ^ 32) :
    Control (s.launched ctrl pending) where
  ctrlHigh := ctrlStored_high ctrl
  phaseIdle := rfl
  notFatal := (by decide : (0#8).getLsbD 1 = false)
  causeNone _ := (by decide : (0#8).extractLsb' 3 3 = 0#3)
  causeSome h := absurd h (by decide : ¬ (0#8).getLsbD 2 = true)
  truncated h := absurd h (by decide : ¬ (0#8).getLsbD 2 = true)
  cursors := Nat.zero_le _
  bounded := (s.launched_total ctrl pending hp).le
  notDone h := absurd h Bool.false_ne_true

/-- A launch leaves the state of a run at a tick boundary (R270, R41, R45). -/
theorem InRun.launched (s : State) (ctrl : BitVec 8) (pending : List Ident) (hp : pending.length < 2 ^ 32) :
    InRun (s.launched ctrl pending) where
  owned := .launched s ctrl pending
  control := .launched s ctrl pending hp
  srcEmpty := rfl
  dstEmpty := rfl
  cscEmpty := rfl
  noHost h b hb := by rw [s.find_launched] at hb; cases hb
  cursorGap := rfl

/-- The model's reset is a launch with CTRL = 0x07 and no identifier (R47; log 1). -/
theorem reset_eq_launched : State.reset = State.reset.launched 0x07 [] := rfl

/-! ### One step -/

/-- What one step can do: the host's list and the operand ports apart, it executes one operation, leaves an idle core as
it is, reads a control register or launches (R263). -/
theorem step_cases {s t : State} (e : step s = .next t) :
    ∃ u, u = { s with host := u.host, ports := u.ports } ∧
      ((∃ i, exec i u = .next t) ∨ (u.running = false ∧ t = u) ∨
        (∃ n v, u.readCR n = some v ∧ t = { u with crData := v }) ∨
        ∃ ctrl pending, launch ctrl pending u = .next t) := by
  have own : ∀ u : State, boundary u = .next t → (∃ i, exec i u = .next t) ∨ (u.running = false ∧ t = u) := by
    intro u e
    unfold boundary at e
    split at e
    · exact .inl ⟨.run, e⟩
    · rename_i hr; cases e; exact .inr ⟨by simpa using hr, rfl⟩
  unfold step nextBoundary at e
  split at e
  · exact ⟨s, rfl, (own s e).imp_right .inl⟩
  · rename_i input rest _
    cases input with
    | idle => exact ⟨{ s with host := rest }, rfl, (own _ e).imp_right .inl⟩
    | command cmd ports =>
      simp only [serveHost, presentCommand] at e
      split at e
      · cases e
      · split at e
        · rename_i i _; exact ⟨_, rfl, .inl ⟨i, e⟩⟩
        · cases e
    | launch ctrl pending => exact ⟨{ s with host := rest }, rfl, .inr (.inr (.inr ⟨ctrl, pending, e⟩))⟩
    | readCR n =>
      simp only [serveHost, readRegister] at e
      split at e
      · rename_i v hv; cases e; exact ⟨{ s with host := rest }, rfl, .inr (.inr (.inl ⟨n, v, hv, rfl⟩))⟩
      · cases e
    | writeCR n v => cases e

/-! ### One operation -/

/-- What any operation keeps: RC and the run bit of an accepted operation apart, it keeps what `PortKeeps` lists and
PHASE IDLE, or it is RUN's last iteration and ends the run (R207). -/
theorem exec_cases {i : Instr} {s t : State} (e : exec i s = .next t) :
    ∃ u, u = { s with rc := u.rc, running := u.running } ∧ (u.running = true → s.done = false) ∧
      ((PortKeeps u t ∧ (s.phase = .idle → t.phase = .idle)) ∨ t = u.finishRun) := by
  by_cases hi : i = .run
  · subst hi
    obtain ⟨-, hd, u, hu, ⟨v, ev, rfl⟩ | rfl⟩ := exec_run_cases e
    · refine ⟨u, ?_, fun _ => hd, .inl ⟨(PortKeeps.schedTick ev).trans (.nestedCode u v), fun _ => ?_⟩⟩
      · rw [hu]
      · exact (nestedCode_phase u v).trans (schedTick_phase ev)
    · exact ⟨u, by rw [hu], fun _ => hd, .inr rfl⟩
  · obtain ⟨hr, -, e⟩ := (exec_eq_next i hi s t).1 e
    exact ⟨s.accepted, rfl, fun h => absurd (hr.symm.trans h) Bool.false_ne_true,
      .inl ⟨.portBody e, portBody_phase (s := s.accepted) e⟩⟩

/-- No operation changes the configuration, the host's list or the operand ports (R31, R38, R40). -/
theorem exec_config {i : Instr} {s t : State} (e : exec i s = .next t) :
    t.ctrl = s.ctrl ∧ t.pending = s.pending ∧ t.host = s.host ∧ t.ports = s.ports ∧ t.params = s.params := by
  obtain ⟨u, hu, -, ⟨k, -⟩ | rfl⟩ := exec_cases e
  · rw [k.ctrl, k.pending, k.host, k.ports, k.params, hu]
    exact ⟨rfl, rfl, rfl, rfl, rfl⟩
  · rw [hu]; exact ⟨rfl, rfl, rfl, rfl, rfl⟩

/-! ### The control registers -/

/-- The soundness of the control registers speaks of no port, of the host's list, of the read-out or of RC, and of the
run bit only beside DONE. -/
theorem Control.congr {s t : State} (c : Control s)
    (ht : t = { s with rc := t.rc, running := t.running, host := t.host, ports := t.ports, crData := t.crData })
    (hd : t.running = true → s.done = false) : Control t := by
  rw [ht]
  exact ⟨c.ctrlHigh, c.phaseIdle, c.notFatal, c.causeNone, c.causeSome, c.truncated, c.cursors, c.bounded, hd⟩

theorem Control.ofPortKeeps {s t : State} (c : Control s) (k : PortKeeps s t) (ht : t.phase = .idle) : Control t := by
  have := k.control (by rw [enterPhase_self s c.phaseIdle]; exact c)
  rwa [enterPhase_self t ht] at this

/-- The end of a run sets DONE and no other STATUS bit (R207). -/
theorem Control.finishRun {s : State} (c : Control s) : Control s.finishRun := by
  obtain ⟨-, -, hfatal, hdecFail, hcause⟩ := statusDone_bits s.status
  have fatal : s.finishRun.fatal = s.fatal := hfatal
  have decFail : s.finishRun.decFail = s.decFail := hdecFail
  have cause : s.finishRun.decCause = s.decCause := hcause
  exact ⟨c.ctrlHigh, c.phaseIdle, fatal.trans c.notFatal, fun h => cause.trans (c.causeNone (decFail.symm.trans h)),
    fun h => by rw [cause]; exact c.causeSome (decFail.symm.trans h),
    fun h => c.truncated (decFail.symm.trans h), c.cursors, c.bounded, fun h => absurd h Bool.false_ne_true⟩

/-- Every operation keeps the control registers sound (R31 to R36). -/
theorem Control.of_exec {i : Instr} {s t : State} (c : Control s) (e : exec i s = .next t) : Control t := by
  obtain ⟨u, hu, hd, h⟩ := exec_cases e
  have cu : Control u := c.congr (by rw [hu]) hd
  rcases h with ⟨k, hp⟩ | rfl
  · exact cu.ofPortKeeps k (hp c.phaseIdle)
  · exact cu.finishRun

/-- Every operation keeps the STATUS bits that are 1 (R32). -/
theorem exec_status_sticky {i : Instr} {s t : State} (c : Control s) (e : exec i s = .next t) :
    s.status &&& t.status = s.status := by
  obtain ⟨u, hu, hd, h⟩ := exec_cases e
  have cu : Control u := c.congr (by rw [hu]) hd
  have hs : u.status = s.status := by rw [hu]
  rw [← hs]
  rcases h with ⟨k, -⟩ | rfl
  · exact k.sticky (by rw [enterPhase_self u cu.phaseIdle]; exact cu)
  · exact (statusDone_bits u.status).1

/-! ### The run state -/

/-- A run state speaks of no port, of the host's list, of the read-out or of RC. -/
theorem InRun.congr {s t : State} (h : InRun s)
    (ht : t = { s with rc := t.rc, running := t.running, host := t.host, ports := t.ports, crData := t.crData })
    (hd : t.running = true → s.done = false) : InRun t := by
  have c := h.control.congr ht hd
  rw [ht] at c ⊢
  exact ⟨h.owned.congr rfl rfl (fun o => by cases o <;> rfl), c, h.srcEmpty, h.dstEmpty, h.cscEmpty, h.noHost,
    h.cursorGap⟩

/-- The end of a run leaves a run state. -/
theorem InRun.finishRun {s : State} (h : InRun s) : InRun s.finishRun :=
  ⟨h.owned.congr rfl rfl s.holder_finishRun, h.control.finishRun, h.srcEmpty, h.dstEmpty, h.cscEmpty, h.noHost,
    h.cursorGap⟩

/-- RUN leads from a run state to a run state, by a tick or by the end of the run (R207, R41, R45). -/
theorem InRun.of_run {s t : State} (h : InRun s) (e : exec .run s = .next t) : InRun t := by
  obtain ⟨-, hd, u, hu, hcase⟩ := exec_run_cases e
  have ru : InRun u := h.congrRc (by rw [hu]) (fun _ => hd)
  rcases hcase with ⟨v, ev, rfl⟩ | rfl
  · have rv := (ru.schedTick ev).1
    exact rv.congrRc (nestedCode_rc u v) rv.control.notDone
  · exact ru.finishRun

end Sys2Proof.Machine

open Sys2Proof Sys2Proof.Machine

/-- Settles O53: one operation keeps the control registers sound, a launch makes them sound, and what else a step does
they do not speak of. -/
theorem controlKept : Obligations.ControlKept := by
  intro s t c e
  obtain ⟨u, hu, h⟩ := step_cases e
  have cu : Control u := c.congr (by rw [hu]) (by rw [hu]; exact c.notDone)
  rcases h with ⟨i, e⟩ | ⟨-, rfl⟩ | ⟨n, v, -, rfl⟩ | ⟨ctrl, pending, e⟩
  · exact cu.of_exec e
  · exact cu
  · exact cu.congr rfl cu.notDone
  · obtain ⟨-, hp, rfl⟩ := (launch_eq_next _ _ _ _).1 e
    exact .launched u ctrl pending hp

/-- Settles O54: in an active run the only operation a step can execute is RUN, which keeps a run state. -/
theorem inRunKept : Obligations.InRunKept := by
  refine ⟨fun s t h hr e => ?_, fun s t h e => h.of_run e⟩
  obtain ⟨u, hu, hcase⟩ := step_cases e
  have ru : InRun u := h.congr (by rw [hu]) (by rw [hu]; exact h.control.notDone)
  have active : ¬ u.running = false := by rw [hu]; simp [hr]
  rcases hcase with ⟨i, e⟩ | ⟨hn, -⟩ | ⟨n, v, -, rfl⟩ | ⟨ctrl, pending, e⟩
  · by_cases hi : i = .run
    · subst hi; exact ru.of_run e
    · exact absurd ((exec_eq_next i hi u t).1 e).1 active
  · exact absurd hn active
  · exact ru.congr rfl ru.control.notDone
  · exact absurd ((launch_eq_next _ _ _ _).1 e).1 active

/-- Settles O10: the step serves the launch, and the launched state is a run state. -/
theorem launchSetsState : Obligations.LaunchSetsState := by
  intro s ctrl pending rest hr hh hc hp
  have e : step s = launch ctrl pending { s with host := rest } := by simp only [step, nextBoundary, hh, serveHost]
  refine ⟨State.launched { s with host := rest } ctrl pending, ?_, .launched _ ctrl pending hp,
    State.launched_total _ ctrl pending hp, ?_⟩
  · rw [e]; exact (launch_eq_next _ _ _ _).2 ⟨hr, hp, rfl⟩
  · unfold State.launched
    rw [ctrlStored_of_high ctrl hc, hr]
    rfl

/-- Settles O57: no operation changes the configuration, and neither do the other things a step can do. -/
theorem configurationConstant : Obligations.ConfigurationConstant := by
  refine ⟨fun i s t e => ?_, fun s t e => ?_⟩
  · obtain ⟨ctrl, pending, host, ports, -⟩ := exec_config e
    exact ⟨ctrl, pending, host, ports⟩
  · obtain ⟨u, hu, h⟩ := step_cases e
    have keep : u.params = s.params := by rw [hu]
    rw [← keep]
    rcases h with ⟨i, e⟩ | ⟨-, rfl⟩ | ⟨n, v, -, rfl⟩ | ⟨ctrl, pending, e⟩
    · obtain ⟨-, -, -, -, params⟩ := exec_config e
      exact params
    · rfl
    · rfl
    · obtain ⟨-, -, rfl⟩ := (launch_eq_next _ _ _ _).1 e
      rfl

/-- Settles O58. -/
theorem statusSticky : Obligations.StatusSticky := fun _ _ _ c e => exec_status_sticky c e

/-- Settles O59: none of these is an action, TICK or RUN, so each goes through the port and writes none of these
registers. -/
theorem datapathLeavesControlRegisters : Obligations.DatapathLeavesControlRegisters := by
  intro i hi
  have other : i ∉ [Instr.actOutput, .actFilter, .actConvert, .actInput, .tick, .run] := by
    revert i; decide
  intro s t e
  have notRun : i ≠ .run := fun h => other (by simp [h])
  obtain ⟨-, -, e⟩ := (exec_eq_next i notRun s t).1 e
  exact portBody_datapath (s := s.accepted) e other

/-- Settles O9. -/
theorem resetState : Obligations.ResetState :=
  ⟨rfl, rfl, rfl, rfl, rfl, rfl, rfl, rfl, rfl, rfl, rfl, rfl, rfl, rfl, rfl, rfl, rfl⟩

/-- Settles O55: the reset state is a launched one. -/
theorem resetSound : Obligations.ResetSound := by
  have h : InRun State.reset := reset_eq_launched ▸ .launched State.reset 0x07 [] (by decide)
  exact ⟨h.owned, h.control, h⟩
end

section
/-!
SUPPORT. The pipeline registers of a run state: a register names one live buffer, and every live buffer is named.
-/
namespace Sys2Proof.Machine

/-- The owner tag of the buffers a pipeline register holds (R22, R97). -/
def registerTag : PipeReg → OwnerTag
  | .raw => .raw
  | .gray => .gray
  | .proc => .proc

theorem State.holder_registerTag (s : State) (r : PipeReg) : s.holder (registerTag r) = s.reg r := by cases r <;> rfl

theorem registerTag_injective : ∀ r q : PipeReg, registerTag r = registerTag q → r = q := by
  intro r q; cases r <;> cases q <;> simp [registerTag]

/-- Two registers name different buffers (R23). -/
theorem Owned.reg_unique {s : State} (o : Owned s) {h : Nat} {r q : PipeReg} (hr : s.reg r = some h)
    (hq : s.reg q = some h) : r = q := by
  obtain ⟨b, hb, br, -⟩ := o.named (registerTag r) h ((s.holder_registerTag r).trans hr)
  obtain ⟨c, hc, cq, -⟩ := o.named (registerTag q) h ((s.holder_registerTag q).trans hq)
  cases hb.symm.trans hc
  exact registerTag_injective r q (br.symm.trans cq)

/-- In a run state the slots are EMPTY and HOST owns nothing, so a holder that names a buffer is a register (R29). -/
theorem InRun.holder_is_register {s : State} (i : InRun s) {o : OwnerTag} {h : Nat} (ho : s.holder o = some h) :
    ∃ r, s.reg r = some h := by
  cases o with
  | free => cases ho
  | raw => exact ⟨.raw, ho⟩
  | gray => exact ⟨.gray, ho⟩
  | proc => exact ⟨.proc, ho⟩
  | ppSrc => cases i.srcEmpty.symm.trans ho
  | ppDst => cases i.dstEmpty.symm.trans ho
  | cscOut => cases i.cscEmpty.symm.trans ho
  | host => cases ho

/-- In a run state the live buffers are those the registers name (R29, R23). -/
theorem InRun.live_iff_register {s : State} (i : InRun s) (h : Nat) :
    (∃ b, s.mem.find h = some b) ↔ ∃ r, s.reg r = some h := by
  constructor
  · rintro ⟨b, hb⟩
    exact i.holder_is_register (i.owned.held h b hb (i.noHost h b hb))
  · rintro ⟨r, hr⟩
    obtain ⟨b, hb, -⟩ := i.owned.named (registerTag r) h ((s.holder_registerTag r).trans hr)
    exact ⟨b, hb⟩

theorem exists_register_iff (s : State) (h : Nat) :
    (∃ r, s.reg r = some h) ↔ (s.raw = some h ∨ s.gray = some h ∨ s.proc = some h) := by
  constructor
  · rintro ⟨r, hr⟩
    cases r with
    | raw => exact .inl hr
    | gray => exact .inr (.inl hr)
    | proc => exact .inr (.inr hr)
  · rintro (hr | hr | hr)
    · exact ⟨.raw, hr⟩
    · exact ⟨.gray, hr⟩
    · exact ⟨.proc, hr⟩

/-- Only a register's own number names it (R98). -/
theorem regNumber_of_regOfNumber : ∀ (n : BitVec 2) (r : PipeReg), regOfNumber n = some r → n = regNumber r := by decide

/-- A register number reads a handle exactly when it is the number of a register that names it (R98). -/
theorem State.regAt_eq_some (s : State) (n : BitVec 2) (h : Nat) :
    s.regAt n = some (some h) ↔ ∃ r, n = regNumber r ∧ s.reg r = some h := by
  unfold State.regAt
  rw [Option.map_eq_some_iff]
  constructor
  · rintro ⟨r, hn, hr⟩
    exact ⟨r, regNumber_of_regOfNumber n r hn, hr⟩
  · rintro ⟨r, rfl, hr⟩
    exact ⟨r, regOfNumber_regNumber r, hr⟩

end Sys2Proof.Machine

open Sys2Proof Sys2Proof.Machine

/-- Settles O56: a run state's live buffers are named by registers (`InRun.live_iff_register`), by no two
(`Owned.reg_unique`), and a number stands for one register (`State.regAt_eq_some`). -/
theorem liveBuffersAreRegisters : Obligations.LiveBuffersAreRegisters := by
  intro s i h
  have apart : ∀ r q : PipeReg, r ≠ q → ¬ (s.reg r = some h ∧ s.reg q = some h) :=
    fun r q hne hh => hne (i.owned.reg_unique hh.1 hh.2)
  refine ⟨(i.live_iff_register h).trans (exists_register_iff s h), apart .raw .gray (by decide),
    apart .raw .proc (by decide), apart .gray .proc (by decide), ?_, fun n m hn hm => ?_, rfl, rfl, rfl, rfl⟩
  · rw [i.live_iff_register h]
    constructor
    · rintro ⟨r, hr⟩
      exact ⟨regNumber r, (s.regAt_eq_some _ h).2 ⟨r, rfl, hr⟩⟩
    · rintro ⟨n, hn⟩
      obtain ⟨r, -, hr⟩ := (s.regAt_eq_some n h).1 hn
      exact ⟨r, hr⟩
  · obtain ⟨r, rfl, hr⟩ := (s.regAt_eq_some n h).1 hn
    obtain ⟨q, rfl, hq⟩ := (s.regAt_eq_some m h).1 hm
    rw [i.owned.reg_unique hr hq]
end

section
/-!
SUPPORT. The datapath commands as one operation: two operand buffers, what must hold of them, and the buffer that results;
CSC.CONVERT may find no result (R141).
-/
namespace Sys2Proof.Machine

/-- The pixel function of a CONV.* or SOBEL.MAG command, by the parameters and CTRL.MODE (R169, R190). -/
def pixelFunction : Instr → Option (Params → Bool → Buffer → Nat → Nat → Byte)
  | .convBlur => some fun p m => convPixel p m .blur
  | .convSharpen => some fun p m => convPixel p m .sharpen
  | .convGaussian => some fun p m => convPixel p m .gaussian
  | .convSobelX => some fun p m => convPixel p m .sobelX
  | .convSobelY => some fun p m => convPixel p m .sobelY
  | .sobelMag => some sobelPixel
  | _ => none

/-- The buffer a datapath command leaves at H1, from the operand buffers `a` at H0 and `b` at H1; none for a conversion
skipped on a mismatch (R140, R141, R169, R190). -/
def datapathResult (i : Instr) (p : Params) (float : Bool) (a b : Buffer) : Option Buffer :=
  match pixelFunction i with
  | some pix => some (filterBuffer (pix p float) a b)
  | none => if dimsDiffer a b then none else some (convertBuffer p float a b)

/-- The operands with which a datapath command completes (R127, R147, R168). -/
def DatapathOperands (i : Instr) (h0 h1 : Nat) (a b : Buffer) : Prop :=
  a.owner = .host ∧ b.owner = .host ∧ b.elem = .gray ∧
    match pixelFunction i with
    | some _ => a.elem = .gray ∧ h0 ≠ h1 ∧ a.width = b.width ∧ a.height = b.height
    | none => a.elem = .rgb

/-- The state with a datapath command's result at `h`, or the mismatch raised (R247). -/
def State.deliver (s : State) (h : Nat) (r : Option Buffer) : State :=
  match r with
  | none => raiseDimensionMismatch s
  | some b => s.putBuffer h b

/-- The seven datapath commands: CSC.CONVERT, and those with a pixel function. -/
theorem datapath_commands {i : Instr}
    (hi : i ∈ [Instr.cscConvert, .convBlur, .convSharpen, .convGaussian, .convSobelX, .convSobelY, .sobelMag]) :
    i = .cscConvert ∨ ∃ pix, pixelFunction i = some pix := by
  simp only [List.mem_cons, List.not_mem_nil, or_false] at hi
  rcases hi with rfl | rfl | rfl | rfl | rfl | rfl | rfl
  · exact .inl rfl
  all_goals exact .inr ⟨_, rfl⟩

/-- A command with a pixel function is a convolution of H0 into H1 with that function, both buffers the host's. -/
theorem portBody_of_pixelFunction {i : Instr} {pix : Params → Bool → Buffer → Nat → Nat → Byte}
    (hp : pixelFunction i = some pix) (s : State) :
    portBody i s = withHostBuffer s s.ports.h0 fun _ => withHostBuffer s s.ports.h1 fun _ =>
      convApply (pix s.params s.modeFloat) s.ports.h0 s.ports.h1 s := by
  cases i <;> cases hp <;> rfl

/-- A pixel function reads the entries of its command and, in FLOAT mode, the format (R46, R148). -/
theorem pixelFunction_congr {i : Instr} {pix : Params → Bool → Buffer → Nat → Nat → Byte}
    (hp : pixelFunction i = some pix) {p q : Params} {m : Bool} (h : sameEntries i m p q) : pix q m = pix p m := by
  cases i <;> cases hp
  case convBlur => exact convPixel_congr .blur .convBlur rfl p q m h
  case convSharpen => exact convPixel_congr .sharpen .convSharpen rfl p q m h
  case convGaussian => exact convPixel_congr .gaussian .convGaussian rfl p q m h
  case convSobelX => exact convPixel_congr .sobelX .convSobelX rfl p q m h
  case convSobelY => exact convPixel_congr .sobelY .convSobelY rfl p q m h
  case sobelMag => exact sobelPixel_congr p q m h

/-- A datapath command's result reads no more of the parameters than R46 lists. -/
theorem datapathResult_congr {i : Instr} (hi : i = .cscConvert ∨ ∃ pix, pixelFunction i = some pix) {p q : Params}
    {m : Bool} (h : sameEntries i m p q) (a b : Buffer) : datapathResult i q m a b = datapathResult i p m a b := by
  rcases hi with rfl | ⟨pix, hp⟩
  · simp only [datapathResult, pixelFunction, convertBuffer_congr p q m h]
  · simp only [datapathResult, hp, pixelFunction_congr hp h]

/-- A datapath command's result has the record of the destination (R126). -/
theorem datapathResult_record {i : Instr} {p : Params} {m : Bool} {a b c : Buffer}
    (h : datapathResult i p m a b = some c) : ∃ d, c = { b with data := d } := by
  unfold datapathResult at h
  split at h
  · cases h; exact Buffer.paint_record _ _ _
  · split at h
    · cases h
    · cases h; exact Buffer.paint_record _ _ _

/-- Only a conversion can be skipped (R141). -/
theorem cscConvert_of_datapathResult_none {i : Instr} (hi : i = .cscConvert ∨ ∃ pix, pixelFunction i = some pix)
    {p : Params} {m : Bool} {a b : Buffer} (h : datapathResult i p m a b = none) : i = .cscConvert := by
  rcases hi with hi | ⟨pix, hp⟩
  · exact hi
  · simp [datapathResult, hp] at h

/-- A datapath command completes on good operands, and leaves its result at H1 (R140, R141, R169, R190). -/
theorem exec_datapath_eq_next {i : Instr} (hi : i = .cscConvert ∨ ∃ pix, pixelFunction i = some pix) (s t : State) :
    exec i s = .next t ↔ s.running = false ∧ s.fatal = false ∧
      ∃ a b, s.mem.find s.ports.h0 = some a ∧ s.mem.find s.ports.h1 = some b ∧
        DatapathOperands i s.ports.h0 s.ports.h1 a b ∧
        t = s.accepted.deliver s.ports.h1 (datapathResult i s.params s.modeFloat a b) := by
  have notRun : i ≠ .run := by rintro rfl; simp [pixelFunction] at hi
  rw [exec_eq_next i notRun]
  refine and_congr_right fun _ => and_congr_right fun _ => ?_
  rcases hi with rfl | ⟨pix, hp⟩
  · simp only [portBody, withHostBuffer_eq_next, cscConvert_eq_next]
    constructor
    · rintro ⟨a, ha, hoa, b, hb, hob, a', b', ha', hb', ea, eb, rfl⟩
      cases ha.symm.trans ha'
      cases hb.symm.trans hb'
      refine ⟨a, b, ha, hb, ⟨hoa, hob, eb, ea⟩, ?_⟩
      simp only [datapathResult, pixelFunction]
      split <;> rfl
    · rintro ⟨a, b, ha, hb, ⟨hoa, hob, eb, ea⟩, rfl⟩
      refine ⟨a, ha, hoa, b, hb, hob, a, b, ha, hb, ea, eb, ?_⟩
      simp only [datapathResult, pixelFunction]
      split <;> rfl
  · simp only [portBody_of_pixelFunction hp, withHostBuffer_eq_next, convApply_eq_next, DatapathOperands,
      datapathResult, hp]
    constructor
    · rintro ⟨a, ha, hoa, b, hb, hob, a', b', ha', hb', ea, eb, hne, hw, hh, rfl⟩
      cases ha.symm.trans ha'
      cases hb.symm.trans hb'
      exact ⟨a, b, ha, hb, ⟨hoa, hob, eb, ea, hne, hw, hh⟩, rfl⟩
    · rintro ⟨a, b, ha, hb, ⟨hoa, hob, eb, ea, hne, hw, hh⟩, rfl⟩
      exact ⟨a, ha, hoa, b, hb, hob, a, b, ha, hb, ea, eb, hne, hw, hh, rfl⟩

/-! ### What the delivery of a result changes -/

theorem State.deliver_rc (s : State) (h : Nat) (r : Option Buffer) :
    (s.deliver h r).rc = if r = none then codeDimensionMismatch else s.rc := by cases r <;> rfl

theorem State.find_deliver (s : State) (h : Nat) (r : Option Buffer) (k : Nat) :
    (s.deliver h r).mem.find k = if k = h then r.or (s.mem.find k) else s.mem.find k := by
  cases r with
  | none => simp [State.deliver]
  | some b => simp [State.deliver, Memory.find_put]

/-- Delivery writes RC, STATUS and memory only. -/
theorem State.deliver_frame (s : State) (h : Nat) (r : Option Buffer) :
    s.deliver h r = { s with rc := (s.deliver h r).rc, mem := (s.deliver h r).mem, status := (s.deliver h r).status } := by
  cases r <;> rfl

end Sys2Proof.Machine

open Sys2Proof Sys2Proof.Machine

/-- Settles O38: the result is a function of the operand buffers, the entries read, the mode and the format, and its
delivery writes the destination's store, or STATUS.DIM_MISMATCH where there is none. -/
theorem datapathPure : Obligations.DatapathPure := by
  intro i hi s t e
  have hc := datapath_commands hi
  obtain ⟨-, -, a, b, ha, hb, ops, rfl⟩ := (exec_datapath_eq_next hc s t).1 e
  refine ⟨fun s' hr hf h0 h1 hm hent f0 f1 => ?_, State.deliver_frame _ _ _, fun k hk => ?_, fun c hbc => ?_, ?_⟩
  · refine ⟨s'.accepted.deliver s.ports.h1 (datapathResult i s.params s.modeFloat a b), ?_, ?_, ?_⟩
    · refine (exec_datapath_eq_next hc s' _).2 ⟨hr, hf, a, b, ?_, ?_, ?_, ?_⟩
      · rw [h0, f0, ha]
      · rw [h1, f1, hb]
      · rw [h0, h1]; exact ops
      · rw [h1, hm, datapathResult_congr hc hent]
    · simp only [State.find_deliver, State.accepted_mem, f1]
    · simp only [State.deliver_rc, State.accepted_rc]
  · simp only [State.find_deliver, State.accepted_mem, if_neg hk]
  · cases hb.symm.trans hbc
    simp only [State.find_deliver, if_true, State.accepted_mem, hb]
    cases hres : datapathResult i s.params s.modeFloat a b with
    | none => exact ⟨b.data, rfl⟩
    | some c =>
      obtain ⟨d, rfl⟩ := datapathResult_record hres
      exact ⟨d, rfl⟩
  · cases hres : datapathResult i s.params s.modeFloat a b with
    | none => exact .inr ⟨cscConvert_of_datapathResult_none hc hres, rfl, rfl, rfl⟩
    | some c => exact .inl ⟨rfl, rfl⟩
end

section
/-!
SUPPORT. FB.GET and FB.SET on the command port, element by element in the bytes of the store (R61 to R65); and the
control-register read-out (R81).
-/
namespace Sys2Proof.Machine

/-! ### The operand buffer -/

/-- A live buffer's bytes are its record's. -/
theorem State.byteAt_live {s : State} {h : Nat} {b : Buffer} (hb : s.mem.find h = some b) (a : Nat) :
    s.byteAt h a = Store.read b.data a := by simp [State.byteAt, hb]

theorem State.byteAt_putBuffer (s : State) (h : Nat) (b : Buffer) (a : Nat) :
    (s.putBuffer h b).byteAt h a = Store.read b.data a :=
  State.byteAt_live (by simp [Memory.find_put]) a

/-- A command with one operand buffer, live and owned by HOST, answers what its body does with the record (R127). -/
theorem exec_operand_live (i : Instr) {s : State} {b : Buffer} {k : Buffer → Result} (hi : i ≠ .run)
    (hp : portBody i s.accepted = withHostBuffer s.accepted s.ports.h0 k) (hr : s.running = false)
    (hf : s.fatal = false) (hb : s.mem.find s.ports.h0 = some b) (ho : b.owner = .host) : exec i s = k b := by
  rw [exec_open i hi s hr hf, hp]
  exact withHostBuffer_live s.accepted s.ports.h0 k b hb ho

/-- A command with one operand buffer refuses a dead handle (R127, U3). -/
theorem exec_operand_dead (i : Instr) {s : State} {k : Buffer → Result} (hi : i ≠ .run)
    (hp : portBody i s.accepted = withHostBuffer s.accepted s.ports.h0 k) (hr : s.running = false)
    (hf : s.fatal = false) (hd : s.mem.find s.ports.h0 = none) : exec i s = .refused (.deadHandle s.ports.h0) := by
  rw [exec_open i hi s hr hf, hp]
  exact withBuffer_dead s.accepted s.ports.h0 _ hd

/-! ### Reading one element -/

/-- The element at (x, y) by the bytes of the store, the zero value out of range (R61, R62, R64, R94). -/
theorem State.getPort_bytes {s : State} {h : Nat} {b : Buffer} (hb : s.mem.find h = some b) (x y : Int) :
    b.getPort x y =
      if 0 ≤ x ∧ x < b.width.toNat ∧ 0 ≤ y ∧ y < b.height.toNat then
        match b.elem with
        | .gray => (s.byteAt h (b.index x y)).setWidth 24
        | .rgb => s.byteAt h (3 * b.index x y) ++ s.byteAt h (3 * b.index x y + 1) ++ s.byteAt h (3 * b.index x y + 2)
      else 0#24 := by
  simp only [State.byteAt_live hb, ← b.inRange_iff]
  by_cases hin : b.inRange x y = true
  · cases he : b.elem with
    | gray => simp only [Buffer.getPort, he, Buffer.getGray, hin, if_true]
    | rgb => simp only [Buffer.getPort, he, Buffer.getRgb, hin, if_true, packPixel]
  · cases he : b.elem with
    | gray => simp [Buffer.getPort, he, Buffer.getGray, hin]
    | rgb => simp [Buffer.getPort, he, Buffer.getRgb, hin, packPixel]

/-! ### Writing one element -/

theorem Buffer.setPort_outside (b : Buffer) (x y : Int) (v : BitVec 24) (h : b.inRange x y = false) :
    b.setPort x y v = b := by
  cases he : b.elem with
  | gray => simp [Buffer.setPort, he, Buffer.setGray, h]
  | rgb => simp [Buffer.setPort, he, Buffer.setRgb, h]

/-- FB.SET keeps the record but for its store. -/
theorem Buffer.setPort_record (b : Buffer) (x y : Int) (v : BitVec 24) :
    b.setPort x y v = { b with data := (b.setPort x y v).data } := by
  rw [Buffer.mk.injEq]
  exact ⟨b.setPort_elem x y v, b.setPort_width x y v, b.setPort_height x y v, b.setPort_owner x y v, rfl⟩

/-- The bytes after a write to a GRAY buffer: the element's one byte is the V port's low byte (R65, R94). -/
theorem Buffer.read_setPort_gray {b : Buffer} {x y : Int} (v : BitVec 24) (hc : Store.canonical b.data = true)
    (hin : b.inRange x y = true) (he : b.elem = .gray) (a : Nat) :
    Store.read (b.setPort x y v).data a =
      if a = b.index x y then v.extractLsb' 0 8 else Store.read b.data a := by
  simp only [Buffer.setPort, he, Buffer.setGray, hin, if_true, Store.read_write _ _ _ _ hc, grayOfPort]

/-- The bytes after a write to an RGB buffer: the element's three bytes are R, G, B of the V port (R62, R65, R94). -/
theorem Buffer.read_setPort_rgb {b : Buffer} {x y : Int} (v : BitVec 24) (hc : Store.canonical b.data = true)
    (hin : b.inRange x y = true) (he : b.elem = .rgb) (a : Nat) :
    Store.read (b.setPort x y v).data a =
      if a = 3 * b.index x y + 2 then v.extractLsb' 0 8
      else if a = 3 * b.index x y + 1 then v.extractLsb' 8 8
      else if a = 3 * b.index x y then v.extractLsb' 16 8
      else Store.read b.data a := by
  have c1 := Store.canonical_write b.data (3 * b.index x y) (v.extractLsb' 16 8) hc
  have c2 := Store.canonical_write _ (3 * b.index x y + 1) (v.extractLsb' 8 8) c1
  simp only [Buffer.setPort, he, Buffer.setRgb, hin, if_true, unpackPixel]
  rw [Store.read_write _ _ _ _ c2, Store.read_write _ _ _ _ c1, Store.read_write _ _ _ _ hc]

/-! ### Control registers -/

/-- One step serves the soonest host input (R263). -/
theorem step_serves {s : State} {i : HostInput} {rest : List HostInput} (h : s.host = i :: rest) :
    step s = serveHost i { s with host := rest } := by
  simp only [step, nextBoundary, h]

theorem State.readCR_above (s : State) {n : Nat} (hn : 6 < n) : s.readCR n = none := by
  obtain ⟨k, rfl⟩ := Nat.exists_eq_add_of_le' hn
  rfl

/-- What a read of CR0 to CR6 gives, zero-extended (R30, R81). -/
theorem State.readCR_toNat (s : State) : ∀ n ≤ 6, ∃ v, s.readCR n = some v ∧
    v.toNat = [s.ctrl.toNat, s.status.toNat, s.inCursor.toNat, s.outCursor.toNat, s.total.toNat,
      s.phase.code.toNat, s.tick.toNat].getD n 0
  | 0, _ => ⟨_, rfl, BitVec.toNat_setWidth_of_le (by decide)⟩
  | 1, _ => ⟨_, rfl, BitVec.toNat_setWidth_of_le (by decide)⟩
  | 2, _ | 3, _ | 4, _ | 6, _ => ⟨_, rfl, rfl⟩
  | 5, _ => ⟨_, rfl, BitVec.toNat_setWidth_of_le (by decide)⟩

end Sys2Proof.Machine

open Sys2Proof Sys2Proof.Machine

/-- Settles O8: the step serves the host's read or write, and a read is the register's value by number. -/
theorem controlRegisterAccess : Obligations.ControlRegisterAccess := by
  refine ⟨fun s n rest h hn => ?_, fun s n v rest h => ?_, fun s n rest h hn => ?_⟩
  · rw [step_serves h]
    simp only [serveHost, readRegister, State.readCR_above _ hn]
  · exact step_serves h
  · obtain ⟨v, hv, hval⟩ := State.readCR_toNat { s with host := rest } n hn
    refine ⟨v, ?_, hval⟩
    rw [step_serves h]
    simp only [serveHost, readRegister, hv]

/-- Settles O13: FB.GET puts the record's element on RV, which `State.getPort_bytes` gives by the bytes of the store. -/
theorem fbGetReadsElement : Obligations.FbGetReadsElement := by
  refine ⟨fun s b hr hf hb ho => ?_, fun s => exec_operand_dead .fbGet (by decide) rfl⟩
  have hget : exec .fbGet s = .next (s.accepted.giveValue (b.getPort s.ports.xInt s.ports.yInt)) :=
    exec_operand_live .fbGet (by decide) rfl hr hf hb ho
  rw [hget, State.getPort_bytes hb]
  rfl

/-- Settles O14: FB.SET replaces the operand's record by `Buffer.setPort`, whose bytes are those of the old record but
for the element's (`Buffer.read_setPort_gray`, `Buffer.read_setPort_rgb`). -/
theorem fbSetWritesElement : Obligations.FbSetWritesElement := by
  refine ⟨fun s b hr hf hm hb ho => ?_, fun s => exec_operand_dead .fbSet (by decide) rfl⟩
  obtain ⟨-, -, -, hc, -⟩ := b.wf_iff.1 (Memory.wf_find _ _ _ hm hb)
  have hset : exec .fbSet s = .next (s.accepted.putBuffer s.ports.h0 (b.setPort s.ports.xInt s.ports.yInt s.ports.v)) :=
    exec_operand_live .fbSet (by decide) rfl hr hf hb ho
  refine ⟨_, hset, rfl, ⟨(b.setPort s.ports.xInt s.ports.yInt s.ports.v).data, ?_⟩,
    fun k hk => ?_, fun hout a => ?_, fun hin he => ?_, fun hin he => ?_⟩
  · rw [← b.setPort_record]
    simp [Memory.find_put]
  · simp [Memory.find_put, hk]
  · rw [State.byteAt_putBuffer, b.setPort_outside _ _ _ hout, State.byteAt_live hb]
  · simp only [State.byteAt_putBuffer, State.byteAt_live hb, Buffer.read_setPort_gray _ hc hin he, if_true, true_and]
    exact fun a ha => if_neg ha
  · simp only [State.byteAt_putBuffer, State.byteAt_live hb, Buffer.read_setPort_rgb _ hc hin he]
    refine ⟨by simp, by simp, by simp, fun a h0 h1 h2 => ?_⟩
    rw [if_neg h2, if_neg h1, if_neg h0]
end

section
/-!
SUPPORT. The command byte: its fields and its packing are inverse to each other (R91), every branch of the opcode map
agrees with the encoder (R93), and the branches that reserve a sub-field (R106). Also the layout of a fixed Kernel Table
entry (R103).
-/
namespace Sys2Proof

/-! ### Fields and packing (R91) -/

theorem opField_lt (b : BitVec 8) : opField b < 16 := (b.extractLsb' 4 4).isLt

theorem subField_lt (b : BitVec 8) : subField b < 8 := (b.extractLsb' 0 3).isLt

theorem opField_packCommand (op sub : Nat) : opField (packCommand op sub) = op % 16 := by
  rw [opField, packCommand, BitVec.extractLsb'_append_eq_of_le (by decide), BitVec.extractLsb'_eq_self,
    BitVec.toNat_ofNat]

theorem subField_packCommand (op sub : Nat) : subField (packCommand op sub) = sub % 8 := by
  rw [subField, packCommand, BitVec.extractLsb'_append_eq_of_add_le (by decide),
    BitVec.extractLsb'_append_eq_of_add_le (by decide), BitVec.extractLsb'_eq_self, BitVec.toNat_ofNat]

theorem zField_packCommand (op sub : Nat) : zField (packCommand op sub) = false := by
  rw [zField, packCommand, BitVec.getLsbD_append, BitVec.getLsbD_append]
  rfl

/-- A byte with Z = 0 is its two fields packed again. -/
theorem packCommand_fields {b : BitVec 8} (hz : zField b = false) : packCommand (opField b) (subField b) = b := by
  have hbit : 0#1 = b.extractLsb' 3 1 := by
    ext i hi
    obtain rfl : i = 0 := by omega
    simpa [zField] using hz.symm
  rw [packCommand, opField, subField, BitVec.ofNat_toNat, BitVec.ofNat_toNat, BitVec.setWidth_eq, BitVec.setWidth_eq,
    hbit, BitVec.extractLsb'_append_extractLsb'_eq_extractLsb' (by decide),
    BitVec.extractLsb'_append_extractLsb'_eq_extractLsb' (by decide), BitVec.extractLsb'_eq_self]

theorem decode_of_zBit {b : BitVec 8} (hz : zField b = true) : decode b = .reserved .zBitSet := if_pos hz

theorem decode_of_fields {b : BitVec 8} (hz : zField b = false) : decode b = decodeFields (opField b) (subField b) := by
  simp [decode, hz]

/-- The decoder on a packed byte reads the opcode map at the two fields it was packed from. -/
theorem decode_packCommand {op sub : Nat} (hop : op < 16) (hsub : sub < 8) :
    decode (packCommand op sub) = decodeFields op sub := by
  rw [decode_of_fields (zField_packCommand op sub), opField_packCommand, subField_packCommand, Nat.mod_eq_of_lt hop,
    Nat.mod_eq_of_lt hsub]

/-! ### From the instruction to its byte and back (R93) -/

/-- A well-formed instruction is what the decoder reads from its byte. -/
theorem decode_encode {i : Instr} (h : i.wellFormed = true) : decode (encode i) = .instr i := by
  cases i with
  | fbCreate t => cases t <;> exact decode_packCommand (by decide) (by decide)
  | fbMove o =>
    cases o with
    | free => cases h
    | raw | gray | proc | ppSrc | ppDst | cscOut | host => exact decode_packCommand (by decide) (by decide)
  | fbGet | fbSet | fbDestroy | ppSwap | cscConvert | convBlur | convSharpen | convGaussian | convSobelX | convSobelY
  | sobelMag | actOutput | actFilter | actConvert | actInput | tick | run =>
    exact decode_packCommand (by decide) (by decide)

/-- If `d` is an instruction, it is a well-formed one whose byte has the fields `op` and `sub`. -/
def EncodedAt (op sub : Nat) (d : Decoded) : Prop :=
  ∀ i, d = .instr i → i.wellFormed = true ∧ encode i = packCommand op sub

theorem EncodedAt.reserved (op sub : Nat) (why : Reject) : EncodedAt op sub (.reserved why) :=
  fun _ e => nomatch e

theorem EncodedAt.instr {op sub : Nat} {i : Instr} (hw : i.wellFormed = true) (he : encode i = packCommand op sub) :
    EncodedAt op sub (.instr i) := by
  rintro _ ⟨⟩; exact ⟨hw, he⟩

theorem EncodedAt.create : ∀ sub, EncodedAt 1 sub (decodeCreate sub)
  | 0 | 1 => .instr rfl rfl
  | _ + 2 => .reserved _ _ _

theorem EncodedAt.move : ∀ sub, EncodedAt 5 sub (decodeMove sub)
  | 0 => .reserved _ _ _
  | 1 | 2 | 3 | 4 | 5 | 6 | 7 => .instr rfl rfl
  | _ + 8 => .reserved _ _ _

theorem EncodedAt.conv : ∀ sub, EncodedAt 8 sub (decodeConv sub)
  | 0 | 1 | 2 | 3 | 4 => .instr rfl rfl
  | _ + 5 => .reserved _ _ _

theorem EncodedAt.action : ∀ sub, EncodedAt 10 sub (decodeAction sub)
  | 0 | 1 | 2 | 3 => .instr rfl rfl
  | _ + 4 => .reserved _ _ _

theorem EncodedAt.plain {op : Nat} {i : Instr} (hw : i.wellFormed = true) (he : encode i = packCommand op 0) :
    ∀ sub, EncodedAt op sub (decodePlain i sub)
  | 0 => .instr hw he
  | _ + 1 => .reserved _ _ _

/-- Every entry of the opcode map is an instruction of those two fields, or reserved. -/
theorem encodedAt_decodeFields (op sub : Nat) : EncodedAt op sub (decodeFields op sub) := by
  unfold decodeFields
  split
  · exact .create sub
  · exact .plain rfl rfl sub
  · exact .plain rfl rfl sub
  · exact .plain rfl rfl sub
  · exact .move sub
  · exact .plain rfl rfl sub
  · exact .plain rfl rfl sub
  · exact .conv sub
  · exact .plain rfl rfl sub
  · exact .action sub
  · exact .plain rfl rfl sub
  · exact .plain rfl rfl sub
  · exact .reserved _ _ _

/-- A byte that decodes to an instruction is that instruction's byte, and the instruction is well formed. -/
theorem encode_of_decode {b : BitVec 8} {i : Instr} (h : decode b = .instr i) : i.wellFormed = true ∧ encode i = b := by
  cases hz : zField b with
  | true => rw [decode_of_zBit hz] at h; cases h
  | false =>
    rw [decode_of_fields hz] at h
    have hi := encodedAt_decodeFields _ _ i h
    rwa [packCommand_fields hz] at hi

/-! ### Reserved bytes (R106) -/

/-- The decoder's answer selects no operation. -/
def Decoded.SelectsNone (d : Decoded) : Prop := ∃ why, d = .reserved why

theorem selectsNone_reserved (why : Reject) : (Decoded.reserved why).SelectsNone := ⟨why, rfl⟩

theorem not_selectsNone_instr (i : Instr) : ¬ (Decoded.instr i).SelectsNone := fun ⟨_, h⟩ => nomatch h

theorem selectsNone_decodeCreate : ∀ sub, (decodeCreate sub).SelectsNone ↔ 1 < sub
  | 0 | 1 => iff_of_false (not_selectsNone_instr _) (by decide)
  | _ + 2 => iff_of_true (selectsNone_reserved _) (by omega)

theorem selectsNone_decodeMove {sub : Nat} (hsub : sub < 8) : (decodeMove sub).SelectsNone ↔ sub = 0 :=
  match sub, hsub with
  | 0, _ => iff_of_true (selectsNone_reserved _) rfl
  | 1, _ | 2, _ | 3, _ | 4, _ | 5, _ | 6, _ | 7, _ => iff_of_false (not_selectsNone_instr _) (by decide)

theorem selectsNone_decodeConv : ∀ sub, (decodeConv sub).SelectsNone ↔ 5 ≤ sub
  | 0 | 1 | 2 | 3 | 4 => iff_of_false (not_selectsNone_instr _) (by decide)
  | _ + 5 => iff_of_true (selectsNone_reserved _) (by omega)

theorem selectsNone_decodeAction : ∀ sub, (decodeAction sub).SelectsNone ↔ 4 ≤ sub
  | 0 | 1 | 2 | 3 => iff_of_false (not_selectsNone_instr _) (by decide)
  | _ + 4 => iff_of_true (selectsNone_reserved _) (by omega)

theorem selectsNone_decodePlain (i : Instr) : ∀ sub, (decodePlain i sub).SelectsNone ↔ sub ≠ 0
  | 0 => iff_of_false (not_selectsNone_instr _) (by decide)
  | _ + 1 => iff_of_true (selectsNone_reserved _) (by omega)

/-- The reserved entries of the opcode map. -/
theorem selectsNone_decodeFields {op sub : Nat} (hop : op < 16) (hsub : sub < 8) :
    (decodeFields op sub).SelectsNone ↔
      (op = 0 ∨ op = 13 ∨ op = 14 ∨ op = 15 ∨ (op = 1 ∧ 1 < sub) ∨ (op = 5 ∧ sub = 0) ∨ (op = 8 ∧ 5 ≤ sub)
        ∨ (op = 10 ∧ 4 ≤ sub) ∨ (op ∈ [2, 3, 4, 6, 7, 9, 11, 12] ∧ sub ≠ 0)) := by
  interval_cases op <;>
    simp [decodeFields, selectsNone_reserved, selectsNone_decodeCreate, selectsNone_decodeMove hsub,
      selectsNone_decodeConv, selectsNone_decodeAction, selectsNone_decodePlain]

/-- A byte selects no operation when its Z is 1, or by its two fields. -/
theorem selectsNone_decode (b : BitVec 8) :
    (decode b).SelectsNone ↔ zField b = true ∨ (decodeFields (opField b) (subField b)).SelectsNone := by
  cases hz : zField b with
  | true => exact iff_of_true (decode_of_zBit hz ▸ selectsNone_reserved _) (.inl rfl)
  | false => rw [decode_of_fields hz]; simp

/-! ### The fixed Kernel Table entry (R103) -/

-- The library's laws of a slice of `x ++ y` match a width written as a sum, so the widths are not added up.

/-- Unpacking a packed entry gives it back: each field is cut out of the part of the 176 bits it was put into. -/
theorem Kernel.unpack_pack (k : Kernel) : Kernel.unpack k.pack = k := by
  simp [Kernel.unpack, Kernel.pack, BitVec.extractLsb'_append_eq_of_le, BitVec.extractLsb'_append_eq_of_add_le,
    -Nat.reduceAdd]

/-- Bits 159:149 of a packed entry are 0. -/
theorem Kernel.pack_gap (k : Kernel) : k.pack.extractLsb' 149 11 = 0#11 := by
  simp [Kernel.pack, BitVec.extractLsb'_append_eq_of_le, BitVec.extractLsb'_append_eq_of_add_le, -Nat.reduceAdd]

/-- The weight at row-major position `j` is read from bits 16j+15 to 16j. -/
theorem Kernel.unpack_weight (b : BitVec 176) (j : Fin 9) :
    b.extractLsb' (16 * j) 16 = (Kernel.unpack b).w.toList.getD j 0#16 := by
  fin_cases j <;> rfl

end Sys2Proof

namespace Sys2Proof.Machine

/-! ### The step at the host's port (R92, R207, R263) -/

theorem step_alone {s : State} (h : s.host = []) : step s = boundary s := by
  simp only [step, nextBoundary, h]

theorem boundary_active {s : State} (h : s.running = true) : boundary s = exec .run s := if_pos h

theorem boundary_idle {s : State} (h : s.running = false) : boundary s = .next s := by simp [boundary, h]

theorem presentCommand_active (cmd : BitVec 8) (ports : Ports) {s : State} (h : s.running = true) :
    presentCommand cmd ports s = .refused .runActive := if_pos h

theorem presentCommand_instr {cmd : BitVec 8} {i : Instr} (ports : Ports) {s : State} (hr : s.running = false)
    (h : decode cmd = .instr i) : presentCommand cmd ports s = exec i { s with ports := ports } := by
  simp [presentCommand, hr, h]

theorem presentCommand_reserved {cmd : BitVec 8} {why : Reject} (ports : Ports) {s : State} (hr : s.running = false)
    (h : decode cmd = .reserved why) : presentCommand cmd ports s = .refused (.reservedCommand cmd) := by
  simp [presentCommand, hr, h]

theorem launch_active (ctrl : BitVec 8) (pending : List Ident) {s : State} (h : s.running = true) :
    launch ctrl pending s = .refused .runActive := if_pos h

/-- A command that decodes is executed in the very step that takes it, on the ports it brings. -/
theorem step_command {s : State} {cmd : BitVec 8} {ports : Ports} {rest : List HostInput} {i : Instr}
    (hr : s.running = false) (hh : s.host = .command cmd ports :: rest) (hd : decode cmd = .instr i) :
    step s = exec i { s with host := rest, ports := ports } :=
  (step_serves hh).trans (presentCommand_instr ports (s := { s with host := rest }) hr hd)

theorem exec_active {i : Instr} (hi : i ≠ .run) {s : State} (h : s.running = true) :
    exec i s = .refused .runActive := by rw [exec_port i hi, onPort_running s _ h]

theorem execRun_fatal {s : State} (h : s.fatal = true) : execRun s = .refused .afterFatal := if_pos h

theorem execRun_done {s : State} (hf : s.fatal = false) (hd : s.done = true) : execRun s = .refused .runFinished := by
  simp [execRun, hf, hd]

/-- With no run active, FATAL turns every operation away, by the port's rule or by RUN's own (R92, R207). -/
theorem exec_fatal (i : Instr) {s : State} (hr : s.running = false) (hf : s.fatal = true) :
    exec i s = .refused .afterFatal := by
  by_cases hi : i = .run
  · subst hi; exact execRun_fatal hf
  · rw [exec_port i hi, onPort_fatal s _ hr hf]

end Sys2Proof.Machine

open Sys2Proof Sys2Proof.Machine

/-- Settles O1: the opcode map is read at the fields a byte was packed from, and each of its entries is an instruction
of those fields. -/
theorem decodeEncodeAgree : Obligations.DecodeEncodeAgree :=
  ⟨fun _ => decode_encode, fun _ _ => encode_of_decode⟩

/-- Settles O2: by the reserved entries of the opcode map, the bit Z apart. -/
theorem reservedBytesRefused : Obligations.ReservedBytesRefused := by
  refine fun b => ⟨(selectsNone_decode b).trans ?_, fun ⟨_, hd⟩ ports s hr => presentCommand_reserved ports hr hd⟩
  rw [selectsNone_decodeFields (opField_lt b) (subField_lt b)]
  tauto

/-- Settles O4: where each field stands is what unpacking cuts out, and unpacking gives the entry back. -/
theorem kernelEntryLayout : Obligations.KernelEntryLayout := by
  intro k
  have hk := k.unpack_pack
  refine ⟨fun j => ?_, congrArg Kernel.shift hk, k.pack_gap, congrArg Kernel.bias hk, hk⟩
  rw [Kernel.unpack_weight, hk]

/-- Settles O3: each word is the byte of its instruction. -/
theorem sampleWords : Obligations.SampleWords :=
  ⟨decode_encode (i := .fbCreate .rgb) rfl, decode_encode (i := .fbMove .gray) rfl, decode_encode (i := .cscConvert) rfl,
    decode_encode (i := .convGaussian) rfl, decode_encode (i := .sobelMag) rfl, decode_encode (i := .actInput) rfl,
    decode_encode (i := .run) rfl⟩

/-- Settles O5: a table word presents the byte of its instruction on the ports as they are. -/
theorem stepRunsDecodedCommand : Obligations.StepRunsDecodedCommand := by
  refine ⟨fun s cmd ports rest i => step_command, fun s i hw => ?_⟩
  have hword : decode (BitVec.ofNat 8 (encode i).toNat) = .instr i := by
    rw [BitVec.ofNat_toNat, BitVec.setWidth_eq, decode_encode hw]
  exact step_command (s := s.withFetchWord 8 (encode i).toNat) rfl rfl hword

/-- Settles O6: an empty list of inputs and the input idle both leave the core on its own. -/
theorem coreOnItsOwn : Obligations.CoreOnItsOwn := by
  refine fun s => ⟨fun hh hr => ?_, fun hh hr => ?_, fun rest hh hr => ?_, fun rest hh hr => ?_⟩
  · rw [step_alone hh, boundary_active hr]
  · rw [step_alone hh, boundary_idle hr]
  · exact (step_serves hh).trans (boundary_active (s := { s with host := rest }) hr)
  · exact (step_serves hh).trans (boundary_idle (s := { s with host := rest }) hr)

/-- Settles O7: an active run turns away a command, a launch and every operation but its own iterations; FATAL and DONE
turn away what comes after them. -/
theorem commandsTurnedAway : Obligations.CommandsTurnedAway := by
  refine ⟨fun s cmd ports rest hr hh => ?_, fun i s hr hi => exec_active hi hr, fun i s => exec_fatal i,
    fun s hf hd => (exec_run s).trans (execRun_done hf hd), fun s ctrl pending rest hr hh => ?_⟩
  · exact (step_serves hh).trans (presentCommand_active cmd ports (s := { s with host := rest }) hr)
  · exact (step_serves hh).trans (launch_active ctrl pending (s := { s with host := rest }) hr)
end

section
/-!
SUPPORT. Ownership through every operation and every step (R128), and a dead handle through every step that is no launch
(R25).
-/
namespace Sys2Proof.Machine

/-! ### Ownership -/

/-- Ownership speaks of no port, of the host's list, of the read-out, of RC or of the run bit. -/
theorem Owned.congrPort {s t : State} (o : Owned s)
    (ht : t = { s with rc := t.rc, running := t.running, host := t.host, ports := t.ports, crData := t.crData }) :
    Owned t := by
  rw [ht]; exact o.congr rfl rfl (fun p => by cases p <;> rfl)

/-- Every operation keeps ownership: by its body, or, for RUN, by its tick (R128). -/
theorem Owned.of_exec {i : Instr} {s t : State} (o : Owned s) (e : exec i s = .next t) : Owned t := by
  by_cases hi : i = .run
  · subst hi
    obtain ⟨-, -, u, hu, hcase⟩ := exec_run_cases e
    have ou : Owned u := o.congrPort (by rw [hu])
    rcases hcase with ⟨v, ev, rfl⟩ | rfl
    · exact (ou.schedTick ev).congrPort (nestedCode_rc u v)
    · exact ou.congr rfl rfl u.holder_finishRun
  · obtain ⟨-, -, e⟩ := (exec_eq_next i hi s t).1 e
    exact portBody_owned e (o.congrPort rfl)

/-! ### Dead handles -/

theorem keepsDead_boundary : KeepsDead boundary := fun h s t d e => by
  cases hr : s.running with
  | true => rw [boundary_active hr] at e; exact keepsDead_exec .run h s t d e
  | false => rw [boundary_idle hr] at e; cases e; exact d

theorem keepsDead_presentCommand (cmd : BitVec 8) (ports : Ports) : KeepsDead (presentCommand cmd ports) :=
  fun h s t d e => by
    cases hr : s.running with
    | true => rw [presentCommand_active cmd ports hr] at e; cases e
    | false =>
      cases hd : decode cmd with
      | instr i =>
        rw [presentCommand_instr ports hr hd] at e
        exact keepsDead_exec i h { s with ports := ports } t (d.congr rfl rfl) e
      | reserved why => rw [presentCommand_reserved ports hr hd] at e; cases e

theorem keepsDead_readRegister (n : Nat) : KeepsDead (readRegister n) := fun h s t d e => by
  unfold readRegister at e
  split at e
  · cases e; exact d.congr rfl rfl
  · cases e

/-- Every input of the host but a launch leaves a dead handle dead. -/
theorem keepsDead_serveHost {i : HostInput} (hi : ∀ ctrl pending, i ≠ .launch ctrl pending) :
    KeepsDead (serveHost i) := by
  cases i with
  | idle => exact keepsDead_boundary
  | command cmd ports => exact keepsDead_presentCommand cmd ports
  | launch ctrl pending => exact absurd rfl (hi ctrl pending)
  | readCR n => exact keepsDead_readRegister n
  | writeCR n v => exact keepsDead_refuse (.registerWrite n)

/-- A dead handle stays dead in every step that serves no launch (R25). -/
theorem Dead.of_step {h : Nat} {s t : State} (d : Dead h s)
    (hl : ∀ ctrl pending, s.host.head? ≠ some (.launch ctrl pending)) (e : step s = .next t) : Dead h t := by
  cases hh : s.host with
  | nil => rw [step_alone hh] at e; exact keepsDead_boundary h s t d e
  | cons i rest =>
    rw [step_serves hh] at e
    refine keepsDead_serveHost (fun ctrl pending hi => hl ctrl pending ?_) h { s with host := rest } t (d.congr rfl rfl) e
    rw [hh, hi]; rfl

end Sys2Proof.Machine

open Sys2Proof Sys2Proof.Machine

/-- Settles O52: an operation keeps ownership, a launch leaves nothing owned, and what else a step does ownership does not
speak of. -/
theorem ownedKept : Obligations.OwnedKept := by
  intro s t o e
  obtain ⟨u, hu, h⟩ := step_cases e
  have ou : Owned u := o.congrPort (by rw [hu])
  rcases h with ⟨i, e⟩ | ⟨-, rfl⟩ | ⟨n, v, -, rfl⟩ | ⟨ctrl, pending, e⟩
  · exact ou.of_exec e
  · exact ou
  · exact ou.congrPort rfl
  · obtain ⟨-, -, rfl⟩ := (launch_eq_next _ _ _ _).1 e
    exact .launched u ctrl pending
end

section
/-!
SUPPORT. FB.CREATE, FB.DESTROY, FB.MOVE and PP.SWAP on the command port (R120, R123 to R125), and the check of the operand
handles (R127, R147).
-/
namespace Sys2Proof.Machine

/-! ### Operand handles (R127) -/

theorem withHostBuffer_dead (s : State) (h : Nat) (k : Buffer → Result) (hd : s.mem.find h = none) :
    withHostBuffer s h k = .refused (.deadHandle h) := withBuffer_dead s h _ hd

theorem withHostBuffer_foreign (s : State) (h : Nat) (k : Buffer → Result) {b : Buffer} (hb : s.mem.find h = some b)
    (ho : b.owner ≠ .host) : withHostBuffer s h k = .refused (.notHostOwned h) := by
  rw [withHostBuffer, withBuffer_live s h _ b hb, if_neg ho]

/-- The commands that take a HOST buffer at H0. -/
theorem portBody_checks_h0 {i : Instr} (hi : i ∈ [Instr.fbGet, .fbSet, .fbDestroy, .cscConvert, .convBlur, .convSharpen,
    .convGaussian, .convSobelX, .convSobelY, .sobelMag]) :
    i ≠ .run ∧ ∀ s, ∃ k, portBody i s = withHostBuffer s s.ports.h0 k := by
  simp only [List.mem_cons, List.not_mem_nil, or_false] at hi
  rcases hi with rfl | rfl | rfl | rfl | rfl | rfl | rfl | rfl | rfl | rfl
  all_goals exact ⟨by decide, fun _ => ⟨_, rfl⟩⟩

/-- A datapath command takes a HOST buffer at H0, and then one at H1. -/
theorem portBody_checks_h1 {i : Instr} (hi : i = .cscConvert ∨ ∃ pix, pixelFunction i = some pix) :
    i ≠ .run ∧ ∀ s, ∃ k, portBody i s = withHostBuffer s s.ports.h0 fun _ => withHostBuffer s s.ports.h1 k := by
  rcases hi with rfl | ⟨pix, hp⟩
  · exact ⟨by decide, fun _ => ⟨_, rfl⟩⟩
  · have notRun : i ≠ .run := by rintro rfl; cases hp
    exact ⟨notRun, fun s => ⟨_, portBody_of_pixelFunction hp s⟩⟩

theorem cscConvert_source_type {s : State} {r g : Nat} {rgb gray : Buffer} (hr : s.mem.find r = some rgb)
    (hg : s.mem.find g = some gray) (he : rgb.elem ≠ .rgb) : cscConvert r g s = .refused (.wrongElementType r) := by
  rw [cscConvert, withBuffer_live s r _ rgb hr, withBuffer_live s g _ gray hg, if_pos he]

theorem cscConvert_dest_type {s : State} {r g : Nat} {rgb gray : Buffer} (hr : s.mem.find r = some rgb)
    (hg : s.mem.find g = some gray) (he : rgb.elem = .rgb) (hd : gray.elem ≠ .gray) :
    cscConvert r g s = .refused (.wrongElementType g) := by
  rw [cscConvert, withBuffer_live s r _ rgb hr, withBuffer_live s g _ gray hg, if_neg (not_not.2 he), if_pos hd]

/-! ### FB.CREATE (R120) -/

/-- FB.CREATE on the port: the create, then the new handle on RH. -/
theorem exec_fbCreate (e : ElemType) {s : State} (hr : s.running = false) (hf : s.fatal = false) :
    exec (.fbCreate e) s = bindNext (fbCreate e s.ports.dw s.ports.dh .host s.accepted)
      fun u => .next (u.giveHandle s.nextHandle) := exec_open (.fbCreate e) (by simp) s hr hf

theorem fbCreate_zeroDimension {w h : BitVec 16} (hz : w = 0#16 ∨ h = 0#16) (e : ElemType) (o : OwnerTag) (s : State) :
    fbCreate e w h o s = .refused .zeroDimension := if_pos hz

theorem fbCreate_unallocated {e : ElemType} {w h : BitVec 16} {o : OwnerTag} {s : State} (hw : w ≠ 0#16) (hh : h ≠ 0#16)
    (ho : s.holder o = none) (ha : s.allocAnswer e w.toNat h.toNat = false) :
    fbCreate e w h o s = raiseAllocation (s.afterAlloc e w.toNat h.toNat) := by
  simp [fbCreate, hw, hh, ho, ha]

/-- A fresh buffer shows the zero value everywhere, in both element types (R27, R64). -/
theorem Buffer.fresh_getPort (e : ElemType) (w h : BitVec 16) (o : OwnerTag) (x y : Int) :
    (Buffer.fresh e w h o).getPort x y = 0#24 := by
  cases e with
  | gray => simp [Buffer.getPort, Buffer.fresh, Buffer.getGray, Store.read]
  | rgb => simp [Buffer.getPort, Buffer.fresh, Buffer.getRgb, Store.read, packPixel]

/-! ### FB.MOVE (R124) -/

/-- What a holder accepts, by the tags R22 names. -/
theorem acceptsType_iff (o : OwnerTag) (e : ElemType) : acceptsType o e = true ↔
    (o = .raw → e = .rgb) ∧ (o ∈ [OwnerTag.gray, .proc, .ppSrc, .ppDst, .cscOut] → e = .gray) := by
  cases o <;> simp [acceptsType]

/-- FB.MOVE on the port of a HOST buffer, or back to HOST, is the move (R127). -/
theorem exec_fbMove {s : State} {o : OwnerTag} {b : Buffer} (hr : s.running = false) (hf : s.fatal = false)
    (hb : s.mem.find s.ports.h0 = some b) (ho : b.owner = .host ∨ o = .host) :
    exec (.fbMove o) s = fbMove s.ports.h0 o s.accepted := by
  rw [exec_open _ (by simp) s hr hf]
  exact (withBuffer_live s.accepted s.ports.h0 _ b hb).trans (if_pos ho)

theorem exec_fbMove_foreign {s : State} {o : OwnerTag} {b : Buffer} (hr : s.running = false) (hf : s.fatal = false)
    (hb : s.mem.find s.ports.h0 = some b) (hh : b.owner ≠ .host) (ho : o ≠ .host) :
    exec (.fbMove o) s = .refused (.notHostOwned s.ports.h0) := by
  rw [exec_open _ (by simp) s hr hf]
  exact (withBuffer_live s.accepted s.ports.h0 _ b hb).trans (if_neg (not_or.2 ⟨hh, ho⟩))

theorem fbMove_wrongElementType {s : State} {h : Nat} {o : OwnerTag} {b : Buffer} (hb : s.mem.find h = some b)
    (ht : ¬ acceptsType o b.elem = true) : fbMove h o s = .refused (.wrongElementType h) := by
  have hf : o ≠ .free := by rintro rfl; exact ht rfl
  rw [fbMove, withBuffer_live s h _ b hb, if_neg hf, if_pos (Bool.eq_false_of_not_eq_true ht)]

theorem fbMove_holderOccupied {s : State} {h : Nat} {o : OwnerTag} {b : Buffer} (hb : s.mem.find h = some b)
    (hf : o ≠ .free) (ht : acceptsType o b.elem = true) (hh : s.holder o ≠ none) :
    fbMove h o s = .refused (.holderOccupied o) := by
  rw [fbMove, withBuffer_live s h _ b hb, if_neg hf, if_neg (by simp [ht]), if_pos hh]

/-- Handing a buffer over changes the store and the holders. -/
theorem State.handTo_frame (s : State) (h : Nat) (b : Buffer) (o : OwnerTag) : s.handTo h b o =
    { s with mem := (s.handTo h b o).mem, raw := (s.handTo h b o).raw, gray := (s.handTo h b o).gray,
             proc := (s.handTo h b o).proc, ppSrc := (s.handTo h b o).ppSrc, ppDst := (s.handTo h b o).ppDst,
             cscOut := (s.handTo h b o).cscOut } := by
  have frame := State.eq_of_controls (SameControls.handTo s h b o)
  rwa [State.handTo_nextHandle, State.handTo_env] at frame

/-- A byte of memory depends on the stores alone. -/
theorem State.byteAt_of_data {s t : State} {k : Nat}
    (h : (t.mem.find k).map Buffer.data = (s.mem.find k).map Buffer.data) (a : Nat) : t.byteAt k a = s.byteAt k a := by
  have byData : ∀ u : State, u.byteAt k a = ((u.mem.find k).map Buffer.data).elim 0#8 (Store.read · a) := by
    intro u; unfold State.byteAt; cases u.mem.find k <;> rfl
  rw [byData, byData, h]

/-! ### PP.SWAP (R125) -/

/-- PP.SWAP on a state in which both slots are held exchanges their buffers. -/
theorem exec_ppSwap {s : State} {a b : Nat} {ba bb : Buffer} (hr : s.running = false) (hf : s.fatal = false)
    (hs : s.ppSrc = some a) (hd : s.ppDst = some b) (ha : s.mem.find a = some ba) (hb : s.mem.find b = some bb) :
    exec .ppSwap s = .next (s.accepted.exchange a b ba bb) := by
  rw [exec_open _ (by decide) s hr hf]
  exact (ppSwap_eq_next _ _).2 ⟨a, b, ba, bb, hs, hd, ha, hb, rfl⟩

theorem ppSwap_emptySlot {s : State} (h : s.ppSrc = none ∨ s.ppDst = none) : ppSwap s = .refused .emptySlot := by
  unfold ppSwap
  rcases h with h | h
  · simp [h]
  · cases hs : s.ppSrc <;> simp [h]

/-- The two slots of an owned state hold different buffers, with the slots' tags (R23). -/
theorem Owned.slots {s : State} (o : Owned s) {a b : Nat} (hs : s.ppSrc = some a) (hd : s.ppDst = some b) :
    ∃ ba bb, s.mem.find a = some ba ∧ ba.owner = .ppSrc ∧ s.mem.find b = some bb ∧ bb.owner = .ppDst ∧ b ≠ a := by
  obtain ⟨ba, ha, oa, -⟩ := o.named .ppSrc a hs
  obtain ⟨bb, hb, ob, -⟩ := o.named .ppDst b hd
  refine ⟨ba, bb, ha, oa, hb, ob, ?_⟩
  rintro rfl
  cases ha.symm.trans hb
  cases oa.symm.trans ob

theorem State.find_exchange (s : State) (a b : Nat) (ba bb : Buffer) (k : Nat) :
    (s.exchange a b ba bb).mem.find k = if k = a then some { ba with owner := .ppDst }
      else if k = b then some { bb with owner := .ppSrc } else s.mem.find k := by
  simp only [State.exchange_mem, Memory.find_put]

theorem State.find_exchange_src (s : State) (a b : Nat) (ba bb : Buffer) :
    (s.exchange a b ba bb).mem.find a = some { ba with owner := .ppDst } := by rw [s.find_exchange, if_pos rfl]

theorem State.find_exchange_dst (s : State) {a b : Nat} (ba bb : Buffer) (hne : b ≠ a) :
    (s.exchange a b ba bb).mem.find b = some { bb with owner := .ppSrc } := by
  rw [s.find_exchange, if_neg hne, if_pos rfl]

/-- An exchange changes the store and the two slots. -/
theorem State.exchange_frame (s : State) (a b : Nat) (ba bb : Buffer) : s.exchange a b ba bb =
    { s with mem := (s.exchange a b ba bb).mem, ppSrc := some b, ppDst := some a } := rfl

/-- Two exchanges of the same slots restore the state (R125): every record, hence the canonical store, is as before. -/
theorem State.exchange_exchange {s : State} (o : Owned s) {a b : Nat} {ba bb : Buffer} (hs : s.ppSrc = some a)
    (hd : s.ppDst = some b) (ha : s.mem.find a = some ba) (hb : s.mem.find b = some bb) :
    (s.exchange a b ba bb).exchange b a { bb with owner := .ppSrc } { ba with owner := .ppDst } = s := by
  obtain ⟨ba', bb', ha', oa, hb', ob, hne⟩ := o.slots hs hd
  cases ha.symm.trans ha'
  cases hb.symm.trans hb'
  have ot := o.exchange hs hd ha hb
  have ou := ot.exchange rfl rfl (s.find_exchange_dst ba bb hne) (s.find_exchange_src a b ba bb)
  have hm : ((s.exchange a b ba bb).exchange b a { bb with owner := .ppSrc } { ba with owner := .ppDst }).mem = s.mem := by
    refine Memory.ext_find _ _ ou.wf o.wf fun k => ?_
    simp only [State.find_exchange]
    by_cases hkb : k = b
    · subst hkb; rw [if_pos rfl, hb, ← ob]
    · rw [if_neg hkb]
      by_cases hka : k = a
      · subst hka; rw [if_pos rfl, ha, ← oa]
      · rw [if_neg hka, if_neg hka, if_neg hkb]
  rw [State.exchange_frame (s.exchange a b ba bb), hm, ← hs, ← hd]
  rfl

end Sys2Proof.Machine

open Sys2Proof Sys2Proof.Machine

/-- Settles O11: the create installs a fresh buffer at NEXT_HANDLE, whose store lists no byte. -/
theorem fbCreateCompletes : Obligations.FbCreateCompletes := by
  intro s e hr hf hw hh ha
  have hc := (fbCreate_eq_next e s.ports.dw s.ports.dh .host s.accepted _).2 ⟨hw, hh, rfl, ha, rfl⟩
  have hfind : ∀ k, (s.mem.put s.nextHandle (Buffer.fresh e s.ports.dw s.ports.dh .host)).find k =
      if k = s.nextHandle then some (Buffer.fresh e s.ports.dw s.ports.dh .host) else s.mem.find k :=
    fun k => Memory.find_put _ _ _ _
  have hnew := (hfind s.nextHandle).trans (if_pos rfl)
  refine ⟨_, Buffer.fresh e s.ports.dw s.ports.dh .host, by rw [exec_fbCreate e hr hf, hc, bindNext_next], hnew, rfl, rfl,
    rfl, rfl, Buffer.fresh_getPort e _ _ _, State.byteAt_live (b := .fresh e _ _ .host) hnew,
    fun k hk => (hfind k).trans (if_neg hk), ?_⟩
  rw [← ha]
  rfl

/-- Settles O12: the create refuses a zero dimension before the draw, and a draw answered no is the fatal abort. -/
theorem fbCreateStops : Obligations.FbCreateStops := by
  refine fun s e hr hf => ⟨fun hz => ?_, fun hw hh ha => ?_⟩
  · rw [exec_fbCreate e hr hf, fbCreate_zeroDimension hz, bindNext_refused]
  · obtain ⟨fatal, done⟩ := statusFatal_bits s.status
    have hraise : exec (.fbCreate e) s =
        raiseAllocation (s.accepted.afterAlloc e s.ports.dw.toNat s.ports.dh.toNat) := by
      rw [exec_fbCreate e hr hf, fbCreate_unallocated (s := s.accepted) hw hh rfl ha]
      rfl
    exact ⟨_, hraise, fatal, done, rfl, rfl, rfl⟩

/-- Settles O15: the handle's record is removed from the store, and no step but a launch gives an old handle out again. -/
theorem fbDestroyCompletes : Obligations.FbDestroyCompletes := by
  refine ⟨fun s b hr hf hm hb ho => ?_, fun s t h hl e hlt hd => Dead.of_step ⟨hlt, hd⟩ hl e⟩
  have hdestroy : exec .fbDestroy s = .next (s.accepted.removeBuffer s.ports.h0) := by
    rw [exec_operand_live .fbDestroy (by decide) rfl hr hf hb ho]
    exact (fbDestroy_eq_next _ _ _).2 ⟨⟨b, hb⟩, rfl⟩
  have hfind : ∀ k, (s.accepted.removeBuffer s.ports.h0).mem.find k =
      if k = s.ports.h0 then none else s.mem.find k := fun k => Memory.find_remove _ _ _ hm
  have hdead : (s.accepted.removeBuffer s.ports.h0).mem.find s.ports.h0 = none := (hfind _).trans (if_pos rfl)
  exact ⟨_, hdestroy, rfl, hdead, fun k hk => (hfind k).trans (if_neg hk),
    exec_operand_dead .fbDestroy (by decide) rfl hr hf hdead, exec_operand_dead .fbGet (by decide) rfl hr hf hdead,
    exec_operand_dead .fbSet (by decide) rfl hr hf hdead⟩

/-- Settles O16: the move hands the record over with another owner tag, so every store is as before. -/
theorem fbMoveCompletes : Obligations.FbMoveCompletes := by
  intro s o b hr hf hb hfree hown hh hraw hgray
  have hmove : exec (.fbMove o) s = .next (s.accepted.handTo s.ports.h0 b o) := by
    rw [exec_fbMove hr hf hb hown]
    exact (fbMove_eq_next _ _ _ _).2 ⟨b, hb, hfree, (acceptsType_iff o b.elem).2 ⟨hraw, hgray⟩, by simpa using hh, rfl⟩
  have hfind : ∀ k, (s.accepted.handTo s.ports.h0 b o).mem.find k =
      if k = s.ports.h0 then some { b with owner := o } else s.mem.find k := by
    intro k; rw [State.handTo_mem, Memory.find_put, State.accepted_mem]
  refine ⟨_, hmove, (hfind _).trans (if_pos rfl), fun k hk => (hfind k).trans (if_neg hk), fun k => ?_, fun p => ?_,
    State.handTo_frame _ _ _ _⟩
  · refine State.byteAt_of_data ?_
    rw [hfind]
    split
    · rename_i hk; rw [hk, hb]; rfl
    · rfl
  · rw [State.holder_handTo, State.holder_accepted]
    -- The statement's conditions differ from the law's at FREE only, which has no holder.
    have hnone : s.holder .free = none := s.holder_free
    grind

/-- Settles O17: the refusals of the port's rule and of the move itself, in R124's order. -/
theorem fbMoveRefused : Obligations.FbMoveRefused := by
  refine fun s o hr hf => ⟨fun hd => ?_, fun b hb => ⟨fun hh ho => exec_fbMove_foreign hr hf hb hh ho,
    fun hh ho he => ?_, fun hh ho he => ?_, fun hh hfree ht hocc => ?_⟩⟩
  · rw [exec_open _ (by simp) s hr hf]
    exact withBuffer_dead s.accepted s.ports.h0 _ hd
  · rw [exec_fbMove hr hf hb (.inl hh)]
    exact fbMove_wrongElementType hb (by simp [acceptsType_iff, ho, he])
  · rw [exec_fbMove hr hf hb (.inl hh)]
    exact fbMove_wrongElementType hb fun ht => by cases (((acceptsType_iff _ _).1 ht).2 ho).symm.trans he
  · rw [exec_fbMove hr hf hb (.inl hh)]
    exact fbMove_holderOccupied hb hfree ht (by simpa using hocc)

/-- Settles O18: the exchange rewrites two owner tags and no store, and undoes itself. -/
theorem ppSwapExchanges : Obligations.PpSwapExchanges := by
  refine ⟨fun s a b o hr hf hs hd => ?_, fun s hr hf h => ?_⟩
  · obtain ⟨ba, bb, ha, -, hb, -, hne⟩ := o.slots hs hd
    have oa : Owned s.accepted := o.congr rfl rfl s.holder_accepted
    have hfind := s.accepted.find_exchange a b ba bb
    have hfa := s.accepted.find_exchange_src a b ba bb
    have hfb := s.accepted.find_exchange_dst ba bb hne
    refine ⟨_, ba, bb, exec_ppSwap hr hf hs hd ha hb, ha, hb, rfl, hfa, hfb,
      fun k hka hkb => by rw [hfind, if_neg hka, if_neg hkb, State.accepted_mem], fun k => State.byteAt_of_data ?_, ?_⟩
    · rw [hfind]
      split
      · rename_i hk; rw [hk, ha]; rfl
      · split
        · rename_i hk; rw [hk, hb]; rfl
        · rfl
    · rw [exec_ppSwap (s := s.accepted.exchange a b ba bb) hr hf rfl rfl hfb hfa]
      exact congrArg _ (State.exchange_exchange oa hs hd ha hb)
  · rw [exec_open _ (by decide) s hr hf]
    exact ppSwap_emptySlot (s := s.accepted) h

/-- Settles O19: a command looks at H0, then at H1, and CSC.CONVERT at the two element types. -/
theorem operandHandlesChecked : Obligations.OperandHandlesChecked := by
  refine fun s hr hf => ⟨fun i hi => ?_, fun i hi b0 h0 ho => ?_, fun b0 b1 h0 o0 h1 o1 => ?_⟩
  · obtain ⟨hrun, body⟩ := portBody_checks_h0 hi
    obtain ⟨k, hk⟩ := body s.accepted
    refine ⟨exec_operand_dead i hrun hk hr hf, fun b hb hne => ?_⟩
    rw [exec_open i hrun s hr hf, hk]
    exact withHostBuffer_foreign s.accepted s.ports.h0 k hb hne
  · obtain ⟨hrun, body⟩ := portBody_checks_h1 (datapath_commands hi)
    obtain ⟨k, hk⟩ := body s.accepted
    rw [exec_operand_live i hrun hk hr hf h0 ho]
    exact ⟨withHostBuffer_dead s.accepted s.ports.h1 k, fun b => withHostBuffer_foreign s.accepted s.ports.h1 k⟩
  · have hcsc : exec .cscConvert s = cscConvert s.ports.h0 s.ports.h1 s.accepted := by
      rw [exec_operand_live .cscConvert (by decide) rfl hr hf h0 o0]
      exact withHostBuffer_live s.accepted s.ports.h1 _ b1 h1 o1
    rw [hcsc]
    exact ⟨fun he => cscConvert_source_type h0 h1 (by simp [he]),
      fun he hd => cscConvert_dest_type h0 h1 he (by simp [hd])⟩
end

section
/-!
SUPPORT. The fixed luma as a natural number (R142), and what CSC.CONVERT leaves on buffers of equal dimensions (R140).
-/
namespace Sys2Proof.Machine

/-- The coefficients sum to 256, so the luma of a pixel fits its byte (R142). -/
theorem lumaFixed_toNat (p : Pixel) :
    (lumaFixed p).toNat = (77 * p.r.toNat + 150 * p.g.toNat + 29 * p.b.toNat) / 256 := by
  have hr := p.r.isLt
  have hg := p.g.isLt
  have hb := p.b.isLt
  rw [lumaFixed_eq, BitVec.toNat_ofNat, Nat.mod_eq_of_lt (by omega)]

/-- The luma of channel values given as numbers. -/
theorem lumaFixed_ofNat {r g b : Nat} (hr : r < 256) (hg : g < 256) (hb : b < 256) :
    (lumaFixed { r := BitVec.ofNat 8 r, g := BitVec.ofNat 8 g, b := BitVec.ofNat 8 b }).toNat
      = (77 * r + 150 * g + 29 * b) / 256 := by
  simp only [lumaFixed_toNat, BitVec.toNat_ofNat]
  rw [Nat.mod_eq_of_lt hr, Nat.mod_eq_of_lt hg, Nat.mod_eq_of_lt hb]

theorem lumaPixel_fixed (params : Params) : lumaPixel params false = lumaFixed :=
  funext fun _ => if_neg Bool.false_ne_true

theorem lumaPixel_float (params : Params) : lumaPixel params true = lumaFloat params.float :=
  funext fun _ => if_pos rfl

/-- On equal dimensions CSC.CONVERT completes with the active mode's luma in every element. -/
theorem csc_completes {s : State} {rgb gray : Buffer} (h : CscOperands s rgb gray) (hw : rgb.width = gray.width)
    (hh : rgb.height = gray.height) :
    ∃ t, exec .cscConvert s = .next t ∧ LumaWritten s t gray (lumaPixel s.params s.modeFloat) := by
  have hd : dimsDiffer rgb gray = false := (dimsDiffer_false rgb gray).2 ⟨hw, hh⟩
  exact ⟨_, by rw [csc_exec s rgb gray h, hd]; rfl, lumaWritten_convertBuffer s rgb gray h hd⟩

end Sys2Proof.Machine

open Sys2Proof Sys2Proof.Machine

/-- Settles O20: the one record update leaves the luma in every element and the rest as it was. -/
theorem cscConvertCompletes : Obligations.CscConvertCompletes := fun _ _ _ => csc_completes

/-- Settles O21: in FIXED mode the luma written is luma_fixed, whose arithmetic is R142's. -/
theorem cscConvertFixedLuma : Obligations.CscConvertFixedLuma := by
  intro s rgb gray h hw hh hm
  simp only [← lumaFixed_eq]
  rw [← lumaPixel_fixed s.params, ← hm]
  exact csc_completes h hw hh

/-- Settles O22: in FLOAT mode the luma written is luma_float, which stays within R144 by `lumaFloat_allowed`. -/
theorem cscConvertFloatLuma : Obligations.CscConvertFloatLuma := by
  intro s rgb gray h hw hh hm hf
  obtain ⟨t, he, written⟩ := csc_completes h hw hh
  refine ⟨t, he, fun x y hx hy => ?_⟩
  rw [written.elements x y hx hy, hm, lumaPixel_float]
  exact lumaFloat_allowed _ hf _

/-- Settles O23: the mismatch is raised before anything is written. -/
theorem cscDimensionMismatch : Obligations.CscDimensionMismatch := by
  intro s rgb gray h hne
  have hd : dimsDiffer rgb gray = true := by simpa [dimsDiffer] using hne
  rw [csc_exec s rgb gray h, hd]
  rfl

/-- Settles O24: each property is one of the quotient by 256 that `lumaFixed_ofNat` gives. -/
theorem lumaFixedProperties : Obligations.LumaFixedProperties := by
  unfold Obligations.LumaFixedProperties
  intro luma
  have eq : ∀ {r g b : Nat}, r < 256 → g < 256 → b < 256 → luma r g b = (77 * r + 150 * g + 29 * b) / 256 :=
    lumaFixed_ofNat
  have zero : 0 < 256 := by decide
  have top : 255 < 256 := by decide
  refine ⟨fun v hv => ?_, fun r g b r' g' b' hr hg hb hr' hg' hb' => ?_, eq top zero zero, eq zero top zero,
    eq zero zero top, fun v hv => ⟨?_, ?_, ?_⟩, fun r g b hr hg hb => ?_⟩
  · rw [eq hv hv hv]; omega
  · rw [eq hr hg hb, eq (by omega) (by omega) (by omega)]
    exact Nat.div_le_div_right (by omega)
  · rw [eq hv zero zero]; omega
  · rw [eq zero hv zero]; omega
  · rw [eq zero zero hv]; omega
  · rw [eq hr hg hb]; omega
end

section
/-!
SUPPORT. CONV.* and SOBEL.MAG on the command port: what a command with a pixel function leaves and which operands it
refuses; the fixed datapath on the nine bytes around a position (R170, R171), with the default entries (R162 to R166) and
on a uniform input (R181); the accumulator (R180) and the end of conv_float on exact values (R172).
-/
namespace Sys2Proof.Machine

/-! ### The commands -/

/-- The CONV.k command (R93, R95). -/
def convCommand : KernelId → Instr
  | .blur => .convBlur
  | .sharpen => .convSharpen
  | .gaussian => .convGaussian
  | .sobelX => .convSobelX
  | .sobelY => .convSobelY

theorem pixelFunction_convCommand (k : KernelId) :
    pixelFunction (convCommand k) = some fun p m => convPixel p m k := by cases k <;> rfl

/-- A list of the five commands with something per kernel lists what each kernel has. -/
theorem eq_convCommand_of_mem {α : Type} (f : KernelId → α) {e : Instr × α}
    (he : e ∈ [(Instr.convBlur, f .blur), (.convSharpen, f .sharpen), (.convGaussian, f .gaussian),
      (.convSobelX, f .sobelX), (.convSobelY, f .sobelY)]) : ∃ k, e = (convCommand k, f k) := by
  simp only [List.mem_cons, List.not_mem_nil, or_false] at he
  rcases he with rfl | rfl | rfl | rfl | rfl
  exacts [⟨.blur, rfl⟩, ⟨.sharpen, rfl⟩, ⟨.gaussian, rfl⟩, ⟨.sobelX, rfl⟩, ⟨.sobelY, rfl⟩]

/-- CONV.* and SOBEL.MAG are commands with a pixel function. -/
theorem convolution_commands {i : Instr}
    (hi : i ∈ [Instr.convBlur, .convSharpen, .convGaussian, .convSobelX, .convSobelY, .sobelMag]) :
    ∃ pix, pixelFunction i = some pix := by
  refine (datapath_commands (List.mem_cons_of_mem _ hi)).resolve_left ?_
  rintro rfl
  exact absurd hi (by decide)

theorem ne_run_of_pixelFunction {i : Instr} {pix : Params → Bool → Buffer → Nat → Nat → Byte}
    (hp : pixelFunction i = some pix) : i ≠ .run := by
  rintro rfl
  cases hp

/-- On good operands a command with a pixel function leaves the filtered buffer at H1 (R169, R190). -/
theorem exec_convolution {s : State} {src dst : Buffer} (h : ConvOperands s src dst) {i : Instr}
    {pix : Params → Bool → Buffer → Nat → Nat → Byte} (hp : pixelFunction i = some pix) :
    exec i s = .next (s.accepted.putBuffer s.ports.h1 (filterBuffer (pix s.params s.modeFloat) src dst)) :=
  conv_exec s src dst h i _ (ne_run_of_pixelFunction hp) (portBody_of_pixelFunction hp s.accepted)

/-- On good operands a command with a pixel function completes and writes it on the interior (R169, R193). -/
theorem convolution_completes {s : State} {src dst : Buffer} (h : ConvOperands s src dst) {i : Instr}
    {pix : Params → Bool → Buffer → Nat → Nat → Byte} (hp : pixelFunction i = some pix) :
    ∃ t, exec i s = .next t ∧ InteriorWritten s t dst (pix s.params s.modeFloat src) :=
  ⟨_, exec_convolution h hp, interiorWritten_filterBuffer s src dst _ h⟩

/-- Putting a record back where it stands changes nothing: the store is in canonical form. -/
theorem Memory.put_find {m : Memory} {h : Nat} {b : Buffer} (hm : m.wf = true) (hf : m.find h = some b) :
    m.put h b = m := by
  refine Memory.ext_find _ _ (Memory.wf_put m h b hm (Memory.wf_find m h b hm hf)) hm fun k => ?_
  rw [Memory.find_put]
  split
  · rename_i hk; rw [hk, hf]
  · rfl

/-! ### The operands refused (R168) -/

/-- What the operand rule says of two live buffers, in R168's order. -/
theorem convApply_refused {pix : Buffer → Nat → Nat → Byte} {hin hout : Nat} {s : State} {src dst : Buffer}
    (hs : s.mem.find hin = some src) (hd : s.mem.find hout = some dst) :
    (src.elem ≠ .gray → convApply pix hin hout s = .refused (.wrongElementType hin)) ∧
    (src.elem = .gray → dst.elem ≠ .gray → convApply pix hin hout s = .refused (.wrongElementType hout)) ∧
    (src.elem = .gray → dst.elem = .gray → hin = hout → convApply pix hin hout s = .refused .sameBuffer) ∧
    (src.elem = .gray → dst.elem = .gray → hin ≠ hout → (src.width ≠ dst.width ∨ src.height ≠ dst.height) →
      convApply pix hin hout s = .refused .unequalDimensions) := by
  rw [convApply, withBuffer_live s hin _ src hs, withBuffer_live s hout _ dst hd]
  refine ⟨fun es => if_pos es, fun es ed => ?_, fun es ed same => ?_, fun es ed ne dims => ?_⟩
  · rw [if_neg (not_not.2 es), if_pos ed]
  · rw [if_neg (not_not.2 es), if_neg (not_not.2 ed), if_pos same]
  · rw [if_neg (not_not.2 es), if_neg (not_not.2 ed), if_neg ne, if_pos dims]

/-! ### The nine bytes around a position (R170) -/

/-- The bytes of buffer `h`, of width `W`, at the nine positions around (x, y). -/
def State.window (s : State) (h W x y : Nat) : Grid3 Byte :=
  let p (dx dy : Nat) : Byte := s.byteAt h ((y + dy - 1) * W + (x + dx - 1))
  ⟨p 0 0, p 1 0, p 2 0, p 0 1, p 1 1, p 2 1, p 0 2, p 1 2, p 2 2⟩

/-- The sum of the nine products, written out (R171). -/
theorem weightedSum_eq (w : Grid3 (BitVec 16)) (p : Grid3 Byte) : weightedSum w p =
    w.p00.toInt * byteInt p.p00 + w.p01.toInt * byteInt p.p01 + w.p02.toInt * byteInt p.p02
      + w.p10.toInt * byteInt p.p10 + w.p11.toInt * byteInt p.p11 + w.p12.toInt * byteInt p.p12
      + w.p20.toInt * byteInt p.p20 + w.p21.toInt * byteInt p.p21 + w.p22.toInt * byteInt p.p22 := by
  simp only [weightedSum, Grid3.toList, List.zip_cons_cons, List.zip_nil_left, List.foldl_cons, List.foldl_nil, zero_add]

theorem State.sum9_eq_weightedSum (s : State) (h W x y : Nat) (w : Grid3 (BitVec 16)) :
    s.sum9 h W x y w = weightedSum w (s.window h W x y) := by
  simp only [weightedSum_eq, State.sum9, State.window, byteInt]

/-- What the datapath sums at an interior position is the sum over the bytes of H0's buffer (R170). -/
theorem ConvOperands.weightedSum_neighbours {s : State} {src dst : Buffer} (h : ConvOperands s src dst)
    (w : Grid3 (BitVec 16)) {x y : Nat} (hx : 1 ≤ x) (hx' : x + 2 ≤ dst.width.toNat) (hy : 1 ≤ y)
    (hy' : y + 2 ≤ dst.height.toNat) :
    weightedSum w (neighbours src x y) = s.sum9 s.ports.h0 src.width.toNat x y w := by
  rw [← h.sameWidth] at hx'
  rw [← h.sameHeight] at hy'
  exact weightedSum_sum9 s src _ h.source x y w hx hx' hy hy'

/-- In FIXED mode CONV.k finishes the sum over the window with its entry (R171). -/
theorem conv_fixed_completes {s : State} {src dst : Buffer} (h : ConvOperands s src dst) (hm : s.modeFloat = false)
    (k : KernelId) : ∃ t, exec (convCommand k) s = .next t ∧ InteriorWritten s t dst fun x y =>
      finishFixed (s.params.ktab.entry k) (s.sum9 s.ports.h0 src.width.toNat x y (s.params.ktab.entry k).w) := by
  obtain ⟨t, he, written⟩ := convolution_completes h (pixelFunction_convCommand k)
  refine ⟨t, he, written.congr fun x y hx hx' hy hy' => ?_⟩
  rw [hm, ← h.weightedSum_neighbours _ hx hx' hy hy']
  rfl

/-- The same with a known entry, and the pixel in the form a statement gives it. -/
theorem conv_entry_completes {s : State} {src dst : Buffer} (h : ConvOperands s src dst) (hm : s.modeFloat = false)
    {k : KernelId} {entry : Kernel} (hk : s.params.ktab.entry k = entry) {pix : Nat → Nat → Byte}
    (hp : ∀ x y, finishFixed entry (weightedSum entry.w (s.window s.ports.h0 src.width.toNat x y)) = pix x y) :
    ∃ t, exec (convCommand k) s = .next t ∧ InteriorWritten s t dst pix := by
  obtain ⟨t, he, written⟩ := conv_fixed_completes h hm k
  refine ⟨t, he, written.congr fun x y _ _ _ _ => ?_⟩
  rw [hk, State.sum9_eq_weightedSum, hp]

/-! ### The clamp (R9) -/

theorem ofInt_clampInt_natCast (n : Nat) : BitVec.ofInt 8 (clampInt n) = BitVec.ofNat 8 (min 255 n) := by
  have clamp : clampInt n = (min 255 n : Nat) := by unfold clampInt; split_ifs <;> omega
  rw [clamp, BitVec.ofInt_natCast]

theorem ofInt_clampInt_byte (v : Byte) : BitVec.ofInt 8 (clampInt v.toNat) = v := by
  have hv : min 255 v.toNat = v.toNat := by omega
  rw [ofInt_clampInt_natCast, hv, BitVec.ofNat_toNat, BitVec.setWidth_eq]

/-! ### The default entries (R162 to R166, R173 to R177) -/

/-- The sum with integer weights that fit 16 bits. -/
theorem weightedSum_ofInts {w : Grid3 Int} (shift : Nat) (bias : Int) (p : Grid3 Byte)
    (hw : ∀ c ∈ w.toList, -2 ^ 15 ≤ c ∧ c < 2 ^ 15) : weightedSum (Kernel.ofInts w shift bias).w p =
    w.p00 * byteInt p.p00 + w.p01 * byteInt p.p01 + w.p02 * byteInt p.p02
      + w.p10 * byteInt p.p10 + w.p11 * byteInt p.p11 + w.p12 * byteInt p.p12
      + w.p20 * byteInt p.p20 + w.p21 * byteInt p.p21 + w.p22 * byteInt p.p22 := by
  have fits : ∀ c ∈ w.toList, (BitVec.ofInt 16 c).toInt = c := fun c hc =>
    BitVec.toInt_ofInt_eq_self (by decide) (hw c hc).1 (hw c hc).2
  simp only [Grid3.toList, List.forall_mem_cons] at fits
  obtain ⟨h00, h01, h02, h10, h11, h12, h20, h21, h22, -⟩ := fits
  simp only [weightedSum_eq, Kernel.ofInts, Grid3.map, h00, h01, h02, h10, h11, h12, h20, h21, h22]

/-- Shift and clamp of an entry with bias 0 (R171). -/
theorem finishFixed_ofInts (w : Grid3 Int) {shift : Nat} (hs : shift < 32) (acc : Int) :
    finishFixed (Kernel.ofInts w shift 0) acc = BitVec.ofInt 8 (clampInt (acc / 2 ^ shift)) := by
  have hshift : (Kernel.ofInts w shift 0).shift.toNat = shift := Nat.mod_eq_of_lt hs
  have hbias : (Kernel.ofInts w shift 0).bias.toInt = 0 := rfl
  rw [finishFixed_eq, hshift, hbias, add_zero]

theorem finishFixed_ofInts_unshifted (w : Grid3 Int) (acc : Int) :
    finishFixed (Kernel.ofInts w 0 0) acc = BitVec.ofInt 8 (clampInt acc) := by
  rw [finishFixed_ofInts w (by decide), pow_zero, Int.ediv_one]

/-- The same of a sum that is not negative: only the upper bound can clamp. -/
theorem finishFixed_ofInts_natCast (w : Grid3 Int) {shift : Nat} (hs : shift < 32) (n : Nat) :
    finishFixed (Kernel.ofInts w shift 0) n = BitVec.ofNat 8 (min 255 (n / 2 ^ shift)) := by
  rw [finishFixed_ofInts w hs, ← ofInt_clampInt_natCast]
  norm_cast

/-- An entry whose weights sum to 2^shift gives back the value of a uniform input (R181). -/
theorem finishFixed_ofInts_unitGain (w : Grid3 Int) {shift : Nat} (hs : shift < 32) (v : Byte) :
    finishFixed (Kernel.ofInts w shift 0) ((v.toNat : Int) * 2 ^ shift) = v := by
  rw [finishFixed_ofInts w hs, Int.mul_ediv_cancel _ (by positivity), ofInt_clampInt_byte]

/-- The nine weights 58 sum to 522, above 2^9: at the top of the range the clamp is met (R181). -/
theorem finishFixed_kernelBlur_uniform (v : Byte) :
    (finishFixed kernelBlur ((v.toNat : Int) * 522)).toNat = min 255 (522 * v.toNat / 512) := by
  have pixel : finishFixed kernelBlur (v.toNat * 522 : Nat) = BitVec.ofNat 8 (min 255 (v.toNat * 522 / 2 ^ 9)) :=
    finishFixed_ofInts_natCast _ (by decide) _
  rw [Nat.cast_mul, Nat.cast_ofNat] at pixel
  rw [pixel, BitVec.toNat_ofNat, Nat.mul_comm 522]
  omega

theorem weightedSum_kernelBlur (p : Grid3 Byte) : weightedSum kernelBlur.w p =
    (58 * (p.p00.toNat + p.p01.toNat + p.p02.toNat + p.p10.toNat + p.p11.toNat + p.p12.toNat
      + p.p20.toNat + p.p21.toNat + p.p22.toNat) : Nat) := by
  refine (weightedSum_ofInts 9 0 p (by decide)).trans ?_
  simp only [byteInt]
  push_cast
  ring

theorem weightedSum_kernelSharpen (p : Grid3 Byte) : weightedSum kernelSharpen.w p =
    5 * byteInt p.p11 - byteInt p.p01 - byteInt p.p21 - byteInt p.p10 - byteInt p.p12 :=
  (weightedSum_ofInts 0 0 p (by decide)).trans (by ring)

theorem weightedSum_kernelGaussian (p : Grid3 Byte) : weightedSum kernelGaussian.w p =
    (p.p00.toNat + 2 * p.p01.toNat + p.p02.toNat + 2 * p.p10.toNat + 4 * p.p11.toNat + 2 * p.p12.toNat
      + p.p20.toNat + 2 * p.p21.toNat + p.p22.toNat : Nat) := by
  refine (weightedSum_ofInts 4 0 p (by decide)).trans ?_
  simp only [byteInt]
  push_cast
  ring

theorem weightedSum_kernelSobelX (p : Grid3 Byte) : weightedSum kernelSobelX.w p =
    (byteInt p.p02 + 2 * byteInt p.p12 + byteInt p.p22) - (byteInt p.p00 + 2 * byteInt p.p10 + byteInt p.p20) :=
  (weightedSum_ofInts 0 0 p (by decide)).trans (by ring)

theorem weightedSum_kernelSobelY (p : Grid3 Byte) : weightedSum kernelSobelY.w p =
    (byteInt p.p20 + 2 * byteInt p.p21 + byteInt p.p22) - (byteInt p.p00 + 2 * byteInt p.p01 + byteInt p.p02) :=
  (weightedSum_ofInts 0 0 p (by decide)).trans (by ring)

/-! ### A uniform input (R181) -/

theorem weightedSum_replicate (w : Grid3 (BitVec 16)) (v : Byte) :
    weightedSum w ⟨v, v, v, v, v, v, v, v, v⟩ = (v.toNat : Int) * (w.toList.map BitVec.toInt).sum := by
  rw [weightedSum_eq]
  simp only [Grid3.toList, List.map_cons, List.map_nil, List.sum_cons, List.sum_nil, byteInt]
  ring

/-- The offset of an element lies inside the buffer (R61, R63). -/
theorem offset_lt {w h x y : Nat} (hx : x < w) (hy : y < h) : y * w + x < w * h :=
  calc y * w + x < y * w + w := Nat.add_lt_add_left hx _
    _ = w * (y + 1) := by ring
    _ ≤ w * h := Nat.mul_le_mul_left w hy

/-- Where every byte of the input is `v`, so are the nine around an interior position. -/
theorem State.window_uniform {s : State} {h W H : Nat} {v : Byte} (hv : ∀ a, a < W * H → s.byteAt h a = v) {x y : Nat}
    (hx : 1 ≤ x) (hx' : x + 2 ≤ W) (hy : 1 ≤ y) (hy' : y + 2 ≤ H) :
    s.window h W x y = ⟨v, v, v, v, v, v, v, v, v⟩ := by
  have byte : ∀ dx ≤ 2, ∀ dy ≤ 2, s.byteAt h ((y + dy - 1) * W + (x + dx - 1)) = v :=
    fun dx _ dy _ => hv _ (offset_lt (by omega) (by omega))
  simp only [State.window, byte, Nat.zero_le, Nat.one_le_ofNat, le_refl]

/-- The sum at an interior position of a uniform input is the value times the sum of the weights. -/
theorem weightedSum_uniform {s : State} {src dst : Buffer} (h : ConvOperands s src dst) {v : Byte}
    (hv : ∀ a, a < src.width.toNat * src.height.toNat → s.byteAt s.ports.h0 a = v) (w : Grid3 (BitVec 16)) {x y : Nat}
    (hx : 1 ≤ x) (hx' : x + 2 ≤ dst.width.toNat) (hy : 1 ≤ y) (hy' : y + 2 ≤ dst.height.toNat) :
    weightedSum w (neighbours src x y) = (v.toNat : Int) * (w.toList.map BitVec.toInt).sum := by
  rw [h.weightedSum_neighbours w hx hx' hy hy', State.sum9_eq_weightedSum]
  rw [← h.sameWidth] at hx'
  rw [← h.sameHeight] at hy'
  rw [State.window_uniform hv hx hx' hy hy', weightedSum_replicate]

/-! ### The accumulator (R180) -/

/-- Nine products of s16 by u8 fit 32 bits, so adding them modulo 2^32 is adding them. -/
theorem accumulate32_toInt (w : Grid3 (BitVec 16)) (p : Grid3 Byte) : (accumulate32 w p).toInt = weightedSum w p := by
  have hacc : accumulate32 w p = BitVec.ofInt 32 (weightedSum w p) := acc_step 0 _
  have hb := bound_sum w p
  rw [hacc]
  exact BitVec.toInt_ofInt_eq_self (by decide) (by norm_num; omega) (by norm_num; omega)

/-! ### The end of conv_float (R172) -/

/-- Clamp and truncation of a value the format keeps. -/
theorem f2u8_fclamp_roundTo (free : Byte) {f : FloatFormat} (hf : f.wf = true) {m e : Int} (hm : m.natAbs < 2 ^ 24)
    (h1 : -149 ≤ e) (h2 : e ≤ 0) :
    f2u8 free (fclamp (roundTo f m e)) = BitVec.ofInt 8 (clampInt (m / 2 ^ (-e).toNat)) := by
  rw [roundTo_small f hf m e hm h1 h2]
  split
  · rename_i h0
    rw [f2u8_fclamp free 0 0 le_rfl, h0]
    simp
  · exact f2u8_fclamp free m e h2

/-- Scaling a numerator to a smaller exponent changes no quotient. -/
theorem rescaled_ediv (m : Int) {e e' : Int} (h : e' ≤ e) (he : e ≤ 0) :
    m * 2 ^ (e - e').toNat / 2 ^ (-e').toNat = m / 2 ^ (-e).toNat := by
  have split : (-e').toNat = (-e).toNat + (e - e').toNat := by omega
  rw [split, pow_add]
  exact Int.mul_ediv_mul_of_pos_left _ _ (by positivity)

theorem natAbs_le_rescaled (m : Int) (n : Nat) : m.natAbs ≤ (m * 2 ^ n).natAbs := by
  rw [Int.natAbs_mul]
  exact Nat.le_mul_of_pos_right _ (Int.natAbs_pos.2 (by positivity))

/-- Scale, bias, clamp and truncation where neither the product nor the sum rounds: the floor of the exact value. A
product of 0 loses its exponent, which the sum does not miss. -/
theorem f2u8_scale_bias (free : Byte) {f : FloatFormat} (hf : f.wf = true) {m e mb eb : Int} (hm : m.natAbs < 2 ^ 24)
    (he : -149 ≤ e) (he' : e ≤ 0) (hb : -149 ≤ eb) (hb' : eb ≤ 0)
    (ht : (m * 2 ^ (e - min e eb).toNat + mb * 2 ^ (eb - min e eb).toNat).natAbs < 2 ^ 24) :
    f2u8 free (fclamp (fadd f (roundTo f m e) (.finite mb eb))) = BitVec.ofInt 8 (clampInt
      ((m * 2 ^ (e - min e eb).toNat + mb * 2 ^ (eb - min e eb).toNat) / 2 ^ (-min e eb).toNat)) := by
  rw [roundTo_small f hf m e hm he he']
  split
  · rename_i h0
    rw [h0, zero_mul, zero_add] at ht ⊢
    rw [rescaled_ediv mb (min_le_right e eb) hb']
    have hsum : fadd f (.finite 0 0) (.finite mb eb) = roundTo f mb eb := by simp [fadd, min_eq_right hb']
    rw [hsum, f2u8_fclamp_roundTo free hf ((natAbs_le_rescaled mb _).trans_lt ht) hb hb']
  · exact f2u8_fclamp_roundTo free hf ht (le_min he hb) ((min_le_left _ _).trans he')

end Sys2Proof.Machine

open Sys2Proof Sys2Proof.Machine

/-- Settles O25: each of the six is a command with a pixel function, which writes it on the interior. -/
theorem convolutionsComplete : Obligations.ConvolutionsComplete := by
  refine fun s src dst h => ⟨fun e he => ?_, convolution_completes h rfl⟩
  obtain ⟨k, rfl⟩ := eq_convCommand_of_mem id he
  exact convolution_completes h (pixelFunction_convCommand k)

/-- Settles O26: the sum over the window, finished with the entry, for each kernel. -/
theorem convFixedDatapath : Obligations.ConvFixedDatapath := by
  intro s src dst h hm e he
  obtain ⟨k, rfl⟩ := eq_convCommand_of_mem s.params.ktab.entry he
  simp only [← finishFixed_eq]
  exact conv_fixed_completes h hm k

/-- Settles O27: the weights are equal, so their sum is 58 times that of the bytes. -/
theorem convBlurFixed : Obligations.ConvBlurFixed := by
  refine fun s src dst h hm hk => conv_entry_completes h hm (k := .blur) hk fun x y => ?_
  rw [weightedSum_kernelBlur]
  exact finishFixed_ofInts_natCast _ (by decide) _

/-- Settles O28: shift and bias are 0, so the sum itself is clamped. -/
theorem convSharpenFixed : Obligations.ConvSharpenFixed := by
  refine fun s src dst h hm hk => conv_entry_completes h hm (k := .sharpen) hk fun x y => ?_
  rw [weightedSum_kernelSharpen]
  exact finishFixed_ofInts_unshifted _ _

/-- Settles O29: the weights sum to 16, so the quotient fits a byte and nothing is clamped. -/
theorem convGaussianFixed : Obligations.ConvGaussianFixed := by
  refine fun s src dst h hm hk => conv_entry_completes h hm (k := .gaussian) hk fun x y => ?_
  rw [weightedSum_kernelGaussian]
  refine (finishFixed_ofInts_natCast _ (by decide) _).trans ?_
  congr 1
  exact min_eq_right (by omega)

/-- Settles O30: shift and bias are 0, so the gradient itself is clamped. -/
theorem convSobelXYFixed : Obligations.ConvSobelXYFixed := by
  intro s src dst h hm hx hy p
  constructor
  · refine conv_entry_completes h hm (k := .sobelX) hx fun x y => ?_
    rw [weightedSum_kernelSobelX]
    exact finishFixed_ofInts_unshifted _ _
  · refine conv_entry_completes h hm (k := .sobelY) hy fun x y => ?_
    rw [weightedSum_kernelSobelY]
    exact finishFixed_ofInts_unshifted _ _

/-- Settles O33: the nine products and their sums stay below 2^24, and so, by the premises, do the two steps after. -/
theorem floatSumExact : Obligations.FloatSumExact := by
  refine ⟨fun f w n hf hw => weightedSumFloat_int f hf w n hw, ?_⟩
  intro f w ms es mb eb b x y hf hw he he' hb hb' sum e total hsum htotal
  have hmul : fmul f (.finite sum 0) (.finite ms es) = roundTo f (sum * ms) es := by simp [fmul]
  rw [convFloat, weightedSumFloat_int f hf w _ hw, hmul]
  exact f2u8_scale_bias _ hf hsum he he' hb hb' htotal

/-- Settles O34: the bound on the sum leaves room for the bias, and the default entries' sums are those of bytes. -/
theorem accumulatorNeverOverflows : Obligations.AccumulatorNeverOverflows := by
  intro w p
  have hb := bound_sum w p
  refine ⟨accumulate32_toInt w p, hb, fun k _ => ?_, ?_, ?_, ?_, ?_, ?_⟩
  · have hshift := Int.natAbs_ediv_le_natAbs (weightedSum w p) (2 ^ k.shift.toNat)
    have hlo := k.bias.le_toInt
    have hhi := k.bias.toInt_lt
    norm_num at hlo hhi
    exact ⟨hshift, by norm_num; omega⟩
  · rw [weightedSum_kernelBlur]; omega
  · rw [weightedSum_kernelSharpen]; simp only [byteInt]; omega
  · rw [weightedSum_kernelGaussian]; omega
  · rw [weightedSum_kernelSobelX]; simp only [byteInt]; omega
  · rw [weightedSum_kernelSobelY]; simp only [byteInt]; omega

/-- Settles O35: on a uniform input the sum is the value times the sum of the weights, which for the default entries is
522, 1, 16, 0 and 0. -/
theorem uniformInput : Obligations.UniformInput := by
  unfold Obligations.UniformInput
  simp only [← finishFixed_eq]
  refine ⟨fun s src dst v h hm hv => ⟨fun e he => ?_, fun hx hy => ?_⟩, fun v => ⟨?_, ?_, ?_, ?_, ?_⟩⟩
  · obtain ⟨k, rfl⟩ := eq_convCommand_of_mem s.params.ktab.entry he
    obtain ⟨t, he, written⟩ := convolution_completes h (pixelFunction_convCommand k)
    refine ⟨t, he, written.congr fun x y x1 x2 y1 y2 => ?_⟩
    rw [hm, ← weightedSum_uniform h hv _ x1 x2 y1 y2]
    rfl
  · obtain ⟨t, he, written⟩ := convolution_completes h (i := .sobelMag) rfl
    refine ⟨t, he, written.congr fun x y x1 x2 y1 y2 => ?_⟩
    have zero : ∀ w : Grid3 (BitVec 16), (w.toList.map BitVec.toInt).sum = 0 → weightedSum w (neighbours src x y) = 0 :=
      fun w hw => by rw [weightedSum_uniform h hv w x1 x2 y1 y2, hw, mul_zero]
    simp [hm, sobelPixel, sobelFixed, zero _ hx, zero _ hy]
  · rw [show (kernelBlur.w.toList.map BitVec.toInt).sum = 522 by decide]
    exact finishFixed_kernelBlur_uniform v
  · rw [show (kernelSharpen.w.toList.map BitVec.toInt).sum = 2 ^ 0 by decide]
    exact finishFixed_ofInts_unitGain _ (by decide) v
  · rw [show (kernelGaussian.w.toList.map BitVec.toInt).sum = 2 ^ 4 by decide]
    exact finishFixed_ofInts_unitGain _ (by decide) v
  · rw [show (kernelSobelX.w.toList.map BitVec.toInt).sum = 0 by decide, mul_zero]
    rfl
  · rw [show (kernelSobelY.w.toList.map BitVec.toInt).sum = 0 by decide, mul_zero]
    rfl

/-- Settles O36: without an interior the destination's record is put back as it was. -/
theorem smallFramesUnchanged : Obligations.SmallFramesUnchanged := by
  intro s src dst h hsmall i hi
  obtain ⟨pix, hp⟩ := convolution_commands hi
  rw [exec_convolution h hp, filterBuffer_small _ _ _ hsmall, State.putBuffer, State.accepted_mem,
    Memory.put_find h.memory h.dest]
  rfl

/-- Settles O37: the port's check of the two handles, then the operand rule. -/
theorem convolutionsRefused : Obligations.ConvolutionsRefused := by
  intro s hr hf i hi
  obtain ⟨pix, hp⟩ := convolution_commands hi
  have hrun := ne_run_of_pixelFunction hp
  have body := portBody_of_pixelFunction hp s.accepted
  refine ⟨exec_operand_dead i hrun body hr hf, fun src hs os => ?_⟩
  rw [exec_operand_live i hrun body hr hf hs os, State.accepted_ports]
  refine ⟨withHostBuffer_dead s.accepted s.ports.h1 _, fun dst hd od => ?_⟩
  rw [withHostBuffer_live s.accepted s.ports.h1 _ dst hd od]
  obtain ⟨source, dest, same, dims⟩ := convApply_refused (pix := pix s.params s.modeFloat) (s := s.accepted) hs hd
  exact ⟨fun e => source (by simp [e]), fun es ed => dest es (by simp [ed]), same, dims⟩
end

section
/-!
SUPPORT. SOBEL.MAG in the two modes (R190 to R192): the float sum of fixed weights read as integers, the bounds of the
default gradients, and the end of sobel_float on integer gradients.
-/
namespace Sys2Proof.Machine

/-- Fixed weights read as float integers: the float sum is the exact sum of the FIXED datapath (R172, R192). -/
theorem weightedSumFloat_fixedWeights {f : FloatFormat} (hf : f.wf = true) (w : Grid3 (BitVec 16)) (p : Grid3 Byte)
    (hw : (w.toList.map fun c => c.toInt.natAbs).sum ≤ 65793) :
    weightedSumFloat f (w.map fun c => .finite c.toInt 0) p = .finite (weightedSum w p) 0 := by
  refine (weightedSumFloat_int f hf (w.map BitVec.toInt) p hw).trans ?_
  rw [weightedSum_eq]
  simp only [Grid3.map, Grid3.toList, List.zip_cons_cons, List.zip_nil_left, List.map_cons, List.map_nil, List.sum_cons,
    List.sum_nil, add_zero, add_assoc, byteInt]

theorem natAbs_weightedSum_kernelSobelX_le (p : Grid3 Byte) : (weightedSum kernelSobelX.w p).natAbs ≤ 1020 := by
  rw [weightedSum_kernelSobelX]
  simp only [byteInt]
  omega

theorem natAbs_weightedSum_kernelSobelY_le (p : Grid3 Byte) : (weightedSum kernelSobelY.w p).natAbs ≤ 1020 := by
  rw [weightedSum_kernelSobelY]
  simp only [byteInt]
  omega

/-- Magnitude, clamp and truncation of two integer gradients whose sum the format keeps: what sobel_fixed makes of them
(R191, R192). -/
theorem f2u8_fclamp_magnitude (free : Byte) {f : FloatFormat} (hf : f.wf = true) (gx gy : Int)
    (h : gx.natAbs + gy.natAbs < 2 ^ 24) :
    f2u8 free (fclamp (fadd f (fabs (.finite gx 0)) (fabs (.finite gy 0)))) =
      BitVec.ofNat 8 (min (gx.natAbs + gy.natAbs) 255) := by
  have hsum : fadd f (fabs (.finite gx 0)) (fabs (.finite gy 0)) = .finite ((gx.natAbs + gy.natAbs : Nat) : Int) 0 :=
    fadd_int f hf gx.natAbs gy.natAbs h
  rw [hsum, f2u8_fclamp free _ 0 le_rfl, neg_zero, Int.toNat_zero, pow_zero, Int.ediv_one, ofInt_clampInt_natCast,
    min_comm]

end Sys2Proof.Machine

open Sys2Proof Sys2Proof.Machine

/-- Settles O31: the two sums over the neighbours are those over the bytes of H0's buffer. -/
theorem sobelMagFixed : Obligations.SobelMagFixed := by
  intro s src dst h hm
  obtain ⟨t, he, written⟩ := convolution_completes h (i := .sobelMag) rfl
  refine ⟨t, he, written.congr fun x y hx hx' hy hy' => ?_⟩
  rw [hm, ← h.weightedSum_neighbours _ hx hx' hy hy', ← h.weightedSum_neighbours _ hx hx' hy hy']
  rfl

/-- Settles O32: both gradients are integers within 1020, so the float datapath rounds nowhere. -/
theorem sobelModesAgree : Obligations.SobelModesAgree := by
  intro p b x y hf hx hy hfx hfy
  have hbx := natAbs_weightedSum_kernelSobelX_le (neighbours b x y)
  have hby := natAbs_weightedSum_kernelSobelY_le (neighbours b x y)
  show sobelFloat p.float p.ktabFloat b x y = sobelFixed p.ktab b x y
  rw [sobelFloat, sobelFixed, hfx, hfy, hx, hy, weightedSumFloat_fixedWeights hf kernelSobelX.w _ (by decide),
    weightedSumFloat_fixedWeights hf kernelSobelY.w _ (by decide)]
  exact f2u8_fclamp_magnitude _ hf _ _ (by omega)
end

section
/-!
SUPPORT. The scheduler on the command port (R200 to R217): the four actions from the accepted state, the border through the
chain, a decoded grid read back, the tick with its result code, and RUN's iteration and end.
-/
namespace Sys2Proof.Machine

/-! ### ACT.OUTPUT -/

/-- What the call of Encode writes: the record of calls, and on IOError STATUS.ENC_ERR and RC (R202, R248). -/
theorem State.handToEncoder_frame (s : State) (b : Buffer) : s.handToEncoder b =
    { s with
      rc := (match s.encodeAnswer s.outCursor.toNat b with | .success => s.rc | .ioError => codeEncodeIOError),
      status := (match s.encodeAnswer s.outCursor.toNat b with
        | .success => s.status | .ioError => statusEncErr s.status),
      env := (s.afterEncode s.outCursor.toNat b).env } := by
  unfold State.handToEncoder
  cases s.encodeAnswer s.outCursor.toNat b <;> rfl

/-! ### One allocation answered yes -/

theorem Owned.accepted {s : State} (h : Owned s) : Owned s.accepted := h.congr rfl rfl (fun o => by simp)

/-- What ACT.FILTER and ACT.CONVERT write beside the holders and the store: NEXT_HANDLE and the one AllocOk draw. -/
theorem State.eq_of_one_alloc {s t : State} {e : ElemType} {w h : Nat} (c : SameControls s t)
    (hn : t.nextHandle = s.nextHandle + 1) (he : t.env = (s.afterAlloc e w h).env) (ha : s.allocAnswer e w h = true) :
    t = { s with
      raw := t.holder .raw, gray := t.holder .gray, proc := t.holder .proc, ppSrc := t.holder .ppSrc,
      ppDst := t.holder .ppDst, cscOut := t.holder .cscOut, mem := t.mem, nextHandle := s.nextHandle + 1,
      env := { s.env with allocs := s.env.allocs.tail, calls := s.env.calls ++ [.allocOk e w h true] } } := by
  have frame := State.eq_of_controls c
  rw [hn, he, State.afterAlloc, ha] at frame
  exact frame

/-! ### The border through the chain (R216) -/

/-- A pair of gray frames of `g`'s dimensions with the values `u` and `v` at (x, y). -/
structure PairAt (g : Buffer) (x y : Nat) (u v : Byte) (P : Buffer × Buffer) : Prop where
  wfSrc : P.1.wf = true
  wfDst : P.2.wf = true
  graySrc : P.1.elem = .gray
  grayDst : P.2.elem = .gray
  widthSrc : P.1.width = g.width
  widthDst : P.2.width = g.width
  heightSrc : P.1.height = g.height
  heightDst : P.2.height = g.height
  atSrc : P.1.getGray x y = u
  atDst : P.2.getGray x y = v

section Border
variable {g : Buffer} {x y : Nat} {u v : Byte} {P : Buffer × Buffer}
  (border : ¬ (1 ≤ x ∧ x + 2 ≤ g.width.toNat ∧ 1 ≤ y ∧ y + 2 ≤ g.height.toNat))
include border

/-- A pass writes no border element, so at the border the two frames' values change places. -/
theorem PairAt.chainStep (h : PairAt g x y u v P)
    (pix : Buffer → Nat → Nat → Byte) : PairAt g x y v u (chainStep pix P) where
  wfSrc := filterBuffer_wf pix P.1 P.2 h.grayDst h.wfDst
  wfDst := h.wfSrc
  graySrc := (filterBuffer_elem pix P.1 P.2).trans h.grayDst
  grayDst := h.graySrc
  widthSrc := (filterBuffer_width pix P.1 P.2).trans h.widthDst
  widthDst := h.widthSrc
  heightSrc := (filterBuffer_height pix P.1 P.2).trans h.heightDst
  heightDst := h.heightSrc
  atSrc := by
    have written := getGray_filterBuffer pix P.1 P.2 x y h.wfDst (h.widthSrc.trans h.widthDst.symm)
      (h.heightSrc.trans h.heightDst.symm)
    rw [h.widthDst, h.heightDst, if_neg border] at written
    exact written.trans h.atDst
  atDst := h.atSrc

theorem PairAt.chainStepIf (h : PairAt g x y u v P)
    (on : Bool) (pix : Buffer → Nat → Nat → Byte) :
    PairAt g x y (if on then v else u) (if on then u else v) (chainStepIf on pix P) := by
  cases on with
  | false => exact h
  | true => exact h.chainStep border pix

end Border

/-- The pair the chain starts from: the gray frame, and a zero-filled scratch of its dimensions. -/
theorem PairAt.start {g : Buffer} (hw : g.wf = true) (hg : g.elem = .gray) (x y : Nat) :
    PairAt g x y (g.getGray x y) 0#8 (g, Buffer.fresh .gray g.width g.height .ppDst) := by
  obtain ⟨width, height, -⟩ := (Buffer.wf_iff g).1 hw
  exact ⟨hw, Buffer.fresh_wf _ _ _ _ width height (by decide), hg, rfl, rfl, rfl, rfl, rfl, rfl,
    Buffer.fresh_getGray _ _ _ _ _ _⟩

/-! ### ACT.INPUT -/

/-- Decode's pixels stand in the new buffer in row-major order (R205, R61, R62). -/
theorem Buffer.getRgb_decoded {w h : BitVec 16} {px : List Pixel} (hl : px.length = w.toNat * h.toNat) {x y : Nat}
    (hx : x < w.toNat) (hy : y < h.toNat) :
    some ((Buffer.decoded w h px).getRgb x y) = px[y * w.toNat + x]? := by
  have hi : y * w.toNat + x < px.length := hl ▸ offset_lt hx hy
  have inside : (Buffer.decoded w h px).inRange x y = true :=
    (Buffer.inRange_iff _ _ _).2 ⟨by omega, Int.ofNat_lt.2 hx, by omega, Int.ofNat_lt.2 hy⟩
  have channel : ∀ c < 3, Store.read (Buffer.decoded w h px).data (3 * (y * w.toNat + x) + c) =
      [px[y * w.toNat + x].r, px[y * w.toNat + x].g, px[y * w.toNat + x].b].getD c 0#8 := by
    intro c hc
    have read := Store.read_ofBytes (pixelBytes px) 0 (3 * (y * w.toNat + x) + c)
    rw [Nat.zero_add, flat_getD px _ c hi hc] at read
    exact read
  rw [List.getElem?_eq_getElem hi, Buffer.getRgb, if_pos inside]
  have index : (Buffer.decoded w h px).index x y = y * w.toNat + x := rfl
  have red := channel 0 (by decide)
  rw [Nat.add_zero] at red
  rw [index, red, channel 1 (by decide), channel 2 (by decide)]
  rfl

/-- The contract of Decode with the numbers of R7 (R258, P2 of R273). -/
theorem decodeContract_iff (w h : Nat) (px : List Pixel) : decodeContract w h px = true ↔
    4 ≤ w ∧ w % 4 = 0 ∧ w ≤ 1920 ∧ 1 ≤ h ∧ h ≤ 1080 ∧ px.length = w * h := by
  simp only [decodeContract, Bool.and_eq_true, decide_eq_true_eq, and_assoc]
  exact Iff.rfl

/-- What ACT.INPUT writes when it stores buffer `b` for an accepted grid: the new handle in RAW, the input cursor, and the
two draws, Decode's and the allocator's (R205). -/
theorem State.inputStored_frame {s : State} {id : Ident} {w h : Nat} {px : List Pixel} {b : Buffer} (hb : b.owner = .raw)
    (hd : s.decodeAnswer id = .grid w h px) (ha : (s.afterDecode id).allocAnswer .rgb w h = true) :
    (((s.afterDecode id).afterAlloc .rgb w h).install b).countInput =
      { s with
        raw := some s.nextHandle, inCursor := s.inCursor + 1#32, mem := s.mem.put s.nextHandle b,
        nextHandle := s.nextHandle + 1,
        env := { s.env with allocs := s.env.allocs.tail, decodes := s.env.decodes.tail,
                            calls := s.env.calls ++ [.decode id (.grid w h px), .allocOk .rgb w h true] } } := by
  rw [State.install, hb, State.afterAlloc, ha, State.afterDecode, hd, List.append_assoc]
  rfl

theorem actInput_idle (s : State) (h : ¬ s.inCursor.toNat < s.total.toNat) : actInput s = .next s :=
  (actInput_eq_next s s).2 (.inl ⟨h, rfl⟩)

/-! ### TICK -/

@[simp] theorem State.enterPhase_enterPhase (s : State) (p q : Phase) : (s.enterPhase p).enterPhase q = s.enterPhase q := rfl

/-- A tick in which no action's condition holds counts itself and does nothing else (R200, R206). -/
theorem schedTick_idle {s : State} (hph : s.phase = .idle) (hr : s.raw = none) (hg : s.gray = none) (hp : s.proc = none)
    (hi : ¬ s.inCursor.toNat < s.total.toNat) : schedTick s = .next s.countTick := by
  have self : s.countTick.enterPhase .idle = s.countTick := enterPhase_self s.countTick hph
  simp [schedTick, actOutput_empty, actFilter_empty, actConvert_empty, actInput_idle, hp, hg, hr, hi, self]

/-- A tick that made no oracle call leaves RC as it was (R240; log 9). -/
theorem nestedCode_silent {b s : State} (h : s.env.calls = b.env.calls) : nestedCode b s = { s with rc := b.rc } := by
  have none_raised : s.raisedAfter b.env.calls.length = [] := by rw [State.raisedAfter, h, List.drop_length]; rfl
  rw [nestedCode, none_raised]

/-- The tick with its result code, as TICK and RUN make it, is R210's assignment, and RC is as before the tick or the code
of a condition its calls raised. -/
theorem codedTick_transfer {s : State} (h : TickReady s) :
    ∃ t, bindNext (schedTick s) (fun t => .next (nestedCode s t)) = .next t ∧ TickTransfer s t ∧
      t.running = s.running ∧ (t.rc = s.rc ∨ t.rc ∈ s.tickCalls.filterMap OracleCall.code) := by
  obtain ⟨t, e, transfer, hr, -⟩ := schedTick_transfer s h
  refine ⟨nestedCode s t, by rw [e, bindNext_next], transfer.congr_rc rfl (nestedCode_rc s t), hr, ?_⟩
  rw [← raisedAfter_append transfer.calls]
  exact nestedCode_range s t

/-! ### RUN -/

/-- RUN, accepted, goes through one iteration of its loop, from the active run or from the one it starts (R207). -/
theorem exec_run_accepted {s : State} (hf : s.fatal = false) (hd : s.done = false) :
    exec .run s = runIteration (if s.running then s else s.startRun) := by
  rw [exec_run, execRun, hf, hd]
  cases s.running <;> rfl

/-- RUN's state at its loop test: RC cleared where the run starts (R94), and a run active. -/
theorem runState_eq (s : State) : (if s.running then s else s.startRun) =
    { s with rc := if s.running then s.rc else 0#3, running := true } := by
  cases h : s.running
  · rfl
  · cases s; cases h; rfl

/-- A memory in which no handle is live lists none. -/
theorem Memory.eq_nil_of_dead (m : Memory) (h : ∀ k, m.find k = none) : m = [] := by
  cases m with
  | nil => rfl
  | cons e r => have dead := h e.1; simp [Memory.find] at dead

/-- A run state whose output cursor has reached the target: the cursors meet there and nothing is left (R217). -/
theorem InRun.drained {s : State} (h : InRun s) (hout : ¬ s.outCursor.toNat < s.total.toNat) :
    s.outCursor = s.total ∧ s.inCursor = s.total ∧ s.raw = none ∧ s.gray = none ∧ s.proc = none ∧ s.mem = [] := by
  have gap := h.cursorGap
  have cursors := h.control.cursors
  unfold State.inFlight at gap
  have hr : s.raw = none := (occupied_zero _).1 (by omega)
  have hg : s.gray = none := (occupied_zero _).1 (by omega)
  have hp : s.proc = none := (occupied_zero _).1 (by omega)
  refine ⟨BitVec.eq_of_toNat_eq (by omega), BitVec.eq_of_toNat_eq (by omega), hr, hg, hp,
    Memory.eq_nil_of_dead _ fun k => ?_⟩
  have unnamed : ¬ ∃ b, s.mem.find k = some b := by
    rw [h.live_iff_register, exists_register_iff, hr, hg, hp]
    simp
  exact Option.eq_none_iff_forall_ne_some.2 fun b hb => unnamed ⟨b, hb⟩

/-! ### TICK's value (R213) -/

theorem tickBlind_onPort {f : State → Result} (hf : TickBlind f) : TickBlind (fun s => onPort s f) :=
  .ite (fun _ _ => Iff.rfl) (.refuse _) <| .ite (fun _ _ => Iff.rfl) (.refuse _) <|
  hf.comp (u := State.accepted) fun _ n => ⟨n, rfl⟩

theorem tickBlind_execRun : TickBlind execRun :=
  .ite (fun _ _ => Iff.rfl) (.refuse _) <| .ite (fun _ _ => Iff.rfl) (.refuse _) <|
  .ite (fun _ _ => Iff.rfl) tickBlind_runIteration (tickBlind_runIteration.comp (u := State.startRun) fun _ n => ⟨n, rfl⟩)

theorem tickBlind_exec (i : Instr) : TickBlind (exec i) := by
  by_cases hi : i = .run
  · subst hi; exact tickBlind_execRun
  · have port : exec i = fun s => onPort s (portBody i) := funext (exec_port i hi)
    rw [port]
    exact tickBlind_onPort (tickBlind_portBody i)

end Sys2Proof.Machine

open Sys2Proof Sys2Proof.Machine

/-- Settles O39: Encode's answer decides RC and STATUS, and the frame handed over is removed from the store. -/
theorem actOutputCompletes : Obligations.ActOutputCompletes := by
  intro s h b hr hf hm hp hb
  have e : exec .actOutput s = .next ((s.accepted.handToEncoder b).removeBuffer h).countOutput :=
    (exec_open .actOutput (by decide) s hr hf).trans ((actOutput_eq_next s.accepted _ h hp).2 ⟨b, hb, rfl⟩)
  have hfind : ∀ k, (((s.accepted.handToEncoder b).removeBuffer h).countOutput).mem.find k =
      if k = h then none else s.mem.find k := by
    intro k
    rw [State.countOutput_mem, State.removeBuffer_mem, State.handToEncoder_mem]
    exact Memory.find_remove s.mem h k hm
  refine ⟨_, e, (hfind h).trans (if_pos rfl), fun k hk => (hfind k).trans (if_neg hk), ?_⟩
  rw [State.handToEncoder_frame]
  rfl

/-- Settles O40: each action tests its condition first, and an idle tick makes no oracle call. -/
theorem idleActionsDoNothing : Obligations.IdleActionsDoNothing := by
  intro s hr hf
  refine ⟨fun h => ?_, fun h => ?_, fun h => ?_, fun h => ?_, fun hph hraw hgray hproc hcur => ?_⟩
  · rw [exec_open .actOutput (by decide) s hr hf]; exact actOutput_empty s.accepted h
  · rw [exec_open .actFilter (by decide) s hr hf]; exact actFilter_empty s.accepted h
  · rw [exec_open .actConvert (by decide) s hr hf]; exact actConvert_empty s.accepted h
  · rw [exec_open .actInput (by decide) s hr hf]; exact actInput_idle s.accepted h
  · have idle : schedTick s.accepted = .next s.accepted.countTick :=
      schedTick_idle (s := s.accepted) hph hraw hgray hproc (by simp [hcur])
    rw [exec_open .tick (by decide) s hr hf, portBody, idle, bindNext_next,
      nestedCode_silent (b := s.accepted) (s := s.accepted.countTick) rfl]
    rfl

/-- Settles O41: the chain ends in the handle that the parity of the passes names, and the drop removes the other. -/
theorem actFilterCompletes : Obligations.ActFilterCompletes := by
  intro s g b hs hr hf hg hb h1 h2 h3 ha odd result other
  obtain ⟨t, e, controls, hold, hn, henv, hfind⟩ := actFilter_next s.accepted hs.accepted g b hg hb h1 h2 h3 ha
  have distinct : other ≠ result := by
    have fresh : g ≠ s.nextHandle := (hs.fresh g b hb).ne
    by_cases parity : odd
    · simpa [other, result, parity] using fresh
    · simpa [other, result, parity] using fresh.symm
  have frame := State.eq_of_one_alloc controls hn henv ha
  simp only [hold] at frame
  exact ⟨t, (exec_open .actFilter (by decide) s hr hf).trans e, (hfind result).trans (if_pos rfl),
    (hfind other).trans ((if_neg distinct).trans (if_pos rfl)),
    fun k hk hk' => (hfind k).trans ((if_neg hk).trans (if_neg hk')), frame⟩

/-- Settles O42: at the border each pass exchanges the values of the two frames, which start as the gray frame's and 0. -/
theorem chainBorder : Obligations.ChainBorder := by
  intro p float gauss sharp sobel g x y hw hg border
  have final := ((((PairAt.start hw hg x y).chainStep border (convPixel p float .blur)).chainStepIf border gauss
    (convPixel p float .gaussian)).chainStepIf border sharp (convPixel p float .sharpen)).chainStepIf border sobel
    (sobelPixel p float)
  refine final.atSrc.trans ?_
  -- the parity of the exchanges, for each setting of the enable bits
  cases gauss <;> cases sharp <;> cases sobel <;> rfl

/-- Settles O43: CSC.CONVERT writes the luma of every pixel into the scratch that GRAY then names. -/
theorem actConvertCompletes : Obligations.ActConvertCompletes := by
  intro s r b hs hr hf hraw hb h1 h2 ha
  obtain ⟨t, e, controls, hold, hn, henv, hfind⟩ := actConvert_next s.accepted hs.accepted r b hraw hb h1 h2 ha
  obtain ⟨width, height, -⟩ := (Buffer.wf_iff b).1 (hs.recordWf hb)
  have hne : r ≠ s.nextHandle := (hs.fresh r b hb).ne
  have frame := State.eq_of_one_alloc controls hn henv ha
  simp only [hold] at frame
  refine ⟨t, _, (exec_open .actConvert (by decide) s hr hf).trans e, (hfind s.nextHandle).trans (if_pos rfl),
    convertBuffer_elem _ _ _ _, convertBuffer_width _ _ _ _, convertBuffer_height _ _ _ _, rfl,
    fun x y hx hy => ?_, ?_, fun k hk hk' => ?_, frame⟩
  · exact getGray_convertBuffer _ _ b (Buffer.fresh .gray b.width b.height .cscOut) x y
      (Buffer.fresh_wf _ _ _ _ width height (by decide)) ((dimsDiffer_false _ _).2 ⟨rfl, rfl⟩)
      ((Buffer.inRange_iff _ _ _).2 ⟨by omega, Int.ofNat_lt.2 hx, by omega, Int.ofNat_lt.2 hy⟩)
  · exact (hfind r).trans ((if_neg hne).trans (if_pos rfl))
  · exact (hfind k).trans ((if_neg hk).trans (if_neg hk'))

/-- Settles O44: the decoded buffer lists the bytes of the pixels in their order, and Decode's bounds lie within the grid's. -/
theorem actInputAcceptsGrid : Obligations.ActInputAcceptsGrid := by
  refine ⟨fun s id w h px hr hf hlt hid hraw hd hw hw' hh hh' hl ha => ?_, fun w h px => ⟨decodeContract_iff w h px, ?_⟩⟩
  · have grid : gridOk w h px = true := (gridOk_iff w h px).2 ⟨hw, hw', hh, hh', hl⟩
    have ww : (BitVec.ofNat 16 w).toNat = w := Nat.mod_eq_of_lt (by omega)
    have wh : (BitVec.ofNat 16 h).toNat = h := Nat.mod_eq_of_lt (by omega)
    have accept := (acceptGrid_eq_next w h px (s.accepted.afterDecode id) _).2 ⟨grid, hraw, ha, rfl⟩
    have e := (actInput_eq_next s.accepted _).2 (.inr ⟨hlt, id, hid, .inr ⟨w, h, px, hd, accept⟩⟩)
    refine ⟨_, _, (exec_open .actInput (by decide) s hr hf).trans e, (Memory.find_put _ _ _ _).trans (if_pos rfl), rfl, ww,
      wh, rfl, fun x y hx hy => ?_, fun k hk => (Memory.find_put _ _ _ _).trans (if_neg hk),
      State.inputStored_frame (s := s.accepted) rfl hd ha⟩
    have read := Buffer.getRgb_decoded (w := BitVec.ofNat 16 w) (h := BitVec.ofNat 16 h) (hl.trans (by rw [ww, wh]))
      (hx.trans_eq ww.symm) (hy.trans_eq wh.symm)
    rwa [ww] at read
  · rw [decodeContract_iff, gridOk_iff]
    omega

/-- Settles O47: the accepted command is a tick with its result code, begun with RC = 0. -/
theorem tickCompletes : Obligations.TickCompletes := by
  intro s h hr hf
  obtain ⟨t, e, transfer, running, code⟩ := codedTick_transfer h.accepted
  exact ⟨t, (exec_open .tick (by decide) s hr hf).trans e, transfer.congr_rc rfl rfl, running.trans hr, code⟩

/-- Settles O48: below the target the loop makes a tick with its result code, begun with the run's RC. -/
theorem runTicks : Obligations.RunTicks := by
  intro s h hf hd hlt
  have ready : TickReady (if s.running then s else s.startRun) := by
    split
    · exact h
    · exact h.startRun
  rw [runState_eq] at ready
  obtain ⟨t, e, transfer, running, code⟩ := codedTick_transfer ready
  refine ⟨t, ?_, transfer.congr_rc rfl rfl, running, code⟩
  rw [exec_run_accepted hf hd, runState_eq, runIteration, if_pos hlt]
  exact e

/-- Settles O49: at the target the loop makes no tick. -/
theorem runFinishes : Obligations.RunFinishes := by
  intro s hf hd hlt
  rw [exec_run_accepted hf hd, runState_eq, runIteration, if_neg hlt]
  rfl

/-- Settles O50: the last iteration writes DONE and the run bit only, in a state that `InRun.drained` finds empty. -/
theorem runEndState : Obligations.RunEndState := by
  intro s h hr hout
  obtain ⟨ho, hi, hraw, hgray, hproc, hmem⟩ := h.drained hout
  obtain ⟨-, done, fatal, -⟩ := statusDone_bits s.status
  exact ⟨_, runFinishes s h.control.notFatal (h.control.notDone hr) hout, done, fatal.trans h.control.notFatal, rfl, ho, hi,
    hraw, hgray, hproc, h.srcEmpty, h.dstEmpty, h.cscEmpty, hmem⟩

/-- Settles O60: no operation reads TICK to decide anything, the port's acceptance rule and RUN's included. -/
theorem tickCounterSteersNothing : Obligations.TickCounterSteersNothing := fun i => tickBlind_exec i
end

section
/-!
SUPPORT. The conditions of R240 in the actions: what DecodeFailure writes in STATUS, where a grid outside R258 stops
ACT.INPUT, and the fatal abort of an action or a tick as the command port shows it.
-/
namespace Sys2Proof.Machine

/-! ### Decode's answer to ACT.INPUT (R205) -/

/-- DecodeFailure leaves DIM_MISMATCH and ENC_ERR as they were (R246). -/
theorem statusDecFail_highBits (st : BitVec 8) (c : DecodeError) :
    (statusDecFail st (causeCode c)).getLsbD 6 = st.getLsbD 6 ∧
      (statusDecFail st (causeCode c)).getLsbD 7 = st.getLsbD 7 := by
  cases c <;> (revert st; decide)

theorem actInput_decodeError {s : State} {id : Ident} {c : DecodeError} (hlt : s.inCursor.toNat < s.total.toNat)
    (hid : s.pending[s.inCursor.toNat]? = some id) (hd : s.decodeAnswer id = .error c) :
    actInput s = .next (raiseDecodeFailure (s.afterDecode id) c) :=
  (actInput_eq_next s _).2 (.inr ⟨hlt, id, hid, .inl ⟨c, hd, rfl⟩⟩)

theorem actInput_decodedGrid {s : State} {id : Ident} {w h : Nat} {px : List Pixel}
    (hlt : s.inCursor.toNat < s.total.toNat) (hid : s.pending[s.inCursor.toNat]? = some id)
    (hd : s.decodeAnswer id = .grid w h px) : actInput s = acceptGrid w h px (s.afterDecode id) := by
  simp [actInput, hlt, hid, hd]

theorem acceptGrid_badGrid {w h : Nat} {px : List Pixel} (hg : gridOk w h px = false) (s : State) :
    acceptGrid w h px s = .refused .badGrid := if_pos hg

theorem gridOk_eq_false_iff (w h : Nat) (px : List Pixel) : gridOk w h px = false ↔
    w = 0 ∨ h = 0 ∨ 65535 < w ∨ 65535 < h ∨ px.length ≠ w * h := by
  rw [← Bool.not_eq_true, gridOk_iff]
  omega

/-! ### The fatal abort on the command port (R244) -/

/-- The abort as R244 states it, the record of calls left out. -/
theorem AbortedFrom.fatalState {s : State} {r : Result} (h : AbortedFrom s r) :
    ∃ a, r = .fault (.allocationError a) ∧ a.fatal = true ∧ a.done = s.done ∧ a.rc = 1#3 := by
  obtain ⟨a, _, _, _, _, fault, fatal, done, rc, -⟩ := h
  exact ⟨a, fault, fatal, done, rc⟩

/-- An abort begun in a state that differs from `s` in RC and the run bit only. -/
theorem AbortedFrom.of_congrRc {s t : State} {r : Result} (h : AbortedFrom t r)
    (ht : t = { s with rc := t.rc, running := t.running }) : AbortedFrom s r := by
  rw [ht] at h
  exact h

/-- An operation aborts on the port as its body does from the accepted state. -/
theorem exec_aborted {i : Instr} (hi : i ≠ .run) {s : State} (hr : s.running = false) (hf : s.fatal = false)
    (h : AbortedFrom s.accepted (portBody i s.accepted)) : AbortedFrom s (exec i s) := by
  rw [exec_open i hi s hr hf]
  exact h.of_congrRc rfl

theorem exec_tick_aborted {s : State} (h : TickStarved s) (hr : s.running = false) (hf : s.fatal = false) :
    AbortedFrom s (exec .tick s) :=
  exec_aborted (by decide) hr hf ((schedTick_aborted (h.congrRc (t := s.accepted) rfl)).bind _)

theorem exec_run_aborted {s : State} (h : TickStarved s) (hf : s.fatal = false) (hd : s.done = false)
    (hlt : s.outCursor.toNat < s.total.toNat) : AbortedFrom s (exec .run s) := by
  rw [exec_run_accepted hf hd, runState_eq, runIteration, if_pos hlt]
  exact ((schedTick_aborted (h.congrRc rfl)).bind _).of_congrRc rfl

end Sys2Proof.Machine

open Sys2Proof Sys2Proof.Machine

/-- Settles O45: DecodeFailure writes STATUS's decode fields and TOTAL only, and a grid is tested before any draw. -/
theorem actInputDecodeFailure : Obligations.ActInputDecodeFailure := by
  refine ⟨fun s id c hr hf hlt hid hd => ?_, fun s id w h px hr hf hlt hid hd bad => ?_⟩
  · have e : exec .actInput s = .next (raiseDecodeFailure (s.accepted.afterDecode id) c) :=
      (exec_open .actInput (by decide) s hr hf).trans (actInput_decodeError (s := s.accepted) hlt hid hd)
    obtain ⟨done, fatal, decFail, cause, -⟩ := statusDecFail_bits s.status c
    obtain ⟨dimMismatch, encErr⟩ := statusDecFail_highBits s.status c
    refine ⟨_, e, decFail, (congrArg BitVec.toNat cause).trans ?_, done, fatal, dimMismatch, encErr, ?_⟩
    · cases c <;> rfl
    · rw [← hd]
      rfl
  · exact (exec_open .actInput (by decide) s hr hf).trans ((actInput_decodedGrid (s := s.accepted) hlt hid hd).trans
      (acceptGrid_badGrid ((gridOk_eq_false_iff w h px).2 bad) _))

/-- Settles O46: each action reaches its request with the holders free, and a starving tick reaches the one answered no. -/
theorem actionsAbortOnAllocation : Obligations.ActionsAbortOnAllocation := by
  refine ⟨fun s hs hr hf => ⟨fun g b hg hb h1 h2 ha => ?_, fun r b hraw hb h1 ha => ?_,
    fun id w h px hlt hid hraw hd hg ha => ?_⟩, fun s h hf => ⟨fun hr => exec_tick_aborted h hr hf, exec_run_aborted h hf⟩⟩
  · exact (exec_aborted (i := .actFilter) (by decide) hr hf
      (actFilter_aborted (s := s.accepted) hs.accepted hg hb h1 h2 ha)).fatalState
  · exact (exec_aborted (i := .actConvert) (by decide) hr hf
      (actConvert_aborted (s := s.accepted) hs.accepted hraw hb h1 ha)).fatalState
  · exact (exec_aborted (i := .actInput) (by decide) hr hf
      (actInput_aborted (s := s.accepted) hlt hid hraw hd hg ha)).fatalState
end

section
/-!
SUPPORT. Progress of a run (R273, R284): while OUT_CURSOR is below TOTAL an accepted RUN is a tick, whose work left RC and
the run bit are no part of.
-/
namespace Sys2Proof.Machine

/-- Below the target, RUN's iteration is a tick with its result code (R207). -/
theorem exec_run_below_target {s t : State} (hlt : s.outCursor.toNat < s.total.toNat) (e : exec .run s = .next t) :
    s.done = false ∧ ∃ u v, u = { s with rc := u.rc, running := true } ∧ schedTick u = .next v ∧ t = nestedCode u v := by
  obtain ⟨-, hd, e⟩ := (exec_run_eq_next s t).1 e
  rw [runState_eq, runIteration, if_pos hlt] at e
  obtain ⟨v, ev, coded⟩ := (bindNext_eq_next _ _ _).1 e
  cases coded
  exact ⟨hd, _, v, rfl, ev, rfl⟩

/-- The work left counts identifiers and registers only. -/
theorem State.workLeft_congrRc {s t : State} (ht : t = { s with rc := t.rc, running := t.running }) :
    t.workLeft = s.workLeft := by
  rw [ht]
  rfl

end Sys2Proof.Machine

open Sys2Proof Sys2Proof.Machine

/-- Settles O51: below the target RUN is a tick from a run state, and each action of a tick moves a frame one register on. -/
theorem tickMakesProgress : Obligations.TickMakesProgress := by
  intro s t h hlt e
  obtain ⟨hd, u, v, hu, ev, rfl⟩ := exec_run_below_target hlt e
  have run : InRun u := h.congrRc (by rw [hu]) fun _ => hd
  have below : u.outCursor.toNat < u.total.toNat := by rwa [hu]
  calc (nestedCode u v).workLeft
      = v.workLeft := State.workLeft_congrRc (nestedCode_rc u v)
    _ < u.workLeft := (run.schedTick ev).2 below
    _ = s.workLeft := State.workLeft_congrRc (by rw [hu])
end
